-- ==== Sys2Proof/Word.lean ====
section
/-! DEFINITION. The word types of the block (00_scope.md R7, R8: every value is unsigned) and its
256-entry tables. -/

namespace Sys2Proof

/-- A host-visible register's value: `XLEN` = 32 bits (R7). -/
abbrev Word := BitVec 32

/-- A byte of M, a byte value of the alphabet, the data of a Code (R7, R11). -/
abbrev Byte := BitVec 8

/-- One entry for each of the `NSYM` = 256 byte values (R7). -/
abbrev Table (α : Type) := Vector α 256

end Sys2Proof
end

