-- ==== Sys2Proof/Syntax.lean ====
section
/-! DEFINITION. The commands of the block: the one inductive `Instr`, a constructor for each row of
spec/opcode_table.json, and the fields of a command word. -/

namespace Sys2Proof

/-- The size form F of a dictionary header (30_encoding.md R101, R110). -/
inductive SizeForm where
  /-- F = 0: a 1-byte size field that holds `count - 1`. -/
  | oneByte
  /-- F = 1: a 2-byte size field that holds `count`. -/
  | twoByte
  deriving DecidableEq, Repr

/-- The commands (30_encoding.md R102). A command has no operand fields but F (R104). -/
inductive Instr where
  | count
  | build
  | assign
  | dictWrite (f : SizeForm)
  | dictRead (f : SizeForm)
  | encode
  | decode
  | raDecode
  | clear
  deriving DecidableEq, Repr

/-- The three fields of a command word (30_encoding.md R100). -/
structure CommandFields where
  /-- Bits 7:0. -/
  op : BitVec 8
  /-- Bit 8. -/
  f : Bool
  /-- Bits 31:9, reserved. -/
  zero : BitVec 23
  deriving DecidableEq, Repr

end Sys2Proof
end

