-- ==== Sys2Proof/WellFormed.lean ====
section
/-! DEFINITION. Which command words are legal (30_encoding.md R100 to R103), check by check, written
apart from the decoder. Every term of `Instr` is well formed by its type: its one operand is a
`SizeForm`; so the checks stand on a word's fields. -/

namespace Sys2Proof

/-- OP is one of the nine codes 0x01 to 0x09 (R102, R103). -/
def CommandFields.opListed (c : CommandFields) : Bool := 0x01#8 ≤ c.op && c.op ≤ 0x09#8

/-- Bits 31:9 "must be 0" (R100). -/
def CommandFields.reservedZero (c : CommandFields) : Bool := c.zero == 0#23

/-- "For every OP other than DICT_WRITE and DICT_READ, F must be 0" (R101). -/
def CommandFields.formAllowed (c : CommandFields) : Bool :=
  !c.f || c.op == 0x04#8 || c.op == 0x05#8

/-- The word is legal (R102); every other word is illegal (R103). -/
def CommandFields.wellFormed (c : CommandFields) : Bool :=
  c.opListed && c.reservedZero && c.formAllowed

end Sys2Proof
end

