-- ==== Sys2Proof/Decode.lean ====
section
/-! DEFINITION. The decoder of command words, total on all 2^32 of them, and the encoder
(30_encoding.md R100 to R103). -/

namespace Sys2Proof

/-- Why a word is illegal (R103). The block reports one error for all three; the names are the
decoder's own. -/
inductive IllegalWord where
  /-- A bit of 31:9 is set. -/
  | reservedBits
  /-- OP is 0x00 or 0x0A to 0xFF. -/
  | unlistedOp
  /-- F = 1 with an OP other than 0x04 and 0x05. -/
  | formOnPlainOp
  deriving DecidableEq, Repr

/-- What the decoder answers. -/
inductive Decoded where
  | command (i : Instr)
  | illegal (why : IllegalWord)
  deriving DecidableEq, Repr

/-- Field F as a size form (R101). -/
def SizeForm.ofBit (f : Bool) : SizeForm := if f then .twoByte else .oneByte

/-- A size form as field F (R101). -/
def SizeForm.bit : SizeForm → Bool
  | .oneByte => false
  | .twoByte => true

/-- The fields of a command word (R100). -/
def CommandFields.ofWord (w : Word) : CommandFields :=
  { op := w.extractLsb' 0 8, f := w.getLsbD 8, zero := w.extractLsb' 9 23 }

/-- The word with these fields (R100). -/
def CommandFields.toWord (c : CommandFields) : Word := c.zero ++ BitVec.ofBool c.f ++ c.op

/-- The row that OP and F select (R102). -/
def decodeRow (op : Nat) (f : Bool) : Decoded :=
  match op, f with
  | 0x01, false => .command .count
  | 0x02, false => .command .build
  | 0x03, false => .command .assign
  | 0x04, f => .command (.dictWrite (.ofBit f))
  | 0x05, f => .command (.dictRead (.ofBit f))
  | 0x06, false => .command .encode
  | 0x07, false => .command .decode
  | 0x08, false => .command .raDecode
  | 0x09, false => .command .clear
  | n, _ => if 0x01 ≤ n ∧ n ≤ 0x09 then .illegal .formOnPlainOp else .illegal .unlistedOp

/-- The decoder (R102): bits 31:9 must be zero, then OP and F select the row. -/
def decodeWord (w : Word) : Decoded :=
  let c := CommandFields.ofWord w
  if c.zero = 0#23 then decodeRow c.op.toNat c.f else .illegal .reservedBits

/-- The operation code of a command (R102). -/
def Instr.opcode : Instr → BitVec 8
  | .count => 0x01#8
  | .build => 0x02#8
  | .assign => 0x03#8
  | .dictWrite _ => 0x04#8
  | .dictRead _ => 0x05#8
  | .encode => 0x06#8
  | .decode => 0x07#8
  | .raDecode => 0x08#8
  | .clear => 0x09#8

/-- Field F of a command: 0 but for the dictionary commands (R101). -/
def Instr.form : Instr → Bool
  | .dictWrite f => f.bit
  | .dictRead f => f.bit
  | .count => false
  | .build => false
  | .assign => false
  | .encode => false
  | .decode => false
  | .raDecode => false
  | .clear => false

/-- The fields of a command's word (R100 to R102). -/
def Instr.fields (i : Instr) : CommandFields := { op := i.opcode, f := i.form, zero := 0#23 }

/-- The encoder: the command word of an instruction (R102). -/
def encode (i : Instr) : Word := i.fields.toWord

/-- What the decoder reads from a row of spec/opcode_table.json whose `nbits` bits are `w`. A command
is one 32-bit word written whole (R105), so no byte order comes in; a number of more than 32 bits is
no command. -/
def decodeTableWord (nbits w : Nat) : Option Instr :=
  let bits := w % 2 ^ nbits
  if bits < 2 ^ 32 then
    match decodeWord (BitVec.ofNat 32 bits) with
    | .command i => some i
    | .illegal _ => none
  else none

end Sys2Proof
end

