-- ==== Sys2Proof/Config.lean ====
section
/-! DEFINITION. What an implementation fixes, and the free values: constants with no body, of which
nothing in Lean can know a value. -/

namespace Sys2Proof

/-- What one implementation of the block fixes (00_scope.md R7: "`MEM_BYTES` is the only value left
open: a model takes it as an argument"). [log 3] -/
structure Config where
  /-- `MEM_BYTES`, the size in bytes of the data memory M. -/
  memBytes : Nat
  deriving DecidableEq, Repr

/-- `1 <= MEM_BYTES <= 2^29 - 1` (R7). -/
abbrev Config.legal (c : Config) : Prop := 1 ≤ c.memBytes ∧ c.memBytes ≤ 2 ^ 29 - 1

/-- The size of M in the spec's test vectors (95_test_vectors.md, common setting).
[log 3: DESIGN CHOICE] -/
def Config.vectors : Config := { memBytes := 4096 }

/-- The constant of the ID register (R7, 10_state.md R25). -/
def Config.idValue : Word := 0x48554631#32

/-- `MAX_CODE_LEN` (R7). -/
def Config.maxCodeLen : Nat := 8

/-- FREE VALUE. The byte that address `a` of M holds at power-on, for the power-on content numbered
`seed` (70_reset_and_hazards.md R241, U9: any bytes). [log 4] -/
opaque Config.powerOnByte : (seed a : Nat) → BitVec 8

/-- FREE VALUE. What the `n`-th read of a register other than STATUS returns while BUSY
(10_state.md R50, U11: any value). [log 5] -/
opaque Config.busyRead : (n : Nat) → BitVec 32

/-- FREE VALUE. Whether the `k`-th byte write of a command that the `n`-th free choice's reset ends
has landed in M (70_reset_and_hazards.md R242, U10). [log 6] -/
opaque Config.resetLands : (n k : Nat) → Bool

end Sys2Proof
end

