-- ==== Sys2Proof/Machine/State.lean ====
section
/-! DEFINITION. The state of the block (10_state.md R20) as plain data, and the state after reset
(70_reset_and_hazards.md R241). -/

namespace Sys2Proof.Machine

/-- A Code `(len, data)` (00_scope.md R11): bit `j` of `data` is step `j` from the root. -/
structure Code where
  len : Nat
  data : Byte
  deriving DecidableEq, Repr

/-- A coding tree (10_state.md R45): every node is a leaf with its weight or an internal node with
exactly two children. Weights are exact numbers: none wraps (R49). -/
inductive CodeTree where
  | leaf (b : Byte) (w : Nat)
  | node (l r : CodeTree)
  deriving DecidableEq, Repr

/-- The tree the block holds (10_state.md R39, R45). TREE_STATE is computed from it: NONE, EMPTY,
and for a built tree SINGLE when it is a leaf and TREE when its root is internal. [log 11] -/
inductive TreeReg where
  /-- No BUILD since reset or CLEAR. -/
  | noTree
  /-- BUILD found zero leaves. -/
  | emptyTree
  /-- BUILD found one leaf or more. -/
  | built (t : CodeTree)
  deriving DecidableEq, Repr

/-- DMAP, the decode map (10_state.md R43): a byte or undefined for each of the 510 matchable Codes
`(len, data)`, `1 <= len <= 8` and `data < 2^len`; the Code's place is `2^len + data - 2`. -/
abbrev DecodeMap := Vector (Option Byte) 510

/-- The data memory M (20_memory.md R71): the bytes written since power-on, at strictly rising
addresses. An address that is not listed has had no write. [log 4] -/
abbrev Memory := List Host.Cell

/-- The error codes (60_exceptions.md R211). -/
inductive ErrCode where
  | none
  | illegalCommand
  | ioBounds
  | regionOverlap
  | noTree
  | codeTooLong
  | noCodes
  | symbolUncoded
  | malformedHeader
  | notLoaded
  | decodeOverlong
  | raTruncated
  deriving DecidableEq, Repr

/-- How many bytes a host register access moves; only a word is legal (10_state.md R22). -/
inductive AccessWidth where
  | byte
  | half
  | word
  deriving DecidableEq, Repr

/-- One interaction of the host with the block (20_memory.md R90). A CMD write and a STATUS write are
register writes. [log 1] -/
inductive HostAction where
  /-- Writes `v` to the register at byte offset `off` of the 4096-byte register space. -/
  | regWrite (off : BitVec 12) (width : AccessWidth) (v : Word)
  /-- Reads the register at byte offset `off`. -/
  | regRead (off : BitVec 12) (width : AccessWidth)
  /-- Writes one byte of M through the host's memory port. -/
  | memWrite (a : Nat) (v : Byte)
  /-- Reads one byte of M through the host's memory port. -/
  | memRead (a : Nat)
  /-- Waits: a command that runs is finished (R90, "wait (busy)"). -/
  | wait
  /-- Asserts the reset input (70_reset_and_hazards.md R240). -/
  | reset
  deriving DecidableEq, Repr

/-- What the host got back from its last interaction (20_memory.md R90, column "host gets back"). -/
inductive Reply where
  | nothing
  | word (v : Word)
  | byte (v : Byte)
  deriving DecidableEq, Repr

/-- The state of the block and, at the end, the model's own fields. -/
structure State where
  /-- CTRL bit 0, IRQ_EN (R26). -/
  irqEn : Bool
  /-- The command word the engine runs: STATUS.BUSY is 1 while there is one (R27, R28, R50). [log 2] -/
  running : Option Word
  /-- STATUS.DONE (R28, R29). -/
  done : Bool
  /-- STATUS.ERRCODE; STATUS.ERR is 1 when it is not 0 (R28). -/
  error : ErrCode
  /-- STATUS.LAST_OP (R28). -/
  lastOp : BitVec 8
  /-- DICT_LOADED (R44). -/
  dictLoaded : Bool
  /-- CODES_VALID (R42). -/
  codesValid : Bool
  /-- SRC_ADDR (R30). -/
  srcAddr : Word
  /-- SRC_LEN (R30). -/
  srcLen : Word
  /-- DST_ADDR (R31). -/
  dstAddr : Word
  /-- DST_CAP (R31). -/
  dstCap : Word
  /-- IN_BITPOS (R32). -/
  inBitpos : Word
  /-- BIT_END (R33). -/
  bitEnd : Word
  /-- OUT_BITPOS (R34). -/
  outBitpos : Word
  /-- RA_OFFSET (R35). -/
  raOffset : Word
  /-- RA_LENGTH (R35). -/
  raLength : Word
  /-- RA_CURSOR (R36). -/
  raCursor : Word
  /-- RESULT0 (R37). -/
  result0 : Word
  /-- RESULT1 (R37). -/
  result1 : Word
  /-- NLEAVES, bits 8:0 (R38). -/
  nleaves : BitVec 9
  /-- The root weight, ROOT_WEIGHT_HI bits 7:0 above ROOT_WEIGHT_LO (R38). [log 11] -/
  rootWeight : BitVec 40
  /-- MAXLEN, bits 3:0 (R38). -/
  maxlen : BitVec 4
  /-- FREQ (R40). -/
  freq : Table Word
  /-- CODE (R41): `none` is an entry with `valid = 0`. -/
  code : Table (Option Code)
  /-- DMAP (R43). -/
  dmap : DecodeMap
  /-- The coding tree and with it TREE_STATE (R39, R45). -/
  tree : TreeReg
  /-- The data memory M (20_memory.md R71). -/
  mem : Memory
  /-- The implementation's parameter MEM_BYTES (00_scope.md R7): no step changes it. [log 3] -/
  cfg : Config
  /-- MODEL'S OWN. Which power-on content M has (R241): no step changes it. [log 4] -/
  powerOn : Nat
  /-- MODEL'S OWN. How many free values have been taken. [log 5, log 6] -/
  free : Nat
  /-- MODEL'S OWN. The host's interactions still to come, the next one first. [log 1] -/
  host : List HostAction
  /-- MODEL'S OWN. What the last interaction gave back to the host. [log 1] -/
  reply : Reply
  /-- MODEL'S OWN. Every non-zero error code so far, the newest first (60_exceptions.md R219, D30).
  [log 12] -/
  errorRecord : List ErrCode
  deriving DecidableEq, Repr

/-- Why the machine stops with a fault. -/
inductive Fault where
  /-- Raised by the host's port: the host reads or writes M while BUSY = 1, in a race with the engine
  (20_memory.md R86, U12: the host must not, and the block does not check). Safe. [log 8] -/
  | hostMemoryRace
  deriving DecidableEq, Repr

/-- Why a step has no meaning. -/
inductive Refusal where
  /-- Raised by `exec` for an instruction that has no meaning yet. Safe. -/
  | notModelled (mnemonic : String)
  /-- Raised by the host's port: a register access that is not one whole aligned word (10_state.md
  R22, U13: "it is refused"). Safe. [log 9] -/
  | registerAccessShape
  /-- Raised by the host's port: a host access of M at or above MEM_BYTES (20_memory.md R90, U14: "the
  model refuses it"). Safe. [log 9] -/
  | hostAddressOutsideM
  deriving DecidableEq, Repr

/-- The state right after reset of a block with parameter `cfg`, power-on content `seed` and memory
`m`: reset does not change M (R241). -/
def State.resetOf (cfg : Config) (seed : Nat) (m : Memory) : State where
  irqEn := false
  running := none
  done := false
  error := .none
  lastOp := 0#8
  dictLoaded := false
  codesValid := false
  srcAddr := 0#32
  srcLen := 0#32
  dstAddr := 0#32
  dstCap := 0#32
  inBitpos := 0#32
  bitEnd := 0xFFFFFFFF#32
  outBitpos := 0#32
  raOffset := 0#32
  raLength := 0#32
  raCursor := 0#32
  result0 := 0#32
  result1 := 0#32
  nleaves := 0#9
  rootWeight := 0#40
  maxlen := 0#4
  freq := Vector.replicate 256 0#32
  code := Vector.replicate 256 none
  dmap := Vector.replicate 510 none
  tree := .noTree
  mem := m
  cfg := cfg
  powerOn := seed
  free := 0
  host := []
  reply := .nothing
  errorRecord := []

/-- The machine right after power-on and reset (R241): nothing written to M yet. -/
def State.reset : State := State.resetOf Config.vectors 0 []

end Sys2Proof.Machine
end

