-- ==== Sys2Proof/Machine/Ops.lean ====
section
/-! DEFINITION. The operations the meanings share: tables, the decode map, M, bits of a byte, the end
of a command (with or without an error) and the host's acknowledgement of it. -/

namespace Sys2Proof

/-! ### Tables -/

/-- Entry `b` of a table. -/
def Table.read {α : Type} (t : Table α) (b : Byte) : α := t[b.toNat]'b.isLt

/-- The table with entry `b` set to `v`. -/
def Table.write {α : Type} (t : Table α) (b : Byte) (v : α) : Table α := t.set b.toNat v b.isLt

/-- The table whose every entry is `v`. -/
def Table.fill {α : Type} (v : α) : Table α := Vector.replicate 256 v

/-- The entries of a table with their byte values, in ascending byte value. -/
def Table.entries {α : Type} (t : Table α) : List (Byte × α) :=
  t.toList.zipIdx.map (fun e => (BitVec.ofNat 8 e.2, e.1))

/-- The byte values 0 to 255 in ascending order. -/
def allBytes : List Byte := (List.range 256).map (BitVec.ofNat 8)

end Sys2Proof

namespace Sys2Proof.Machine

/-! ### Codes and the decode map -/

/-- `1 <= len <= 8` and `data < 2^len`: the Codes a decoder's accumulator can equal
(42_dictionary_codec.md R166) and the only ones CODE holds (10_state.md R41). -/
def Code.matchable (c : Code) : Bool :=
  decide (1 ≤ c.len) && decide (c.len ≤ 8) && decide (c.data.toNat < 2 ^ c.len)

/-- The bits of a Code in stream order: `data[0]` to `data[len-1]` (43_stream_codec.md R176). -/
def Code.bits (c : Code) : List Bool := (List.range c.len).map c.data.getLsbD

/-- The empty accumulator. -/
def Code.empty : Code := { len := 0, data := 0#8 }

/-- The accumulator with one more bit: `(len + 1, data | (b << len))` (43_stream_codec.md R182). -/
def Code.append (c : Code) (b : Bool) : Code :=
  { len := c.len + 1, data := c.data ||| (BitVec.ofNat 8 b.toNat <<< c.len) }

/-- The place of a matchable Code in the decode map. -/
def Code.place (c : Code) : Nat := 2 ^ c.len + c.data.toNat - 2

/-- `DMAP[c]`, `none` where it is undefined (10_state.md R43). -/
def DecodeMap.read (m : DecodeMap) (c : Code) : Option Byte :=
  if c.matchable then (m[c.place]?).join else none

/-- `DMAP[c] <- v`; an unmatchable Code is no key of DMAP (10_state.md R43). -/
def DecodeMap.write (m : DecodeMap) (c : Code) (v : Byte) : DecodeMap :=
  if c.matchable then m.setIfInBounds c.place (some v) else m

/-- The empty decode map. -/
def DecodeMap.empty : DecodeMap := Vector.replicate 510 none

/-- The longest length of a valid entry of CODE, 0 if there is none (41_code_assigner.md R151). -/
def maxCodeLen (c : Table (Option Code)) : Nat :=
  c.entries.foldl (fun n e => match e.2 with | some k => max n k.len | none => n) 0

/-- The number of valid entries of CODE. -/
def validCodes (c : Table (Option Code)) : Nat := c.entries.countP (fun e => e.2.isSome)

/-! ### The data memory M -/

/-- The byte written last at address `a`, `none` where nothing has been written. -/
def Memory.cell : Memory → Nat → Option Byte
  | [], _ => none
  | (x, v) :: m, a => if a = x then some v else Memory.cell m a

/-- The memory with byte `v` at address `a`. -/
def Memory.store : Memory → Nat → Byte → Memory
  | [], a, v => [(a, v)]
  | (x, u) :: m, a, v =>
    if a < x then (a, v) :: (x, u) :: m
    else if a = x then (a, v) :: m
    else (x, u) :: Memory.store m a v

/-- The one canonical form of a memory: addresses strictly rising. An address that is not listed
reads as "nothing written", which no entry says, so no entry equals it. [log 4] -/
abbrev Memory.wf (m : Memory) : Prop := m.Pairwise (fun c d => c.1 < d.1)

/-- The byte that memory `m` holds at address `a`, of a machine with power-on content `seed`: the byte
written last, else the byte of power-on (R241). [log 4] -/
def Memory.byte (m : Memory) (seed a : Nat) : Byte := (m.cell a).getD (Config.powerOnByte seed a)

/-- `M[a]`. -/
def State.byteAt (s : State) (a : Nat) : Byte := s.mem.byte s.powerOn a

/-- What a running command has done to M so far (10_state.md R47). -/
structure Engine where
  mem : Memory
  /-- The byte writes of this command, the newest first. -/
  trail : List Host.Cell
  deriving DecidableEq, Repr

/-- The engine at the start of a command. -/
def State.engine (s : State) : Engine := { mem := s.mem, trail := [] }

/-- `MemRead(a, 1)` (20_memory.md R74). -/
def memRead (s : State) (e : Engine) (a : Nat) : Except ErrCode Byte :=
  if s.cfg.memBytes ≤ a then .error .ioBounds else .ok (e.mem.byte s.powerOn a)

/-- `MemWrite(a, 1, v)` (20_memory.md R74). -/
def memWrite (s : State) (e : Engine) (a : Nat) (v : Byte) : Except ErrCode Engine :=
  if s.cfg.memBytes ≤ a then .error .ioBounds
  else .ok { mem := e.mem.store a v, trail := (a, v) :: e.trail }

/-! ### Bits of a byte -/

/-- Bit position `p` of a region within its byte: bit `7 - (p mod 8)` (20_memory.md R76). -/
def bitOfByte (c : Byte) (p : Nat) : Bool := c.getLsbD (7 - p % 8)

/-- Byte `c` with bit position `p` set to `b` and its other seven bits unchanged (20_memory.md R80). -/
def setBitOfByte (c : Byte) (p : Nat) (b : Bool) : Byte :=
  let mask : Byte := 1#8 <<< (7 - p % 8)
  if b then c ||| mask else c &&& ~~~mask

/-! ### The end of a command: the one shared operation for success and for every error -/

/-- Writes RESULT0 and RESULT1 (10_state.md R37). -/
def State.setResults (s : State) (r0 r1 : Nat) : State :=
  { s with result0 := BitVec.ofNat 32 r0, result1 := BitVec.ofNat 32 r1 }

/-- The sticky record with error code `e` added when it is not 0 (60_exceptions.md R219). [log 12] -/
def recordError (e : ErrCode) (r : List ErrCode) : List ErrCode := if e = .none then r else e :: r

/-- Command end (60_exceptions.md R215): BUSY <- 0, DONE <- 1, ERRCODE <- e (with it ERR), LAST_OP <-
the operation code. "This is all the block saves." [log 10] -/
def State.endCommand (s : State) (op : BitVec 8) (e : ErrCode) : State :=
  { s with
    running := none, done := true, error := e, lastOp := op
    errorRecord := recordError e s.errorRecord }

/-- `raise E(info)` (00_scope.md R10, 60_exceptions.md R210): the exception entry of this block. -/
def State.raise (s : State) (op : BitVec 8) (e : ErrCode) (r0 r1 : Nat) : State :=
  (s.setResults r0 r1).endCommand op e

/-- `done` (00_scope.md R10): the command ends successfully. -/
def State.finish (s : State) (op : BitVec 8) (r0 r1 : Nat) : State :=
  (s.setResults r0 r1).endCommand op .none

/-- The host's acknowledgement, the return from the block's exception (60_exceptions.md R218): a
STATUS write with bit 1 set clears DONE, and nothing else changes (10_state.md R29). -/
def State.acknowledge (s : State) (v : Word) : State :=
  if v.getLsbD 1 then { s with done := false } else s

end Sys2Proof.Machine
end

