-- ==== Sys2Proof/Machine/Operands.lean ====
section
/-! DEFINITION. The operand forms: the source and destination regions and their stream primitives
(20_memory.md R75 to R80, 30_encoding.md R104). Addresses and bit positions are natural numbers, so
no sum wraps (R73). -/

namespace Sys2Proof.Machine

/-- The source and destination regions share an address (20_memory.md R75). -/
def State.overlap (s : State) : Bool :=
  decide (0 < s.srcLen.toNat) && decide (0 < s.dstCap.toNat) &&
  decide (s.srcAddr.toNat < s.dstAddr.toNat + s.dstCap.toNat) &&
  decide (s.dstAddr.toNat < s.srcAddr.toNat + s.srcLen.toNat)

/-- `SrcByte(i)` (20_memory.md R77); `none` is EOS. -/
def srcByte (s : State) (e : Engine) (i : Nat) : Except ErrCode (Option Byte) :=
  if s.srcLen.toNat ≤ i then .ok none
  else match memRead s e (s.srcAddr.toNat + i) with
    | .ok c => .ok (some c)
    | .error x => .error x

/-- `SrcBit(p)` (20_memory.md R78); `none` is EOS. -/
def srcBit (s : State) (e : Engine) (p : Nat) : Except ErrCode (Option Bool) :=
  match srcByte s e (p / 8) with
  | .ok (some c) => .ok (some (bitOfByte c p))
  | .ok none => .ok none
  | .error x => .error x

/-- `DstByte(k, v)` (20_memory.md R79). -/
def dstByte (s : State) (e : Engine) (k : Nat) (v : Byte) : Except ErrCode Engine :=
  if s.dstCap.toNat ≤ k then .error .ioBounds else memWrite s e (s.dstAddr.toNat + k) v

/-- `DstBit(q, b)` (20_memory.md R80): a read-modify-write of one byte. -/
def dstBit (s : State) (e : Engine) (q : Nat) (b : Bool) : Except ErrCode Engine :=
  if s.dstCap.toNat ≤ q / 8 then .error .ioBounds
  else match memRead s e (s.dstAddr.toNat + q / 8) with
    | .ok c => memWrite s e (s.dstAddr.toNat + q / 8) (setBitOfByte c q b)
    | .error x => .error x

/-- The end of DECODE's input bit stream: `min(BIT_END, 8 * SRC_LEN)` (43_stream_codec.md R181). -/
def State.decodeLimit (s : State) : Nat := min s.bitEnd.toNat (8 * s.srcLen.toNat)

end Sys2Proof.Machine
end

