-- ==== Sys2Proof/Machine/TreeBuilder.lean ====
section
/-! DEFINITION. COUNT and BUILD (40_tree_builder.md). -/

namespace Sys2Proof.Machine

/-! ### COUNT -/

/-- COUNT's loop over the bytes `i`, `i + 1`, … (`n` of them), from the local table `t` (R131); the
error names the index of the byte that could not be read. -/
def countLoop (s : State) (e : Engine) : Nat → Nat → Table Nat → Except (ErrCode × Nat) (Table Nat)
  | 0, _, t => .ok t
  | n + 1, i, t =>
    match srcByte s e i with
    | .error x => .error (x, i)
    | .ok none => .ok t
    | .ok (some c) => countLoop s e n (i + 1) (t.write c (t.read c + 1))

/-- COUNT (R131). -/
def execCount (s : State) : Host.Outcome State Fault Refusal :=
  match countLoop s s.engine s.srcLen.toNat 0 (Table.fill 0) with
  | .error (x, i) => .next (s.raise (Instr.opcode .count) x 0 i)
  | .ok t =>
    .next (({ s with freq := t.map (BitVec.ofNat 32) } : State).finish (Instr.opcode .count)
      (t.entries.countP (fun e => decide (0 < e.2))) s.srcLen.toNat)

/-! ### BUILD -/

/-- The weight of a node: a leaf's own, else the sum of its children's (00_scope.md R12). -/
def CodeTree.weight : CodeTree → Nat
  | .leaf _ w => w
  | .node l r => l.weight + r.weight

/-- `b` is in the node's `chars` (00_scope.md R12). -/
def CodeTree.has : CodeTree → Byte → Bool
  | .leaf c _, b => c == b
  | .node l r, b => l.has b || r.has b

/-- The leaves a FREQ table gives, in ascending byte order (R133). -/
def leavesOf (freq : Table Word) : List (Byte × Nat) :=
  (freq.entries.map (fun e => (e.1, e.2.toNat))).filter (fun l => decide (0 < l.2))

/-- Leaf `x` comes before leaf `y`: ascending by (weight, byte value) (R135). -/
def leafBefore (x y : Byte × Nat) : Bool := x.2 < y.2 || (x.2 == y.2 && x.1 < y.1)

/-- Puts a leaf at its place in a sorted list (R135). -/
def insertLeaf (x : Byte × Nat) : List (Byte × Nat) → List (Byte × Nat)
  | [] => [x]
  | y :: ys => if leafBefore y x then y :: insertLeaf x ys else x :: y :: ys

/-- The leaves sorted ascending by (weight, byte value) (R135). -/
def sortLeaves (l : List (Byte × Nat)) : List (Byte × Nat) := l.foldr insertLeaf []

/-- The rest of one level pass, `level` from the current node on and `next` the nodes of the next
level built so far, the last one first (R136): absorb, else pair, else carry. -/
def levelScan : (level next : List CodeTree) → List CodeTree
  | [], next => next.reverse
  | [cur], next =>
    match next with
    | [] => [cur]
    | last :: done =>
      if last.weight ≤ cur.weight then (.node last cur :: done).reverse else (cur :: next).reverse
  | cur :: right :: rest, next =>
    match next with
    | [] => levelScan rest [.node cur right]
    | last :: done =>
      if last.weight ≤ cur.weight then levelScan (right :: rest) (.node last cur :: done)
      else levelScan rest (.node cur right :: next)

/-- One level pass (R136). -/
def levelPass (level : List CodeTree) : List CodeTree := levelScan level []

/-- Level passes until one node is left, at most `fuel` of them, and how many were made after `levels`
(R134). A list of `n` nodes needs at most `n - 1` (R140). -/
def buildLevels : (fuel : Nat) → List CodeTree → (levels : Nat) → List CodeTree × Nat
  | 0, level, levels => (level, levels)
  | fuel + 1, level, levels =>
    if 1 < level.length then buildLevels fuel (levelPass level) (levels + 1) else (level, levels)

/-- The tree of a FREQ table and the number of level passes made for it (R134, R142). -/
def buildTree (freq : Table Word) : TreeReg × Nat :=
  let leaves := (sortLeaves (leavesOf freq)).map (fun l => CodeTree.leaf l.1 l.2)
  match buildLevels leaves.length leaves 0 with
  | ([], levels) => (.emptyTree, levels)
  | (t :: _, levels) => (.built t, levels)

/-- The weight of the tree held, 0 when there is none (R134). -/
def TreeReg.weight : TreeReg → Nat
  | .noTree => 0
  | .emptyTree => 0
  | .built t => t.weight

/-- BUILD (R134, R139). -/
def execBuild (s : State) : Host.Outcome State Fault Refusal :=
  let n := (leavesOf s.freq).length
  let (tree, levels) := buildTree s.freq
  .next (({ s with
    code := Table.fill none
    codesValid := false
    tree := tree
    nleaves := BitVec.ofNat 9 n
    rootWeight := BitVec.ofNat 40 tree.weight } : State).finish (Instr.opcode .build) n levels)

end Sys2Proof.Machine
end

