-- ==== Sys2Proof/Machine/CodeAssigner.lean ====
section
/-! DEFINITION. ASSIGN (41_code_assigner.md). -/

namespace Sys2Proof.Machine

/-- The tree walk `CodeOf(tree, b)` from a node at `depth` with the path bits `data` so far; `none` is
TOO_LONG (R152). -/
def codeOf : CodeTree → (b : Byte) → (depth : Nat) → (data : Byte) → Option Code
  | .leaf _ _, _, depth, data => some { len := depth, data := data }
  | .node l r, b, depth, data =>
    if depth = Config.maxCodeLen then none
    else if l.has b then codeOf l b (depth + 1) data
    else codeOf r b (depth + 1) (data ||| (1#8 <<< depth))

/-- ASSIGN's loop over byte values in ascending order from the local table `c`; the error names the
byte value whose leaf is deeper than 8 (R151). -/
def assignLoop (t : CodeTree) : List Byte → Table (Option Code) → Except Byte (Table (Option Code))
  | [], c => .ok c
  | b :: bs, c =>
    if t.has b then
      match codeOf t b 0 0#8 with
      | none => .error b
      | some k => assignLoop t bs (c.write b (some k))
    else assignLoop t bs c

/-- The codes of a built tree: the trivial code of a single leaf (R153), else the walk of every leaf
(R151). -/
def codesOfTree : CodeTree → Except Byte (Table (Option Code))
  | .leaf b _ => .ok ((Table.fill none).write b (some { len := 1, data := 0#8 }))
  | .node l r => assignLoop (.node l r) allBytes (Table.fill none)

/-- ASSIGN's success with the code table `c` (R151). -/
def State.assigned (s : State) (c : Table (Option Code)) : State :=
  ({ s with code := c, codesValid := true, maxlen := BitVec.ofNat 4 (maxCodeLen c) } : State).finish
    (Instr.opcode .assign) (validCodes c) (maxCodeLen c)

/-- ASSIGN (R151). -/
def execAssign (s : State) : Host.Outcome State Fault Refusal :=
  match s.tree with
  | .noTree => .next (s.raise (Instr.opcode .assign) .noTree 0 0)
  | .emptyTree => .next (s.assigned (Table.fill none))
  | .built t =>
    match codesOfTree t with
    | .ok c => .next (s.assigned c)
    | .error b =>
      .next (({ s with code := Table.fill none, codesValid := false, maxlen := 0#4 } : State).raise
        (Instr.opcode .assign) .codeTooLong b.toNat (Config.maxCodeLen + 1))

end Sys2Proof.Machine
end

