-- ==== Sys2Proof/Machine/Control.lean ====
section
/-! DEFINITION. CLEAR and the illegal command words (45_control.md). -/

namespace Sys2Proof.Machine

/-- CLEAR (R200). -/
def execClear (s : State) : Host.Outcome State Fault Refusal :=
  .next (({ s with
    freq := Table.fill 0#32
    tree := .noTree
    code := Table.fill none
    codesValid := false
    dmap := DecodeMap.empty
    dictLoaded := false
    nleaves := 0#9
    rootWeight := 0#40
    maxlen := 0#4 } : State).finish (Instr.opcode .clear) 0 0)

/-- The illegal-command action for word `w` (R202): STATUS and nothing else. -/
def State.illegalCommand (s : State) (w : Word) : State :=
  s.endCommand (w.extractLsb' 0 8) .illegalCommand

end Sys2Proof.Machine
end

