-- ==== Sys2Proof/Machine/DictionaryCodec.lean ====
section
/-! DEFINITION. DICT_WRITE and DICT_READ (42_dictionary_codec.md). -/

namespace Sys2Proof.Machine

/-! ### DICT_WRITE -/

/-- The valid entries of CODE in ascending byte value (R161). -/
def codeEntries (c : Table (Option Code)) : List (Code × Byte) :=
  c.entries.filterMap (fun e => e.2.map (fun k => (k, e.1)))

/-- The size field of a header of `count` entries (R162, 30_encoding.md R110): 1 byte of `count - 1`,
nothing for the empty dictionary; or 2 bytes of `count`, big-endian (20_memory.md R81). -/
def sizeField (f : SizeForm) (count : Nat) : List Byte :=
  match f with
  | .oneByte => if count = 0 then [] else [BitVec.ofNat 8 (count - 1)]
  | .twoByte => [BitVec.ofNat 8 (count / 256), BitVec.ofNat 8 (count % 256)]

/-- The three bytes of an entry: length, data, byte value (30_encoding.md R111). -/
def entryBytes (e : Code × Byte) : List Byte := [BitVec.ofNat 8 e.1.len, e.1.data, e.2]

/-- The bytes of a header (R162). -/
def headerBytes (f : SizeForm) (entries : List (Code × Byte)) : List Byte :=
  sizeField f entries.length ++ entries.flatMap entryBytes

/-- How far a loop of byte writes has come: `k` bytes written, and the error that ended it. -/
structure WriteRun where
  eng : Engine
  k : Nat
  err : ErrCode
  deriving DecidableEq, Repr

/-- Writes bytes to the destination region at index `k` on, up to the first error. -/
def writeBytes (s : State) : List Byte → (e : Engine) → (k : Nat) → WriteRun
  | [], e, k => { eng := e, k := k, err := .none }
  | v :: vs, e, k =>
    match dstByte s e k v with
    | .error x => { eng := e, k := k, err := x }
    | .ok e' => writeBytes s vs e' (k + 1)

/-- DICT_WRITE's writes (R162). -/
def dictWriteRun (f : SizeForm) (s : State) : WriteRun :=
  writeBytes s (headerBytes f (codeEntries s.code)) s.engine 0

/-- DICT_WRITE (R162, R163). -/
def execDictWrite (f : SizeForm) (s : State) : Host.Outcome State Fault Refusal :=
  let op := Instr.opcode (.dictWrite f)
  if s.codesValid then
    let count := (codeEntries s.code).length
    let r := dictWriteRun f s
    let s' := { s with mem := r.eng.mem }
    if r.err = .none then
      .next (({ s' with outBitpos := BitVec.ofNat 32 (8 * r.k) } : State).finish op r.k count)
    else .next (State.raise s' op r.err r.k count)
  else .next (s.raise op .noCodes 0 0)

/-! ### DICT_READ -/

/-- An entry as a header holds it (30_encoding.md R111). -/
structure HeaderEntry where
  len : Byte
  data : Byte
  val : Byte
  deriving DecidableEq, Repr

/-- The Code of an entry. -/
def HeaderEntry.code (h : HeaderEntry) : Code := { len := h.len.toNat, data := h.data }

/-- Why and where a header could not be read (R165): the error, the count (0 if the size field was not
read) and the index of the byte that could not be read. -/
structure HeaderError where
  err : ErrCode
  count : Nat
  pos : Nat
  deriving DecidableEq, Repr

/-- A byte of the header: the end of the region is MALFORMED_HEADER (R165). -/
def headerByte (s : State) (count pos : Nat) : Except HeaderError Byte :=
  match srcByte s s.engine pos with
  | .ok (some c) => .ok c
  | .ok none => .error { err := .malformedHeader, count := count, pos := pos }
  | .error x => .error { err := x, count := count, pos := pos }

/-- The size field: the count and its length in bytes (R165). With F = 0 an empty region is the empty
dictionary (R170). -/
def readSize (f : SizeForm) (s : State) : Except HeaderError (Nat × Nat) :=
  match f with
  | .oneByte =>
    if s.srcLen = 0#32 then .ok (0, 0)
    else match headerByte s 0 0 with
      | .ok c => .ok (c.toNat + 1, 1)
      | .error x => .error x
  | .twoByte =>
    match headerByte s 0 0 with
    | .error x => .error x
    | .ok h =>
      match headerByte s 0 1 with
      | .error x => .error x
      | .ok l => .ok (256 * h.toNat + l.toNat, 2)

/-- One entry at `pos` (R165). -/
def readEntry (s : State) (count pos : Nat) : Except HeaderError HeaderEntry :=
  match headerByte s count pos with
  | .error x => .error x
  | .ok len =>
    match headerByte s count (pos + 1) with
    | .error x => .error x
    | .ok data =>
      match headerByte s count (pos + 2) with
      | .error x => .error x
      | .ok val => .ok { len := len, data := data, val := val }

/-- `n` entries from `pos` on, of a header of `count` (R165). -/
def readEntries (s : State) (count : Nat) : (n pos : Nat) → Except HeaderError (List HeaderEntry)
  | 0, _ => .ok []
  | n + 1, pos =>
    match readEntry s count pos with
    | .error x => .error x
    | .ok h =>
      match readEntries s count n (pos + 3) with
      | .error x => .error x
      | .ok hs => .ok (h :: hs)

/-- A whole header: its entries and its length in bytes (R165). -/
def readHeader (f : SizeForm) (s : State) : Except HeaderError (List HeaderEntry × Nat) :=
  match readSize f s with
  | .error x => .error x
  | .ok (count, pos) =>
    match readEntries s count count pos with
    | .error x => .error x
    | .ok es => .ok (es, pos + 3 * count)

/-- One entry of a header enters DMAP and CODE if it is matchable, else it is skipped (R166, R167). -/
def commitEntry (d : DecodeMap × Table (Option Code)) (h : HeaderEntry) :
    DecodeMap × Table (Option Code) :=
  if h.code.matchable then (d.1.write h.code h.val, d.2.write h.val (some h.code)) else d

/-- The decode map and the code table of a header's entries, in header order (R167, R168). -/
def commitEntries (es : List HeaderEntry) : DecodeMap × Table (Option Code) :=
  es.foldl commitEntry (DecodeMap.empty, Table.fill none)

/-- `Commit(E, pos)` (R167). -/
def State.commitDictionary (s : State) (es : List HeaderEntry) (pos : Nat) : State :=
  { s with
    dmap := (commitEntries es).1
    code := (commitEntries es).2
    codesValid := true
    dictLoaded := true
    maxlen := BitVec.ofNat 4 (maxCodeLen (commitEntries es).2)
    inBitpos := BitVec.ofNat 32 (8 * pos) }

/-- DICT_READ (R165, R169). -/
def execDictRead (f : SizeForm) (s : State) : Host.Outcome State Fault Refusal :=
  let op := Instr.opcode (.dictRead f)
  match readHeader f s with
  | .error x => .next (s.raise op x.err x.count x.pos)
  | .ok (es, pos) => .next ((s.commitDictionary es pos).finish op es.length pos)

end Sys2Proof.Machine
end

