-- ==== Sys2Proof/Machine/StreamCodec.lean ====
section
/-! DEFINITION. ENCODE and DECODE (43_stream_codec.md). -/

namespace Sys2Proof.Machine

/-! ### ENCODE -/

/-- How far an ENCODE has come (R177): the cursor `q`, the payload bits `nbits`, the input index `i`,
and the error that ended it. -/
structure EncodeRun where
  eng : Engine
  q : Nat
  nbits : Nat
  i : Nat
  err : ErrCode
  deriving DecidableEq, Repr

/-- Writes the bits of one Code at the cursor, up to the first error (R176, R177). -/
def putBits (s : State) : List Bool → EncodeRun → EncodeRun
  | [], r => r
  | b :: bs, r =>
    match dstBit s r.eng r.q b with
    | .error x => { r with err := x }
    | .ok e => putBits s bs { r with eng := e, q := r.q + 1, nbits := r.nbits + 1 }

/-- ENCODE's loop over the next `n` input bytes (R177, R178). -/
def encodeLoop (s : State) : (n : Nat) → EncodeRun → EncodeRun
  | 0, r => r
  | n + 1, r =>
    match srcByte s r.eng r.i with
    | .error x => { r with err := x }
    | .ok none => r
    | .ok (some c) =>
      match s.code.read c with
      | none => { r with err := .symbolUncoded }
      | some k =>
        let r' := putBits s k.bits r
        if r'.err = .none then encodeLoop s n { r' with i := r'.i + 1 } else r'

/-- The padding: 0 bits up to the next byte boundary, at most `n` of them (R179). -/
def padLoop (s : State) : (n : Nat) → EncodeRun → EncodeRun
  | 0, r => r
  | n + 1, r =>
    if r.q % 8 = 0 then r
    else match dstBit s r.eng r.q false with
      | .error x => { r with err := x }
      | .ok e => padLoop s n { r with eng := e, q := r.q + 1 }

/-- The start of an ENCODE (R177). -/
def State.encodeStart (s : State) : EncodeRun :=
  { eng := s.engine, q := s.outBitpos.toNat, nbits := 0, i := 0, err := .none }

/-- ENCODE after its two checks: the codes, then at most 7 bits of padding (R177). -/
def encodeRun (s : State) : EncodeRun :=
  let r := encodeLoop s s.srcLen.toNat s.encodeStart
  if r.err = .none then padLoop s 7 r else r

/-- ENCODE (R177). -/
def execEncode (s : State) : Host.Outcome State Fault Refusal :=
  let op := Instr.opcode .encode
  if s.codesValid then
    if s.overlap then .next (s.raise op .regionOverlap 0 0)
    else
      let r := encodeRun s
      let s' := { s with mem := r.eng.mem }
      if r.err = .none then
        .next (({ s' with outBitpos := BitVec.ofNat 32 r.q } : State).finish op r.nbits (r.q / 8))
      else .next (State.raise s' op r.err r.nbits r.i)
  else .next (s.raise op .noCodes 0 0)

/-! ### DECODE -/

/-- How far a decode has come (R182, 44_random_access.md R191): the cursor `p`, the bytes output `k`,
the accumulator, and the error that ended it. -/
structure DecodeRun where
  eng : Engine
  p : Nat
  k : Nat
  acc : Code
  err : ErrCode
  deriving DecidableEq, Repr

/-- Appends bit `b` at the cursor, then makes the match test: a match outputs its byte and empties the
accumulator; an accumulator of 8 bits with no match is DECODE_OVERLONG (R182, R183, R185). -/
def decodeBit (s : State) (b : Bool) (r : DecodeRun) : DecodeRun :=
  let acc := r.acc.append b
  match s.dmap.read acc with
  | some v =>
    match dstByte s r.eng r.k v with
    | .error x => { r with p := r.p + 1, acc := acc, err := x }
    | .ok e => { r with eng := e, p := r.p + 1, k := r.k + 1, acc := Code.empty }
  | none =>
    if acc.len = Config.maxCodeLen then { r with p := r.p + 1, acc := acc, err := .decodeOverlong }
    else { r with p := r.p + 1, acc := acc }

/-- DECODE's loop over the next `n` bits (R182). -/
def decodeLoop (s : State) : (n : Nat) → DecodeRun → DecodeRun
  | 0, r => r
  | n + 1, r =>
    match srcBit s r.eng r.p with
    | .error x => { r with err := x }
    | .ok none => r
    | .ok (some b) =>
      let r' := decodeBit s b r
      if r'.err = .none then decodeLoop s n r' else r'

/-- DECODE after its two checks: every bit from IN_BITPOS up to the limit (R181, R182). -/
def decodeRun (s : State) : DecodeRun :=
  decodeLoop s (s.decodeLimit - s.inBitpos.toNat)
    { eng := s.engine, p := s.inBitpos.toNat, k := 0, acc := Code.empty, err := .none }

/-- DECODE (R182). -/
def execDecode (s : State) : Host.Outcome State Fault Refusal :=
  let op := Instr.opcode .decode
  if s.dictLoaded then
    if s.overlap then .next (s.raise op .regionOverlap 0 0)
    else
      let r := decodeRun s
      let s' := { s with mem := r.eng.mem }
      if r.err = .none then
        .next (({ s' with inBitpos := BitVec.ofNat 32 r.p } : State).finish op r.k r.acc.len)
      else .next (State.raise s' op r.err r.k r.p)
  else .next (s.raise op .notLoaded 0 0)

end Sys2Proof.Machine
end

