-- ==== Sys2Proof/Machine/RandomAccess.lean ====
section
/-! DEFINITION. RA_DECODE (44_random_access.md). -/

namespace Sys2Proof.Machine

/-- RA_DECODE's loops as one (R191): while fewer than `n` symbols are decoded, the end-of-region test,
then one bit as in DECODE. Each round but the last reads a bit below `8 * SRC_LEN`, so a `fuel` of
one more than the bits left is never used up; a run that used it up would have no bit left. -/
def raLoop (s : State) (n : Nat) : (fuel : Nat) → DecodeRun → DecodeRun
  | 0, r => if r.k < n then { r with err := .raTruncated } else r
  | fuel + 1, r =>
    if r.k < n then
      if 8 * s.srcLen.toNat ≤ r.p then { r with err := .raTruncated }
      else match srcBit s r.eng r.p with
        | .error x => { r with err := x }
        | .ok none => { r with err := .raTruncated }
        | .ok (some b) =>
          let r' := decodeBit s b r
          if r'.err = .none then raLoop s n fuel r' else r'
    else r

/-- RA_DECODE after its checks (R191 to R193). -/
def raRun (s : State) : DecodeRun :=
  raLoop s (s.raLength.toNat / 8) (8 * s.srcLen.toNat - s.raOffset.toNat + 1)
    { eng := s.engine, p := s.raOffset.toNat, k := 0, acc := Code.empty, err := .none }

/-- RA_DECODE (R191, R194). -/
def execRaDecode (s : State) : Host.Outcome State Fault Refusal :=
  let op := Instr.opcode .raDecode
  if s.dictLoaded then
    if s.raLength = 0#32 then .next (s.finish op 0 0)
    else if s.overlap then .next (s.raise op .regionOverlap 0 0)
    else
      let r := raRun s
      let s' := { s with mem := r.eng.mem, raCursor := BitVec.ofNat 32 r.p }
      if r.err = .none then .next (State.finish s' op r.k (8 * r.k))
      else .next (State.raise s' op r.err r.k (8 * r.k))
  else .next (s.raise op .notLoaded 0 0)

end Sys2Proof.Machine
end

