-- ==== Sys2Proof/Machine/Dispatch.lean ====
section
/-! DEFINITION. One arm for each command (30_encoding.md R102). -/

namespace Sys2Proof.Machine

def exec (i : Instr) (s : State) : Host.Outcome State Fault Refusal :=
  match i with
  | .count => Sys2Proof.Machine.execCount s
  | .build => Sys2Proof.Machine.execBuild s
  | .assign => Sys2Proof.Machine.execAssign s
  | .dictWrite f => Sys2Proof.Machine.execDictWrite f s
  | .dictRead f => Sys2Proof.Machine.execDictRead f s
  | .encode => Sys2Proof.Machine.execEncode s
  | .decode => Sys2Proof.Machine.execDecode s
  | .raDecode => Sys2Proof.Machine.execRaDecode s
  | .clear => Sys2Proof.Machine.execClear s

end Sys2Proof.Machine
end

