-- ==== Sys2Proof/Machine/Flags.lean ====
section
/-! DEFINITION. The block's flags: the STATUS word (10_state.md R28), the codes of its fields, and the
interrupt output (R48). -/

namespace Sys2Proof.Machine

/-- The value of an error code (60_exceptions.md R211). -/
def ErrCode.value : ErrCode → BitVec 8
  | .none => 0x00#8
  | .illegalCommand => 0x01#8
  | .ioBounds => 0x02#8
  | .regionOverlap => 0x03#8
  | .noTree => 0x04#8
  | .codeTooLong => 0x05#8
  | .noCodes => 0x06#8
  | .symbolUncoded => 0x07#8
  | .malformedHeader => 0x08#8
  | .notLoaded => 0x09#8
  | .decodeOverlong => 0x0A#8
  | .raTruncated => 0x0B#8

/-- STATUS.BUSY (10_state.md R28, R50). -/
def State.busy (s : State) : Bool := s.running.isSome

/-- STATUS.ERR: "1 when ERRCODE is not 0" (R28). -/
def State.err (s : State) : Bool := s.error.value != 0#8

/-- TREE_STATE: 0 NONE, 1 EMPTY, 2 SINGLE, 3 TREE (R39). -/
def TreeReg.state : TreeReg → BitVec 2
  | .noTree => 0#2
  | .emptyTree => 1#2
  | .built (.leaf _ _) => 2#2
  | .built (.node _ _) => 3#2

/-- The STATUS word (R28). -/
def State.statusWord (s : State) : Word :=
  0#8 ++ s.lastOp ++ s.error.value ++ 0#1 ++ s.tree.state ++ BitVec.ofBool s.codesValid ++
    BitVec.ofBool s.dictLoaded ++ BitVec.ofBool s.err ++ BitVec.ofBool s.done ++
    BitVec.ofBool s.busy

/-- The interrupt output `irq = CTRL.IRQ_EN AND STATUS.DONE` (R48). -/
def State.irq (s : State) : Bool := s.irqEn && s.done

end Sys2Proof.Machine
end

