-- ==== Sys2Proof/Machine/Registers.lean ====
section
/-! DEFINITION. The host-visible registers: the map of 10_state.md R21 and the read and the write of
each. -/

namespace Sys2Proof.Machine

/-- The registers of R21. -/
inductive Reg where
  | id
  | ctrl
  | cmd
  | status
  | srcAddr
  | srcLen
  | dstAddr
  | dstCap
  | inBitpos
  | bitEnd
  | outBitpos
  | raOffset
  | raLength
  | raCursor
  | result0
  | result1
  | nleaves
  | rootWeightLo
  | rootWeightHi
  | maxlen
  | freq (b : Byte)
  | code (b : Byte)
  | reserved
  deriving DecidableEq, Repr

/-- The single registers and their byte offsets (R21). -/
def regMap : List (Nat × Reg) :=
  [(0x000, .id), (0x004, .ctrl), (0x008, .cmd), (0x00C, .status), (0x010, .srcAddr),
   (0x014, .srcLen), (0x018, .dstAddr), (0x01C, .dstCap), (0x020, .inBitpos), (0x024, .bitEnd),
   (0x028, .outBitpos), (0x02C, .raOffset), (0x030, .raLength), (0x034, .raCursor),
   (0x038, .result0), (0x03C, .result1), (0x040, .nleaves), (0x044, .rootWeightLo),
   (0x048, .rootWeightHi), (0x04C, .maxlen)]

/-- The register at an aligned byte offset: a single register, a window entry (`0x400 + 4b` and
`0x800 + 4b`), else reserved (R21). -/
def regAt (off : BitVec 12) : Reg :=
  let n := off.toNat
  match regMap.lookup n with
  | some r => r
  | none =>
    if 0x400 ≤ n ∧ n < 0x800 then .freq (BitVec.ofNat 8 ((n - 0x400) / 4))
    else if 0x800 ≤ n ∧ n < 0xC00 then .code (BitVec.ofNat 8 ((n - 0x800) / 4))
    else .reserved

/-- The window word of a CODE entry, `valid << 16 | len << 8 | data` (R41). -/
def codeWord : Option Code → Word
  | none => 0#32
  | some c => BitVec.ofNat 32 (2 ^ 16 + c.len % 16 * 2 ^ 8 + c.data.toNat)

/-- The word a register reads as while the block is idle (R21, R22, R25 to R41). -/
def State.readReg (s : State) : Reg → Word
  | .id => Config.idValue
  | .ctrl => (BitVec.ofBool s.irqEn).setWidth 32
  | .cmd => 0#32
  | .status => s.statusWord
  | .srcAddr => s.srcAddr
  | .srcLen => s.srcLen
  | .dstAddr => s.dstAddr
  | .dstCap => s.dstCap
  | .inBitpos => s.inBitpos
  | .bitEnd => s.bitEnd
  | .outBitpos => s.outBitpos
  | .raOffset => s.raOffset
  | .raLength => s.raLength
  | .raCursor => s.raCursor
  | .result0 => s.result0
  | .result1 => s.result1
  | .nleaves => s.nleaves.setWidth 32
  | .rootWeightLo => s.rootWeight.extractLsb' 0 32
  | .rootWeightHi => (s.rootWeight.extractLsb' 32 8).setWidth 32
  | .maxlen => s.maxlen.setWidth 32
  | .freq b => s.freq.read b
  | .code b => codeWord (s.code.read b)
  | .reserved => 0#32

/-- The write of a register while the block is idle. A write of CMD starts the command (R27); a write
of a read-only register or a reserved offset has no effect (R22). -/
def State.writeReg (s : State) (r : Reg) (v : Word) : State :=
  match r with
  | .ctrl => { s with irqEn := v.getLsbD 0 }
  | .cmd => { s with running := some v }
  | .status => s.acknowledge v
  | .srcAddr => { s with srcAddr := v }
  | .srcLen => { s with srcLen := v }
  | .dstAddr => { s with dstAddr := v }
  | .dstCap => { s with dstCap := v }
  | .inBitpos => { s with inBitpos := v }
  | .bitEnd => { s with bitEnd := v }
  | .outBitpos => { s with outBitpos := v }
  | .raOffset => { s with raOffset := v }
  | .raLength => { s with raLength := v }
  | .freq b => { s with freq := s.freq.write b v }
  | .id => s
  | .raCursor => s
  | .result0 => s
  | .result1 => s
  | .nleaves => s
  | .rootWeightLo => s
  | .rootWeightHi => s
  | .maxlen => s
  | .code _ => s
  | .reserved => s

end Sys2Proof.Machine
end

