-- ==== Sys2Proof/Machine/HostPort.lean ====
section
/-! DEFINITION. The host's interactions with the block (20_memory.md R90): the register port, the
memory port, the wait that finishes a command, and the reset input. -/

namespace Sys2Proof.Machine

/-! ### The command that runs -/

/-- Runs the command word `w` to completion: its decoded command, or the illegal-command action
(10_state.md R27, 45_control.md R202). -/
def State.runCommand (s : State) (w : Word) : Host.Outcome State Fault Refusal :=
  match decodeWord w with
  | .command i => exec i s
  | .illegal _ => .next (s.illegalCommand w)

/-- The engine's completion of the command that runs, if any; an idle block holds its state
(60_exceptions.md R228). -/
def State.engineStep (s : State) : Host.Outcome State Fault Refusal :=
  match s.running with
  | none => .next s
  | some w => s.runCommand w

/-! ### Reset -/

/-- The byte writes that a command makes when it runs from `s`, the newest first. -/
def commandTrail (i : Instr) (s : State) : List Host.Cell :=
  match i with
  | .dictWrite f => if s.codesValid then (dictWriteRun f s).eng.trail else []
  | .encode => if s.codesValid && !s.overlap then (encodeRun s).eng.trail else []
  | .decode => if s.dictLoaded && !s.overlap then (decodeRun s).eng.trail else []
  | .raDecode =>
    if s.dictLoaded && s.raLength != 0#32 && !s.overlap then (raRun s).eng.trail else []
  | .count => []
  | .build => []
  | .assign => []
  | .dictRead _ => []
  | .clear => []

/-- The byte writes of the command that runs. -/
def State.trail (s : State) : List Host.Cell :=
  match s.running with
  | none => []
  | some w =>
    match decodeWord w with
    | .command i => commandTrail i s
    | .illegal _ => []

/-- The byte writes `ws` (the newest first) on memory `m`, each landing or not as the free choice
`n` says (70_reset_and_hazards.md R242). [log 6] -/
def landWrites (n : Nat) (m : Memory) : List Host.Cell → Memory
  | [] => m
  | (a, v) :: ws =>
    if Config.resetLands n ws.length then (landWrites n m ws).store a v else landWrites n m ws

/-- Reset (70_reset_and_hazards.md R240 to R242): every piece of the block's state at its reset value;
M keeps its bytes, but for those a running command was writing. The model's own fields go on. -/
def State.resetInput (s : State) : State :=
  { State.resetOf s.cfg s.powerOn (landWrites s.free s.mem s.trail) with
    free := s.free + 1
    host := s.host
    errorRecord := s.errorRecord }

/-! ### Register and memory ports -/

/-- The host moved one whole aligned word (10_state.md R22). -/
def wholeWord (off : BitVec 12) (width : AccessWidth) : Bool :=
  width == .word && off.toNat % 4 == 0

/-- A register write (R22, R29). While BUSY no register write has an effect, STATUS among them (R50,
D44). [log 7] -/
def State.portWrite (s : State) (r : Reg) (v : Word) : State :=
  if s.busy then s else s.writeReg r v

/-- A register read: it has no effect on the block (20_memory.md R83). While BUSY, a register other
than STATUS reads as a free value (10_state.md R50). [log 5] -/
def State.portRead (s : State) (r : Reg) : State :=
  if s.busy && r != .status then
    { s with reply := .word (Config.busyRead s.free), free := s.free + 1 }
  else { s with reply := .word (s.readReg r) }

/-- One interaction of the host (20_memory.md R90). -/
def State.interact (s : State) (a : HostAction) : Host.Outcome State Fault Refusal :=
  match a with
  | .regWrite off width v =>
    if wholeWord off width then .next (s.portWrite (regAt off) v)
    else .refused .registerAccessShape
  | .regRead off width =>
    if wholeWord off width then .next (s.portRead (regAt off)) else .refused .registerAccessShape
  | .memWrite x v =>
    if s.busy then .fault .hostMemoryRace
    else if x < s.cfg.memBytes then .next { s with mem := s.mem.store x v }
    else .refused .hostAddressOutsideM
  | .memRead x =>
    if s.busy then .fault .hostMemoryRace
    else if x < s.cfg.memBytes then .next { s with reply := .byte (s.byteAt x) }
    else .refused .hostAddressOutsideM
  | .wait => s.engineStep
  | .reset => .next s.resetInput

/-- The state as the host's next interaction finds it: the interaction taken off the list, and nothing
given back yet. [log 1] -/
def State.takeAction (s : State) (rest : List HostAction) : State :=
  { s with host := rest, reply := .nothing }

/-- The host's next interaction; with none left, the engine finishes the command that runs. -/
def State.advance (s : State) : Host.Outcome State Fault Refusal :=
  match s.host with
  | [] => s.engineStep
  | a :: rest => (s.takeAction rest).interact a

end Sys2Proof.Machine
end

