-- ==== Sys2Proof/Machine/Step.lean ====
section
/-! DEFINITION. One step of the machine: an interaction of the host, or a whole command of the engine
(20_memory.md R84). -/

namespace Sys2Proof.Machine

/-- One step. A command runs in one step, at the host's `wait` or when the host's list is empty.
[log 1, log 2] -/
def step (s : State) : Host.Outcome State Fault Refusal := s.advance

/-- `s` with the table row's word `w` as the command that runs and the host waiting for it, so that the
next step runs exactly it. The block fetches nothing (10_state.md R24): this stands for the host's
CMD write. [log 1] -/
def State.withFetchWord (s : State) (nbits w : Nat) : State :=
  { s with running := some (BitVec.ofNat 32 (w % 2 ^ nbits)), host := .wait :: s.host }

end Sys2Proof.Machine
end

