-- ==== Sys2Proof/Safety.lean ====
section
/-! DEFINITION. The terms in which claims speak of a run: the invariant of the reachable states, and
closed forms of what the commands read and write, written apart from the meanings. -/

namespace Sys2Proof.Machine

/-! ### Trees -/

/-- The leaves of a tree from left to right, each with its weight. -/
def CodeTree.leaves : CodeTree → List (Byte × Nat)
  | .leaf b w => [(b, w)]
  | .node l r => l.leaves ++ r.leaves

/-- The number of internal nodes. -/
def CodeTree.internals : CodeTree → Nat
  | .leaf _ _ => 0
  | .node l r => l.internals + r.internals + 1

/-- The depth of the deepest leaf. -/
def CodeTree.depth : CodeTree → Nat
  | .leaf _ _ => 0
  | .node l r => max l.depth r.depth + 1

/-- The subtree that a path from the root leads to, `false` for left and `true` for right
(00_scope.md R11). -/
def CodeTree.follow : CodeTree → List Bool → Option CodeTree
  | t, [] => some t
  | .leaf _ _, _ :: _ => none
  | .node l r, b :: bs => if b then r.follow bs else l.follow bs

/-- The path leads to the leaf of byte value `b`. -/
def CodeTree.leadsTo (t : CodeTree) (path : List Bool) (b : Byte) : Prop :=
  ∃ w, t.follow path = some (.leaf b w)

/-- What 10_state.md R46 says of a built tree: the byte values of its leaves are distinct; and each
leaf's weight is a non-zero FREQ value (40_tree_builder.md R133). -/
def CodeTree.wellFormed (t : CodeTree) : Prop :=
  (t.leaves.map Prod.fst).Nodup ∧ ∀ l ∈ t.leaves, 0 < l.2 ∧ l.2 < 2 ^ 32

/-- The leaves of the tree held. -/
def TreeReg.leaves : TreeReg → List (Byte × Nat)
  | .noTree => []
  | .emptyTree => []
  | .built t => t.leaves

/-- The leaves that BUILD's input gives (40_tree_builder.md R133). -/
def State.present (s : State) : List (Byte × Nat) :=
  (allBytes.filter (fun b => s.freq.read b != 0#32)).map (fun b => (b, (s.freq.read b).toNat))

/-- The sum of FREQ over all byte values. -/
def State.freqTotal (s : State) : Nat := (allBytes.map (fun b => (s.freq.read b).toNat)).sum

/-- The loop of one level pass by indexes, as 40_tree_builder.md R136 writes it: `next` in its own
order, absorb, else pair, else carry. -/
def scanByIndex (level : List CodeTree) : (fuel i : Nat) → (next : List CodeTree) → List CodeTree
  | 0, _, next => next
  | fuel + 1, i, next =>
    match level[i]? with
    | none => next
    | some cur =>
      match next.getLast?.filter (fun n => decide (n.weight ≤ cur.weight)) with
      | some n => scanByIndex level fuel (i + 1) (next.dropLast ++ [.node n cur])
      | none =>
        match level[i + 1]? with
        | some right => scanByIndex level fuel (i + 2) (next ++ [.node cur right])
        | none => scanByIndex level fuel (i + 1) (next ++ [cur])

/-- One level pass by indexes (R136). -/
def passByIndex (level : List CodeTree) : List CodeTree := scanByIndex level level.length 0 []

/-! ### The invariant -/

/-- What holds in every state a run reaches: the parameter is legal, memory is canonical and inside M,
CODE and DMAP hold what 10_state.md R41 to R44 say, the tree and the registers about it agree
(R38, R45, R46). -/
structure Inv (s : State) : Prop where
  cfgLegal : s.cfg.legal
  memCanonical : s.mem.wf
  memInside : ∀ c ∈ s.mem, c.1 < s.cfg.memBytes
  codeMatchable : ∀ b k, s.code.read b = some k → k.matchable = true
  codesOff : s.codesValid = false → s.code = Table.fill none
  dictOff : s.dictLoaded = false → s.dmap = DecodeMap.empty
  treeWellFormed : ∀ t, s.tree = .built t → t.wellFormed
  leafCount : s.nleaves.toNat = s.tree.leaves.length
  rootWeight : s.rootWeight.toNat = s.tree.weight
  maxlenBound : s.maxlen.toNat ≤ 8
  maxlenOfCodes : s.codesValid = true → s.maxlen.toNat = maxCodeLen s.code

/-! ### The end of a command, regions, and what is stored -/

/-- The state after a command's end with error code `e` and the two result words (60_exceptions.md
R215, R217), the rest as in `s`. -/
def State.ended (s : State) (op : BitVec 8) (e : ErrCode) (r0 r1 : Nat) : State :=
  { s with
    running := none
    done := true
    error := e
    lastOp := op
    result0 := BitVec.ofNat 32 r0
    result1 := BitVec.ofNat 32 r1
    errorRecord := if e = .none then s.errorRecord else e :: s.errorRecord }

/-- How many bytes from the start of the source region on lie both in the region and in M. -/
def State.srcReadable (s : State) : Nat :=
  min s.srcLen.toNat (s.cfg.memBytes - s.srcAddr.toNat)

/-- How many bytes from the start of the destination region on lie both in the region and in M. -/
def State.dstWritable (s : State) : Nat :=
  min s.dstCap.toNat (s.cfg.memBytes - s.dstAddr.toNat)

/-- The two regions share at least one address (20_memory.md R75), read as it is written. -/
def State.regionsMeet (s : State) : Prop :=
  ∃ a, (s.srcAddr.toNat ≤ a ∧ a < s.srcAddr.toNat + s.srcLen.toNat) ∧
    (s.dstAddr.toNat ≤ a ∧ a < s.dstAddr.toNat + s.dstCap.toNat)

/-- Byte `i` of the source region. -/
def State.srcAt (s : State) (i : Nat) : Byte := s.byteAt (s.srcAddr.toNat + i)

/-- The bytes of the source region. -/
def State.sourceBytes (s : State) : List Byte := (List.range s.srcLen.toNat).map s.srcAt

/-- Bit position `p` of the source region (20_memory.md R76). -/
def State.srcBitAt (s : State) (p : Nat) : Bool := (s.srcAt (p / 8)).getLsbD (7 - p % 8)

/-- The bits of the source region at positions `p` to `stop - 1`. -/
def State.srcBits (s : State) (p stop : Nat) : List Bool :=
  (List.range (stop - p)).map (fun j => s.srcBitAt (p + j))

/-- Every byte of M in `t` is as in `s`, but for the bytes `bs` from address `a0` on. -/
def State.storesBytes (s t : State) (a0 : Nat) (bs : List Byte) : Prop :=
  ∀ a, t.byteAt a =
    if a0 ≤ a ∧ a < a0 + bs.length then bs.getD (a - a0) 0#8 else s.byteAt a

/-- Every bit of M in `t` is as in `s`, but for the bits `bs` at bit positions `q` on, counted from bit
0 of the byte at address `a0` (20_memory.md R76). -/
def State.storesBits (s t : State) (a0 q : Nat) (bs : List Bool) : Prop :=
  ∀ a j, j < 8 → (t.byteAt a).getLsbD (7 - j) =
    if a0 ≤ a ∧ q ≤ 8 * (a - a0) + j ∧ 8 * (a - a0) + j < q + bs.length then
      bs.getD (8 * (a - a0) + j - q) false
    else (s.byteAt a).getLsbD (7 - j)

/-! ### Headers and payloads -/

/-- The bytes of the header of a code table (42_dictionary_codec.md R161, R162). -/
def headerOf (f : SizeForm) (c : Table (Option Code)) : List Byte :=
  let present := allBytes.filter (fun b => (c.read b).isSome)
  let size : List Byte := match f with
    | .oneByte => if present = [] then [] else [BitVec.ofNat 8 (present.length - 1)]
    | .twoByte => [BitVec.ofNat 8 (present.length / 256), BitVec.ofNat 8 (present.length % 256)]
  size ++ present.flatMap (fun b => match c.read b with
    | some k => [BitVec.ofNat 8 k.len, k.data, b]
    | none => [])

/-- The number of entries of a code table. -/
def codeCount (c : Table (Option Code)) : Nat :=
  (allBytes.filter (fun b => (c.read b).isSome)).length

/-- The payload bits of a list of bytes (30_encoding.md R113): of each byte with a Code, `data[0]` up
to `data[len-1]`. -/
def payload (c : Table (Option Code)) (bs : List Byte) : List Bool :=
  bs.flatMap (fun b => match c.read b with
    | some k => (List.range k.len).map k.data.getLsbD
    | none => [])

/-- Every byte of the list has a Code. -/
def allCoded (c : Table (Option Code)) (bs : List Byte) : Bool :=
  bs.all (fun b => (c.read b).isSome)

/-- The bytes of a header with these entries, as a host may have written it: the entries in any order,
repeated and unmatchable ones among them (30_encoding.md R110, R111). -/
def rawHeader (f : SizeForm) (es : List HeaderEntry) : List Byte :=
  let size : List Byte := match f with
    | .oneByte => if es = [] then [] else [BitVec.ofNat 8 (es.length - 1)]
    | .twoByte => [BitVec.ofNat 8 (es.length / 256), BitVec.ofNat 8 (es.length % 256)]
  size ++ es.flatMap (fun e => [e.len, e.data, e.val])

/-- How many entries a header of this form can have (30_encoding.md R110). -/
def formCapacity : SizeForm → Nat
  | .oneByte => 256
  | .twoByte => 65535

/-! ### Decoding a list of bits -/

/-- The Code whose path is a list of bits: bit `j` of `data` is step `j` (00_scope.md R11). -/
def codeOfPath (bits : List Bool) : Code :=
  { len := bits.length
    data := BitVec.ofNat 8 ((bits.zipIdx.map (fun e => e.1.toNat * 2 ^ e.2)).sum) }

/-- The first symbol of a list of bits and its length: the shortest prefix of 1 to 8 bits that DMAP
holds (43_stream_codec.md R180, R183). -/
def symbolAt (d : DecodeMap) (bits : List Bool) : Option (Nat × Byte) :=
  [1, 2, 3, 4, 5, 6, 7, 8].findSome? (fun n =>
    if n ≤ bits.length then (d.read (codeOfPath (bits.take n))).map (fun v => (n, v)) else none)

/-- The first `n` symbols of a list of bits and how many bits they take, `none` if there are not so
many. -/
def takeSymbols (d : DecodeMap) : (n : Nat) → List Bool → Option (List Byte × Nat)
  | 0, _ => some ([], 0)
  | n + 1, bits =>
    match symbolAt d bits with
    | none => none
    | some (len, v) =>
      match takeSymbols d n (bits.drop len) with
      | none => none
      | some (vs, used) => some (v :: vs, len + used)

/-! ### Outcomes -/

/-- The outcome is a next state. -/
def isNext (o : Host.Outcome State Fault Refusal) : Bool :=
  match o with
  | .next _ => true
  | .fault _ => false
  | .refused _ => false

end Sys2Proof.Machine
end

