-- ==== Sys2Proof/Certificates/Slice0/Obligations.lean ====
section
/-! DEFINITION. The statements for the provers. Each docstring names the rule of spec/ it formalises;
OBLIGATIONS.json lists them. -/

open Sys2Proof Sys2Proof.Machine

/-! ### Encoding and the step -/

/-- 30_encoding.md R100 to R103: a word decodes to a command exactly when it is the word the encoder
gives that command, so no bit of a word is dropped. -/
def Obligations.DecodeAgreesWithEncode : Prop :=
  ∀ (w : Word) (i : Instr), decodeWord w = .command i ↔ w = encode i

/-- R102: the row is selected by OP = `w[7:0]`, `w[31:9] = 0` and F = `w[8]`; and the map's words. -/
def Obligations.CommandWordSelectsItsRow : Prop :=
  (∀ (w : Word) (i : Instr), decodeWord w = .command i ↔
    w.extractLsb' 0 8 = i.opcode ∧ w.extractLsb' 9 23 = 0#23 ∧ w.getLsbD 8 = i.form) ∧
  encode .count = 0x00000001#32 ∧ encode .build = 0x00000002#32 ∧ encode .assign = 0x00000003#32 ∧
  encode (.dictWrite .oneByte) = 0x00000004#32 ∧ encode (.dictWrite .twoByte) = 0x00000104#32 ∧
  encode (.dictRead .oneByte) = 0x00000005#32 ∧ encode (.dictRead .twoByte) = 0x00000105#32 ∧
  encode .encode = 0x00000006#32 ∧ encode .decode = 0x00000007#32 ∧
  encode .raDecode = 0x00000008#32 ∧ encode .clear = 0x00000009#32

/-- R103 and 45_control.md R202: which words are illegal, and that running one writes STATUS only. -/
def Obligations.IllegalWordWritesStatusOnly : Prop :=
  ∀ w : Word,
    ((∃ why, decodeWord w = .illegal why) ↔
      (w.extractLsb' 0 8 = 0#8 ∨ 0x0A ≤ (w.extractLsb' 0 8).toNat ∨ w.extractLsb' 9 23 ≠ 0#23 ∨
        (w.getLsbD 8 = true ∧ w.extractLsb' 0 8 ≠ 0x04#8 ∧ w.extractLsb' 0 8 ≠ 0x05#8))) ∧
    ∀ (s : State) (why : IllegalWord), decodeWord w = .illegal why →
      s.runCommand w = .next
        { s with
          running := none, done := true, error := .illegalCommand, lastOp := w.extractLsb' 0 8
          errorRecord := .illegalCommand :: s.errorRecord } ∧
      ErrCode.illegalCommand.value = 0x01#8

/-- Words written out from R102 decode to their commands, and the illegal words of T-ILL-1 to T-ILL-4
to none (95_test_vectors.md). -/
def Obligations.TableWordsDecode : Prop :=
  decodeTableWord 32 0x00000001 = some .count ∧
  decodeTableWord 32 0x00000003 = some .assign ∧
  decodeTableWord 32 0x00000004 = some (.dictWrite .oneByte) ∧
  decodeTableWord 32 0x00000105 = some (.dictRead .twoByte) ∧
  decodeTableWord 32 0x00000006 = some .encode ∧
  decodeTableWord 32 0x00000008 = some .raDecode ∧
  decodeTableWord 32 0x00000009 = some .clear ∧
  decodeTableWord 32 0x00000000 = none ∧
  decodeTableWord 32 0x00000101 = none ∧
  decodeTableWord 32 0x00000201 = none ∧
  decodeTableWord 32 0x0000000A = none

/-- A step runs the decoded command: with a command word running, the host waiting or with nothing more
to do, a step is `exec` of the command the word decodes to. (The list of the host's interactions and
the reply are the model's own: log 1, log 2.) -/
def Obligations.StepRunsTheDecodedCommand : Prop :=
  (∀ (s : State) (w : Word) (i : Instr), s.running = some w → decodeWord w = .command i →
    (s.host = [] → step s = exec i s) ∧
    (∀ rest, s.host = .wait :: rest →
      step s = exec i { s with host := rest, reply := .nothing })) ∧
  (∀ (s : State) (nbits w : Nat) (i : Instr), decodeTableWord nbits w = some i →
    step (s.withFetchWord nbits w) =
      exec i { s with running := some (BitVec.ofNat 32 (w % 2 ^ nbits)), reply := .nothing })

/-- 10_state.md R27: a CMD write of an idle block starts the command, and the host's wait after it runs
the whole command (20_memory.md R84). (The list of the host's interactions, log 1, and the two steps of
a command, log 2, are the model's; and so is it, by log 10, that the CMD write itself leaves DONE,
ERRCODE and LAST_OP as they were.) -/
def Obligations.CmdWriteStartsTheCommand : Prop :=
  ∀ (s : State) (w : Word) (rest : List HostAction), s.running = none →
    s.host = .regWrite 0x008#12 .word w :: .wait :: rest →
    step s = .next { s with running := some w, host := .wait :: rest, reply := .nothing } ∧
    step { s with running := some w, host := .wait :: rest, reply := .nothing } =
      { s with running := some w, host := rest, reply := .nothing }.runCommand w

/-- 60_exceptions.md R228: an idle block holds its state; nothing but the host's interactions moves
it. -/
def Obligations.IdleBlockHoldsItsState : Prop :=
  ∀ s : State, s.running = none →
    (s.host = [] → step s = .next s) ∧
    (∀ rest, s.host = .wait :: rest → step s = .next { s with host := rest, reply := .nothing })

/-! ### Reset and the invariant -/

/-- 70_reset_and_hazards.md R241, the table of reset values. -/
def Obligations.ResetLeavesTheTabledValues : Prop :=
  ∀ (cfg : Config) (seed : Nat) (m : Memory),
    let s := State.resetOf cfg seed m
    s.readReg .id = 0x48554631#32 ∧ s.readReg .ctrl = 0#32 ∧ s.readReg .cmd = 0#32 ∧
    s.readReg .status = 0#32 ∧ s.readReg .srcAddr = 0#32 ∧ s.readReg .srcLen = 0#32 ∧
    s.readReg .dstAddr = 0#32 ∧ s.readReg .dstCap = 0#32 ∧ s.readReg .inBitpos = 0#32 ∧
    s.readReg .bitEnd = 0xFFFFFFFF#32 ∧ s.readReg .outBitpos = 0#32 ∧
    s.readReg .raOffset = 0#32 ∧ s.readReg .raLength = 0#32 ∧ s.readReg .raCursor = 0#32 ∧
    s.readReg .result0 = 0#32 ∧ s.readReg .result1 = 0#32 ∧ s.readReg .nleaves = 0#32 ∧
    s.readReg .rootWeightLo = 0#32 ∧ s.readReg .rootWeightHi = 0#32 ∧ s.readReg .maxlen = 0#32 ∧
    (∀ b, s.readReg (.freq b) = 0#32 ∧ s.readReg (.code b) = 0#32 ∧ s.code.read b = none) ∧
    s.codesValid = false ∧ s.dictLoaded = false ∧ (∀ k, s.dmap.read k = none) ∧
    s.tree = .noTree ∧ s.irq = false ∧ s.running = none ∧
    (∀ a, s.byteAt a = m.byte seed a)

/-- R240 and R242: reset at any time puts every piece of state at its reset value, without completing
a running command; each byte of M keeps its value or takes one that the command was writing to it, and
those writes lie in the destination region. -/
def Obligations.ResetEndsARunningCommand : Prop :=
  ∀ (s : State) (rest : List HostAction), s.host = .reset :: rest →
    ∃ (m : Memory) (n : Nat),
      step s = .next { State.resetOf s.cfg s.powerOn m with
        free := n, host := rest, errorRecord := s.errorRecord } ∧
      (∀ a, m.byte s.powerOn a = s.byteAt a ∨
        (a, m.byte s.powerOn a) ∈ (s.takeAction rest).trail) ∧
      (∀ c ∈ (s.takeAction rest).trail,
        s.dstAddr.toNat ≤ c.1 ∧ c.1 < s.dstAddr.toNat + s.dstCap.toNat) ∧
      (s.running = none → m = s.mem)

/-- The writes by which `ResetEndsARunningCommand` speaks are those of the command: after a command,
each byte holds the last of them to its address, else its old value. -/
def Obligations.TrailIsWhatTheCommandWrites : Prop :=
  ∀ (i : Instr) (s t : State), exec i s = .next t → ∀ a,
    t.byteAt a =
      (((commandTrail i s).find? (fun c => c.1 == a)).map Prod.snd).getD (s.byteAt a)

/-- The invariant holds right after power-on and reset, for every legal MEM_BYTES. -/
def Obligations.ResetMeetsTheInvariant : Prop :=
  (∀ (cfg : Config) (seed : Nat), cfg.legal → Inv (State.resetOf cfg seed [])) ∧ Inv State.reset

/-- Every step keeps the invariant: canonical memory inside M, matchable codes, empty tables when the
flags are 0, a tree of distinct leaves and the registers that describe it (10_state.md R38 to R46). -/
def Obligations.StepKeepsTheInvariant : Prop :=
  ∀ s t : State, Inv s → step s = .next t → Inv t

/-! ### Every command -/

/-- 60_exceptions.md R215: every command word, legal or not, on every state, ends in a next state with
BUSY 0, DONE 1, ERRCODE, ERR and LAST_OP written and the flags shown; nothing masks or saves. -/
def Obligations.EveryCommandEnds : Prop :=
  ∀ (s : State) (w : Word), ∃ t, s.runCommand w = .next t ∧
    t.running = none ∧ t.statusWord.getLsbD 0 = false ∧ t.statusWord.getLsbD 1 = true ∧
    t.statusWord.getLsbD 2 = (t.error.value != 0#8) ∧
    t.statusWord.getLsbD 3 = t.dictLoaded ∧ t.statusWord.getLsbD 4 = t.codesValid ∧
    t.statusWord.extractLsb' 5 2 = t.tree.state ∧
    t.statusWord.extractLsb' 8 8 = t.error.value ∧
    t.statusWord.extractLsb' 16 8 = w.extractLsb' 0 8 ∧
    t.irqEn = s.irqEn

/-- 10_state.md R26, R30, R31, R33, R35: no command writes the registers that only the host writes; nor
the model's own fields but the record of errors. -/
def Obligations.CommandsKeepTheHostsRegisters : Prop :=
  ∀ (i : Instr) (s t : State), exec i s = .next t →
    t.irqEn = s.irqEn ∧ t.srcAddr = s.srcAddr ∧ t.srcLen = s.srcLen ∧ t.dstAddr = s.dstAddr ∧
    t.dstCap = s.dstCap ∧ t.bitEnd = s.bitEnd ∧ t.raOffset = s.raOffset ∧
    t.raLength = s.raLength ∧ t.cfg = s.cfg ∧ t.powerOn = s.powerOn ∧ t.free = s.free ∧
    t.host = s.host ∧ t.reply = s.reply

/-- R32, R34, R36: which commands write the cursors, and that an error leaves IN_BITPOS and OUT_BITPOS
as they were. -/
def Obligations.CursorsHaveTheirWriters : Prop :=
  ∀ (i : Instr) (s t : State), exec i s = .next t →
    (t.inBitpos ≠ s.inBitpos → t.error = .none ∧ (i = .decode ∨ ∃ f, i = .dictRead f)) ∧
    (t.outBitpos ≠ s.outBitpos → t.error = .none ∧ (i = .encode ∨ ∃ f, i = .dictWrite f)) ∧
    (t.raCursor ≠ s.raCursor → i = .raDecode)

/-- 45_control.md R201 with 10_state.md R39 and R40: which commands change CODE, DMAP, the tree and FREQ;
all others leave them whole. -/
def Obligations.TablesHaveTheirWriters : Prop :=
  ∀ (i : Instr) (s t : State), exec i s = .next t →
    ((t.code ≠ s.code ∨ t.codesValid ≠ s.codesValid) →
      i = .assign ∨ i = .build ∨ i = .clear ∨ ∃ f, i = .dictRead f) ∧
    ((t.dmap ≠ s.dmap ∨ t.dictLoaded ≠ s.dictLoaded) → i = .clear ∨ ∃ f, i = .dictRead f) ∧
    ((t.tree ≠ s.tree ∨ t.nleaves ≠ s.nleaves ∨ t.rootWeight ≠ s.rootWeight) →
      i = .build ∨ i = .clear) ∧
    (t.freq ≠ s.freq → i = .count ∨ i = .clear) ∧
    (t.maxlen ≠ s.maxlen → i = .assign ∨ i = .clear ∨ ∃ f, i = .dictRead f)

/-- 20_memory.md R74, R75, R79: a command changes no byte of M but bytes of its destination region that
lie in M, and only DICT_WRITE, ENCODE, DECODE and RA_DECODE change any. -/
def Obligations.StoresStayInTheDestination : Prop :=
  ∀ (i : Instr) (s t : State) (a : Nat), exec i s = .next t → t.byteAt a ≠ s.byteAt a →
    ((∃ f, i = .dictWrite f) ∨ i = .encode ∨ i = .decode ∨ i = .raDecode) ∧
    s.dstAddr.toNat ≤ a ∧ a < s.dstAddr.toNat + s.dstCap.toNat ∧ a < s.cfg.memBytes

/-- 60_exceptions.md R216: what a command that ends with an error keeps. -/
def Obligations.ErrorsKeepTheTables : Prop :=
  ∀ (i : Instr) (s t : State), exec i s = .next t → t.error ≠ .none →
    t.freq = s.freq ∧ t.tree = s.tree ∧ t.nleaves = s.nleaves ∧ t.rootWeight = s.rootWeight ∧
    t.dmap = s.dmap ∧ t.dictLoaded = s.dictLoaded ∧ t.inBitpos = s.inBitpos ∧
    t.outBitpos = s.outBitpos ∧
    (t.error ≠ .codeTooLong →
      t.code = s.code ∧ t.codesValid = s.codesValid ∧ t.maxlen = s.maxlen) ∧
    (t.error = .codeTooLong → i = .assign ∧ t.code = Vector.replicate 256 none ∧
      t.codesValid = false ∧ t.maxlen = 0#4 ∧ t.mem = s.mem)

/-- 60_exceptions.md R213 (points 2 to 4) with R211: the precondition errors, in their order, with 0 in
both results and nothing else changed (R216); and RA_LENGTH = 0 ends RA_DECODE before the overlap
check (44_random_access.md R191). -/
def Obligations.PreconditionErrorsComeInOrder : Prop :=
  ∀ (s : State) (f : SizeForm),
    (s.tree = .noTree → exec .assign s = .next (s.ended 0x03#8 .noTree 0 0)) ∧
    (s.codesValid = false →
      exec (.dictWrite f) s = .next (s.ended 0x04#8 .noCodes 0 0) ∧
      exec .encode s = .next (s.ended 0x06#8 .noCodes 0 0)) ∧
    (s.dictLoaded = false →
      exec .decode s = .next (s.ended 0x07#8 .notLoaded 0 0) ∧
      exec .raDecode s = .next (s.ended 0x08#8 .notLoaded 0 0)) ∧
    (s.dictLoaded = true → s.raLength = 0#32 →
      exec .raDecode s = .next (s.ended 0x08#8 .none 0 0)) ∧
    (s.regionsMeet →
      (s.codesValid = true → exec .encode s = .next (s.ended 0x06#8 .regionOverlap 0 0)) ∧
      (s.dictLoaded = true → exec .decode s = .next (s.ended 0x07#8 .regionOverlap 0 0)) ∧
      (s.dictLoaded = true → s.raLength ≠ 0#32 →
        exec .raDecode s = .next (s.ended 0x08#8 .regionOverlap 0 0)))

/-! ### COUNT and BUILD -/

/-- 40_tree_builder.md R131: COUNT puts in FREQ how often each byte value stands in the source region,
or stops at the first byte outside M and keeps FREQ. -/
def Obligations.CountCountsTheSourceBytes : Prop :=
  ∀ s : State,
    (s.srcReadable = s.srcLen.toNat →
      exec .count s = .next
        (({ s with freq := Vector.ofFn (fun b : Fin 256 =>
            BitVec.ofNat 32 (s.sourceBytes.count (BitVec.ofNat 8 b.val))) } : State).ended
          0x01#8 .none s.sourceBytes.dedup.length s.srcLen.toNat)) ∧
    (s.srcReadable ≠ s.srcLen.toNat →
      exec .count s = .next (s.ended 0x01#8 .ioBounds 0 s.srcReadable))

/-- R134 with R135, R139 and R142: BUILD sorts the leaves by (weight, byte value), makes the level passes
of R136 until one node is left, and writes the tree, the leaf count, the root weight and the
results; it invalidates CODE and changes nothing else. -/
def Obligations.BuildMakesTheLevelPasses : Prop :=
  ∀ s : State, ∃ (leaves : List (Byte × Nat)) (tree : TreeReg) (levels : Nat),
    leaves.Perm s.present ∧
    leaves.Pairwise (fun x y => x.2 < y.2 ∨ (x.2 = y.2 ∧ x.1 < y.1)) ∧
    exec .build s = .next
      (({ s with
          code := Vector.replicate 256 none
          codesValid := false
          tree := tree
          nleaves := BitVec.ofNat 9 leaves.length
          rootWeight := BitVec.ofNat 40 tree.weight } : State).ended
        0x02#8 .none leaves.length levels) ∧
    leaves.length ≤ 256 ∧ tree.weight < 2 ^ 40 ∧
    (leaves = [] → tree = .emptyTree ∧ levels = 0) ∧
    (∀ l, leaves = [l] → tree = .built (.leaf l.1 l.2) ∧ levels = 0) ∧
    (2 ≤ leaves.length → ∃ t, tree = .built t ∧
      passByIndex^[levels] (leaves.map (fun l => CodeTree.leaf l.1 l.2)) = [t] ∧
      ∀ j < levels, 1 < (passByIndex^[j] (leaves.map (fun l => CodeTree.leaf l.1 l.2))).length)

/-- R136 to R138: the model's level pass is the pseudocode's loop over indexes (absorb, pair, carry). -/
def Obligations.LevelPassIsThePseudocode : Prop :=
  ∀ level : List CodeTree, levelPass level = passByIndex level

/-- R140: a pass over two nodes or more gives fewer; BUILD makes at most `n - 1` passes and exactly
`n - 1` merges, so a tree has at most 511 nodes. -/
def Obligations.BuildTerminates : Prop :=
  (∀ level : List CodeTree, 2 ≤ level.length → (levelPass level).length ≤ level.length - 1) ∧
  (∀ (s t : State) (tr : CodeTree), exec .build s = .next t → t.tree = .built tr →
    t.result1.toNat ≤ tr.leaves.length - 1 ∧ tr.internals = tr.leaves.length - 1 ∧
    tr.leaves.length + tr.internals ≤ 511)

/-- R143: the leaves of the built tree are the byte values with a non-zero FREQ entry, each once; the
root weight is the sum of FREQ; and after COUNT it is SRC_LEN. -/
def Obligations.RootWeightIsTheSumOfFreq : Prop :=
  (∀ s t : State, exec .build s = .next t →
    t.tree.leaves.Perm s.present ∧ (t.tree.leaves.map Prod.fst).Nodup ∧
    t.rootWeight.toNat = s.freqTotal) ∧
  (∀ s u t : State, exec .count s = .next u → u.error = .none → exec .build u = .next t →
    t.rootWeight.toNat = s.srcLen.toNat)

/-! ### ASSIGN -/

/-- 41_code_assigner.md R151 to R153: every leaf gets the Code of its path from the root, a single leaf
the Code (1, 0), the empty tree no Code; without a tree NO_TREE ends ASSIGN; a leaf deeper than 8 ends
it with CODE_TOO_LONG, the lowest such byte value and no Code left. -/
def Obligations.AssignGivesEachLeafItsPath : Prop :=
  ∀ s : State,
    (s.tree = .noTree → exec .assign s = .next (s.ended 0x03#8 .noTree 0 0)) ∧
    (s.tree = .emptyTree → exec .assign s = .next
      (({ s with code := Vector.replicate 256 none, codesValid := true, maxlen := 0#4 } :
        State).ended 0x03#8 .none 0 0)) ∧
    (∀ b w, s.tree = .built (.leaf b w) → exec .assign s = .next
      (({ s with
          code := (Vector.replicate 256 none).set b.toNat (some { len := 1, data := 0#8 }) b.isLt
          codesValid := true, maxlen := 1#4 } : State).ended 0x03#8 .none 1 1)) ∧
    (∀ l r, s.tree = .built (.node l r) →
      ((CodeTree.node l r).leaves.map Prod.fst).Nodup →
      ((CodeTree.node l r).depth ≤ 8 → ∃ code : Table (Option Code),
        exec .assign s = .next
          (({ s with code := code, codesValid := true
                     maxlen := BitVec.ofNat 4 (CodeTree.node l r).depth } : State).ended
            0x03#8 .none (CodeTree.node l r).leaves.length (CodeTree.node l r).depth) ∧
        (∀ b, (code.read b).isSome ↔ b ∈ (CodeTree.node l r).leaves.map Prod.fst) ∧
        (∀ b k, code.read b = some k →
          k.data.toNat < 2 ^ k.len ∧ (CodeTree.node l r).leadsTo k.bits b)) ∧
      (8 < (CodeTree.node l r).depth → ∃ b : Byte,
        exec .assign s = .next
          (({ s with code := Vector.replicate 256 none, codesValid := false, maxlen := 0#4 } :
            State).ended 0x03#8 .codeTooLong b.toNat 9) ∧
        (∃ path : List Bool, 8 < path.length ∧ (CodeTree.node l r).leadsTo path b) ∧
        (∀ (c : Byte) (path : List Bool), 8 < path.length → (CodeTree.node l r).leadsTo path c →
          b.toNat ≤ c.toNat)))

/-- R155: the Codes of a successful ASSIGN on a TREE have legal lengths and data, no Code is a prefix of
another byte's, the lengths fill the code space, and the payload length is the sum of FREQ times
length. -/
def Obligations.AssignedCodesArePrefixFree : Prop :=
  ∀ (s t : State) (l r : CodeTree), Inv s → s.tree = .built (.node l r) → exec .assign s = .next t →
    t.error = .none →
    (∀ b ∈ (CodeTree.node l r).leaves.map Prod.fst, ∃ k, t.code.read b = some k ∧
      1 ≤ k.len ∧ k.len ≤ 8 ∧ k.data.toNat < 2 ^ k.len) ∧
    (∀ b c kb kc, t.code.read b = some kb → t.code.read c = some kc → b ≠ c →
      ¬ kb.bits <+: kc.bits) ∧
    ((allBytes.map (fun b => match t.code.read b with
      | some k => 2 ^ (8 - k.len)
      | none => 0)).sum = 2 ^ 8) ∧
    (∀ bs : List Byte, (∀ b, (s.freq.read b).toNat = bs.count b) →
      (payload t.code bs).length = (allBytes.map (fun b => match t.code.read b with
        | some k => (s.freq.read b).toNat * k.len
        | none => 0)).sum)

/-! ### DICT_WRITE and DICT_READ -/

/-- 42_dictionary_codec.md R161 to R163: DICT_WRITE writes the header of CODE in ascending byte value at
byte 0 of the destination region and leaves OUT_BITPOS after it; where a byte does not fit, the bytes
before it stay written and OUT_BITPOS is unchanged; without codes it ends with NO_CODES. -/
def Obligations.DictWriteWritesTheHeader : Prop :=
  ∀ (f : SizeForm) (s : State),
    (s.codesValid = false → exec (.dictWrite f) s = .next (s.ended 0x04#8 .noCodes 0 0)) ∧
    (s.codesValid = true →
    let header := headerOf f s.code
    (header.length ≤ s.dstWritable → ∃ t, exec (.dictWrite f) s = .next t ∧
      t = ({ s with mem := t.mem, outBitpos := BitVec.ofNat 32 (8 * header.length) } : State).ended
        0x04#8 .none header.length (codeCount s.code) ∧
      s.storesBytes t s.dstAddr.toNat header) ∧
    (s.dstWritable < header.length → ∃ t, exec (.dictWrite f) s = .next t ∧
      t = ({ s with mem := t.mem } : State).ended
        0x04#8 .ioBounds s.dstWritable (codeCount s.code) ∧
      s.storesBytes t s.dstAddr.toNat (header.take s.dstWritable)))

/-- R165 to R168: a header in the source region, its entries in any order, loads DMAP and CODE: only
matchable entries enter, the later of repeated ones wins; MAXLEN, IN_BITPOS and the flags follow, and
nothing else changes. -/
def Obligations.DictReadLoadsTheHeader : Prop :=
  ∀ (f : SizeForm) (s : State) (es : List HeaderEntry),
    es.length ≤ formCapacity f → (f = .oneByte → es = [] → s.srcLen = 0#32) →
    (rawHeader f es).length ≤ s.srcReadable →
    s.sourceBytes.take (rawHeader f es).length = rawHeader f es →
    ∃ t, exec (.dictRead f) s = .next t ∧
      t = ({ s with
          dmap := t.dmap, code := t.code, codesValid := true, dictLoaded := true
          maxlen := t.maxlen
          inBitpos := BitVec.ofNat 32 (8 * (rawHeader f es).length) } : State).ended
        0x05#8 .none es.length (rawHeader f es).length ∧
      (∀ k : Code, t.dmap.read k =
        (es.reverse.find? (fun e => decide (e.len.toNat = k.len ∧ e.data = k.data ∧
          1 ≤ k.len ∧ k.len ≤ 8 ∧ k.data.toNat < 2 ^ k.len))).map (fun e => e.val)) ∧
      (∀ b : Byte, t.code.read b =
        (es.reverse.find? (fun e => decide (e.val = b ∧ 1 ≤ e.len.toNat ∧ e.len.toNat ≤ 8 ∧
          e.data.toNat < 2 ^ e.len.toNat))).map
            (fun e => { len := e.len.toNat, data := e.data })) ∧
      (∀ b k, t.code.read b = some k → k.len ≤ t.maxlen.toNat) ∧
      (t.maxlen = 0#4 ∨ ∃ b k, t.code.read b = some k ∧ k.len = t.maxlen.toNat)

/-- R165: where a header byte cannot be read, DICT_READ ends with MALFORMED_HEADER at the end of the
region and with IO_BOUNDS at the end of M, with the count (0 if the size field was not read) and the
index of that byte, and changes nothing else. -/
def Obligations.DictReadStopsWhereTheHeaderEnds : Prop :=
  ∀ s : State,
    let n := s.srcReadable
    let why : ErrCode := if n = s.srcLen.toNat then .malformedHeader else .ioBounds
    (s.srcLen ≠ 0#32 → n = 0 →
      exec (.dictRead .oneByte) s = .next (s.ended 0x05#8 .ioBounds 0 0)) ∧
    (0 < n → n < 1 + 3 * ((s.srcAt 0).toNat + 1) →
      exec (.dictRead .oneByte) s = .next (s.ended 0x05#8 why ((s.srcAt 0).toNat + 1) n)) ∧
    (n < 2 → exec (.dictRead .twoByte) s = .next (s.ended 0x05#8 why 0 n)) ∧
    (2 ≤ n → n < 2 + 3 * (256 * (s.srcAt 0).toNat + (s.srcAt 1).toNat) →
      exec (.dictRead .twoByte) s = .next
        (s.ended 0x05#8 why (256 * (s.srcAt 0).toNat + (s.srcAt 1).toNat) n))

/-- R169: a DICT_READ that fails changes only STATUS, RESULT0 and RESULT1. -/
def Obligations.DictReadFailsAtomically : Prop :=
  ∀ (f : SizeForm) (s t : State), exec (.dictRead f) s = .next t → t.error ≠ .none →
    (t.error = .malformedHeader ∨ t.error = .ioBounds) ∧
    t = s.ended 0x05#8 t.error t.result0.toNat t.result1.toNat

/-- R170: the empty blob, and the sources too short for a header. -/
def Obligations.DictReadOfAnEmptyBlob : Prop :=
  ∀ s : State,
    (s.srcLen = 0#32 → ∃ t, exec (.dictRead .oneByte) s = .next t ∧
      t = ({ s with
          dmap := t.dmap, code := Vector.replicate 256 none, codesValid := true
          dictLoaded := true, maxlen := 0#4, inBitpos := 0#32 } : State).ended
        0x05#8 .none 0 0 ∧ (∀ k, t.dmap.read k = none)) ∧
    (s.srcLen.toNat ≤ 1 → s.srcReadable = s.srcLen.toNat →
      exec (.dictRead .twoByte) s = .next (s.ended 0x05#8 .malformedHeader 0 s.srcLen.toNat)) ∧
    (s.srcLen = 1#32 → s.srcReadable = 1 →
      exec (.dictRead .oneByte) s = .next
        (s.ended 0x05#8 .malformedHeader ((s.srcAt 0).toNat + 1) 1))

/-- R171: two successful reads of the same source bytes with the same form give the same DMAP, CODE and
MAXLEN, whatever the states were. -/
def Obligations.DictReadIsIdempotent : Prop :=
  ∀ (f : SizeForm) (s s' t t' : State),
    s'.srcLen = s.srcLen → s'.srcReadable = s.srcReadable → s'.sourceBytes = s.sourceBytes →
    exec (.dictRead f) s = .next t → exec (.dictRead f) s' = .next t' →
    t'.error = t.error ∧
      (t.error = .none → t'.dmap = t.dmap ∧ t'.code = t.code ∧ t'.maxlen = t.maxlen)

/-- R172: what DICT_WRITE wrote from the Codes of an ASSIGN, DICT_READ with the same form reads back:
the same count, the same CODE and the inverse DMAP. -/
def Obligations.HeaderWrittenIsHeaderRead : Prop :=
  ∀ (f : SizeForm) (s c d : State) (a n : Word), Inv s →
    exec .assign s = .next c → c.error = .none →
    exec (.dictWrite f) { c with dstAddr := a, dstCap := n } = .next d → d.error = .none →
    ∃ t, exec (.dictRead f) { d with srcAddr := a, srcLen := d.result0 } = .next t ∧
      t.error = .none ∧ t.result0 = d.result1 ∧ t.result1 = d.result0 ∧ t.code = c.code ∧
      ∀ k b, t.dmap.read k = some b ↔ c.code.read b = some k

/-! ### ENCODE -/

/-- 43_stream_codec.md R175 to R177, R179: ENCODE writes the payload bits of the source bytes from
OUT_BITPOS on, then 0 bits up to a byte boundary, and leaves OUT_BITPOS there; every other bit of M
and every other register is unchanged. The cursor fits its register (20_memory.md R72). -/
def Obligations.EncodeWritesThePayload : Prop :=
  ∀ s : State, s.cfg.legal → s.codesValid = true → ¬ s.regionsMeet →
    s.srcReadable = s.srcLen.toNat → allCoded s.code s.sourceBytes = true →
    let bits := payload s.code s.sourceBytes
    let q := s.outBitpos.toNat
    let stop := 8 * ((q + bits.length + 7) / 8)
    (stop = q ∨ stop ≤ 8 * s.dstWritable) →
    stop < 2 ^ 32 ∧ ∃ t, exec .encode s = .next t ∧
      t = ({ s with mem := t.mem, outBitpos := BitVec.ofNat 32 stop } : State).ended
        0x06#8 .none bits.length (stop / 8) ∧
      s.storesBits t s.dstAddr.toNat q
        (bits ++ List.replicate (stop - (q + bits.length)) false)

/-- R177, R178: at a source byte with no Code, ENCODE ends with SYMBOL_UNCODED, the payload bits written
so far and the byte's index; no padding is written and OUT_BITPOS is unchanged. -/
def Obligations.EncodeStopsAtAnUncodedByte : Prop :=
  ∀ (s : State) (i : Nat), s.codesValid = true → ¬ s.regionsMeet → i < s.srcReadable →
    allCoded s.code (s.sourceBytes.take i) = true → s.code.read (s.srcAt i) = none →
    let bits := payload s.code (s.sourceBytes.take i)
    (bits = [] ∨ s.outBitpos.toNat + bits.length ≤ 8 * s.dstWritable) →
    ∃ t, exec .encode s = .next t ∧
      t = ({ s with mem := t.mem } : State).ended 0x06#8 .symbolUncoded bits.length i ∧
      s.storesBits t s.dstAddr.toNat s.outBitpos.toNat bits

/-- R177: where a destination bit does not fit (in the code of source byte `i`, or in the padding of an
empty payload), or a source byte lies outside M, ENCODE ends with IO_BOUNDS; the bits written before
stay and OUT_BITPOS is unchanged. -/
def Obligations.EncodeStopsAtTheBounds : Prop :=
  ∀ s : State, s.codesValid = true → ¬ s.regionsMeet →
    let q := s.outBitpos.toNat
    let room := 8 * s.dstWritable - q
    (∀ i, i < s.srcReadable → allCoded s.code (s.sourceBytes.take (i + 1)) = true →
      (payload s.code (s.sourceBytes.take i)).length ≤ room →
      room < (payload s.code (s.sourceBytes.take (i + 1))).length →
      ∃ t, exec .encode s = .next t ∧
        t = ({ s with mem := t.mem } : State).ended 0x06#8 .ioBounds room i ∧
        s.storesBits t s.dstAddr.toNat q
          ((payload s.code (s.sourceBytes.take (i + 1))).take room)) ∧
    (s.srcReadable < s.srcLen.toNat →
      allCoded s.code (s.sourceBytes.take s.srcReadable) = true →
      (payload s.code (s.sourceBytes.take s.srcReadable)).length ≤ room →
      ∃ t, exec .encode s = .next t ∧
        t = ({ s with mem := t.mem } : State).ended 0x06#8 .ioBounds
          (payload s.code (s.sourceBytes.take s.srcReadable)).length s.srcReadable ∧
        s.storesBits t s.dstAddr.toNat q
          (payload s.code (s.sourceBytes.take s.srcReadable))) ∧
    (s.srcReadable = s.srcLen.toNat → allCoded s.code s.sourceBytes = true →
      payload s.code s.sourceBytes = [] → q % 8 ≠ 0 → 8 * s.dstWritable ≤ q →
      exec .encode s = .next (s.ended 0x06#8 .ioBounds 0 s.srcLen.toNat))

/-! ### DECODE and RA_DECODE -/

/-- R180 to R184: DECODE splits the bits from IN_BITPOS to `min(BIT_END, 8 * SRC_LEN)` into symbols,
shortest match first, writes their bytes from byte 0 of the destination region on, discards up to 7
trailing bits that match nothing and reports how many; IN_BITPOS moves to the end. -/
def Obligations.DecodeOutputsTheSymbols : Prop :=
  ∀ (s : State) (n used : Nat) (out : List Byte), s.dictLoaded = true → ¬ s.regionsMeet →
    let p := s.inBitpos.toNat
    let limit := min s.bitEnd.toNat (8 * s.srcLen.toNat)
    let bits := s.srcBits p limit
    (limit ≤ p ∨ limit ≤ 8 * s.srcReadable) →
    takeSymbols s.dmap n bits = some (out, used) →
    symbolAt s.dmap (bits.drop used) = none → (bits.drop used).length < 8 →
    n ≤ s.dstWritable →
    ∃ t, exec .decode s = .next t ∧
      t = ({ s with mem := t.mem, inBitpos := BitVec.ofNat 32 (max p limit) } : State).ended
        0x07#8 .none n (bits.length - used) ∧
      s.storesBytes t s.dstAddr.toNat out

/-- R185: where 8 bits match nothing, DECODE ends with DECODE_OVERLONG after them; the bytes before
stay written and IN_BITPOS is unchanged. -/
def Obligations.DecodeStopsOverlong : Prop :=
  ∀ (s : State) (n used : Nat) (out : List Byte), s.dictLoaded = true → ¬ s.regionsMeet →
    let p := s.inBitpos.toNat
    let bits := s.srcBits p (min s.bitEnd.toNat (8 * s.srcLen.toNat))
    takeSymbols s.dmap n bits = some (out, used) →
    symbolAt s.dmap (bits.drop used) = none → 8 ≤ (bits.drop used).length →
    p + used + 8 ≤ 8 * s.srcReadable → n ≤ s.dstWritable →
    ∃ t, exec .decode s = .next t ∧
      t = ({ s with mem := t.mem } : State).ended 0x07#8 .decodeOverlong n (p + used + 8) ∧
      s.storesBytes t s.dstAddr.toNat out

/-- R182: DECODE's IO_BOUNDS, at an output byte that does not fit and at a source bit outside M. -/
def Obligations.DecodeStopsAtTheBounds : Prop :=
  ∀ (s : State) (n used : Nat) (out : List Byte), s.dictLoaded = true → ¬ s.regionsMeet →
    let p := s.inBitpos.toNat
    let limit := min s.bitEnd.toNat (8 * s.srcLen.toNat)
    (takeSymbols s.dmap (n + 1) (s.srcBits p limit) = some (out, used) →
      p + used ≤ 8 * s.srcReadable → n = s.dstWritable →
      ∃ t, exec .decode s = .next t ∧
        t = ({ s with mem := t.mem } : State).ended 0x07#8 .ioBounds n (p + used) ∧
        s.storesBytes t s.dstAddr.toNat (out.take n)) ∧
    (p < limit → 8 * s.srcReadable < limit →
      takeSymbols s.dmap n (s.srcBits p (8 * s.srcReadable)) = some (out, used) →
      symbolAt s.dmap ((s.srcBits p (8 * s.srcReadable)).drop used) = none →
      ((s.srcBits p (8 * s.srcReadable)).drop used).length < 8 → n ≤ s.dstWritable →
      ∃ t, exec .decode s = .next t ∧
        t = ({ s with mem := t.mem } : State).ended 0x07#8 .ioBounds n
          (max p (8 * s.srcReadable)) ∧
        s.storesBytes t s.dstAddr.toNat out)

/-- 44_random_access.md R191 to R193: RA_DECODE decodes `RA_LENGTH / 8` symbols from bit RA_OFFSET of
the source region on, ignores `RA_LENGTH mod 8`, and leaves RA_CURSOR after them and IN_BITPOS as it
was. The cursor fits its register (20_memory.md R72). -/
def Obligations.RaDecodeOutputsTheWindow : Prop :=
  ∀ (s : State) (used : Nat) (out : List Byte), s.cfg.legal → s.dictLoaded = true →
    s.raLength ≠ 0#32 → ¬ s.regionsMeet →
    let n := s.raLength.toNat / 8
    let p := s.raOffset.toNat
    takeSymbols s.dmap n (s.srcBits p (8 * s.srcReadable)) = some (out, used) →
    n ≤ s.dstWritable →
    p + used < 2 ^ 32 ∧ ∃ t, exec .raDecode s = .next t ∧
      t = ({ s with mem := t.mem, raCursor := BitVec.ofNat 32 (p + used) } : State).ended
        0x08#8 .none n (8 * n) ∧
      s.storesBytes t s.dstAddr.toNat out

/-- R194: where the source region ends before the last symbol, RA_DECODE ends with RA_TRUNCATED and the
count of the bytes it produced, which stay written. -/
def Obligations.RaDecodeReportsTruncation : Prop :=
  ∀ (s : State) (n used : Nat) (out : List Byte), s.dictLoaded = true → ¬ s.regionsMeet →
    let p := s.raOffset.toNat
    let stop := 8 * s.srcLen.toNat
    let bits := s.srcBits p stop
    n < s.raLength.toNat / 8 → (s.srcReadable = s.srcLen.toNat ∨ stop ≤ p) →
    takeSymbols s.dmap n bits = some (out, used) →
    symbolAt s.dmap (bits.drop used) = none → (bits.drop used).length < 8 →
    n ≤ s.dstWritable →
    ∃ t, exec .raDecode s = .next t ∧
      t = ({ s with mem := t.mem, raCursor := BitVec.ofNat 32 (max p stop) } : State).ended
        0x08#8 .raTruncated n (8 * n) ∧
      s.storesBytes t s.dstAddr.toNat out

/-- R191: RA_DECODE's DECODE_OVERLONG, and its IO_BOUNDS at an output byte that does not fit and at a
source bit outside M. -/
def Obligations.RaDecodeStopsAsDecodeDoes : Prop :=
  ∀ (s : State) (n used : Nat) (out : List Byte), s.dictLoaded = true → ¬ s.regionsMeet →
    n < s.raLength.toNat / 8 →
    let p := s.raOffset.toNat
    let bits := s.srcBits p (8 * s.srcReadable)
    (takeSymbols s.dmap n bits = some (out, used) →
      symbolAt s.dmap (bits.drop used) = none → 8 ≤ (bits.drop used).length →
      n ≤ s.dstWritable →
      ∃ t, exec .raDecode s = .next t ∧
        t = ({ s with mem := t.mem, raCursor := BitVec.ofNat 32 (p + used + 8) } : State).ended
          0x08#8 .decodeOverlong n (8 * n) ∧
        s.storesBytes t s.dstAddr.toNat out) ∧
    (takeSymbols s.dmap (n + 1) bits = some (out, used) → n = s.dstWritable →
      ∃ t, exec .raDecode s = .next t ∧
        t = ({ s with mem := t.mem, raCursor := BitVec.ofNat 32 (p + used) } : State).ended
          0x08#8 .ioBounds n (8 * n) ∧
        s.storesBytes t s.dstAddr.toNat (out.take n)) ∧
    (s.srcReadable < s.srcLen.toNat → p < 8 * s.srcLen.toNat →
      takeSymbols s.dmap n bits = some (out, used) →
      symbolAt s.dmap (bits.drop used) = none → (bits.drop used).length < 8 →
      n ≤ s.dstWritable →
      ∃ t, exec .raDecode s = .next t ∧
        t = ({ s with
            mem := t.mem
            raCursor := BitVec.ofNat 32 (max p (8 * s.srcReadable)) } : State).ended
          0x08#8 .ioBounds n (8 * n) ∧
        s.storesBytes t s.dstAddr.toNat out)

/-- 43_stream_codec.md R186, the round trip: what COMPRESS.F0 wrote from the source bytes, DICT_READ.F0
and DECODE with `BIT_END = 8 * H + e_p` give back, byte for byte. -/
def Obligations.DecompressGivesBackTheInput : Prop :=
  ∀ (s a b c d e : State) (dst cap : Word), s.cfg.legal →
    exec .count s = .next a → a.error = .none →
    exec .build a = .next b → exec .assign b = .next c → c.error = .none →
    exec (.dictWrite .oneByte) c = .next d → d.error = .none →
    exec .encode d = .next e → e.error = .none →
    let g : State :=
      { e with
        srcAddr := e.dstAddr, srcLen := e.result1, dstAddr := dst, dstCap := cap
        bitEnd := BitVec.ofNat 32 (8 * d.result0.toNat + e.result0.toNat) }
    ¬ g.regionsMeet → s.srcLen.toNat ≤ g.dstWritable →
    ∃ u v, exec (.dictRead .oneByte) g = .next u ∧ u.error = .none ∧
      exec .decode u = .next v ∧ v.error = .none ∧
      v.result0 = s.srcLen ∧ v.result1 = 0#32 ∧
      ∀ i < s.srcLen.toNat, v.byteAt (dst.toNat + i) = s.srcAt i

/-- 44_random_access.md R196: a window of whole codes read by RA_DECODE equals the slice of what DECODE
outputs. -/
def Obligations.RandomAccessEqualsTheSlice : Prop :=
  ∀ (s t : State) (j m o : Nat) (out : List Byte), s.cfg.legal →
    exec .decode s = .next t → t.error = .none →
    takeSymbols s.dmap j
      (s.srcBits s.inBitpos.toNat (min s.bitEnd.toNat (8 * s.srcLen.toNat))) = some (out, o) →
    j + m ≤ t.result0.toNat →
    ∃ v, exec .raDecode { s with raOffset := BitVec.ofNat 32 (s.inBitpos.toNat + o)
                                 raLength := BitVec.ofNat 32 (8 * m) } = .next v ∧
      v.error = .none ∧ v.result0.toNat = m ∧
      ∀ i < m, v.byteAt (s.dstAddr.toNat + i) = t.byteAt (s.dstAddr.toNat + (j + i))

/-- 70_reset_and_hazards.md R252: a destination of `770 + SRC_LEN` bytes is large enough for the header
and the payload, and DECODE outputs at most one byte for each bit. -/
def Obligations.DestinationOfThatSizeIsEnough : Prop :=
  (∀ (s : State) (f : SizeForm), Inv s → s.codesValid = true → ¬ s.regionsMeet →
    s.srcReadable = s.srcLen.toNat → allCoded s.code s.sourceBytes = true →
    770 + s.srcLen.toNat ≤ s.dstWritable →
    ∃ d e, exec (.dictWrite f) s = .next d ∧ d.error = .none ∧
      exec .encode d = .next e ∧ e.error = .none) ∧
  (∀ s t : State, exec .decode s = .next t →
    t.result0.toNat ≤ min s.bitEnd.toNat (8 * s.srcLen.toNat) - s.inBitpos.toNat)

/-! ### CLEAR -/

/-- 45_control.md R200: CLEAR discards the tables, the tree and the flags, and changes nothing else. -/
def Obligations.ClearDiscardsTheSession : Prop :=
  ∀ s : State, exec .clear s = .next
    (({ s with
        freq := Vector.replicate 256 0#32
        tree := .noTree
        code := Vector.replicate 256 none
        codesValid := false
        dmap := Vector.replicate 510 none
        dictLoaded := false
        nleaves := 0#9
        rootWeight := 0#40
        maxlen := 0#4 } : State).ended 0x09#8 .none 0 0)

/-! ### The host's ports -/

/-- 10_state.md R28: the fields of STATUS; with the values of ERRCODE (60_exceptions.md R211) and of
TREE_STATE (R39). -/
def Obligations.StatusWordHasItsFields : Prop :=
  ([ErrCode.none, .illegalCommand, .ioBounds, .regionOverlap, .noTree, .codeTooLong, .noCodes,
      .symbolUncoded, .malformedHeader, .notLoaded, .decodeOverlong, .raTruncated].map
      ErrCode.value =
    [0x00#8, 0x01#8, 0x02#8, 0x03#8, 0x04#8, 0x05#8, 0x06#8, 0x07#8, 0x08#8, 0x09#8, 0x0A#8,
      0x0B#8]) ∧
  (TreeReg.noTree.state = 0#2 ∧ TreeReg.emptyTree.state = 1#2 ∧
    (∀ b w, (TreeReg.built (.leaf b w)).state = 2#2) ∧
    (∀ l r, (TreeReg.built (.node l r)).state = 3#2)) ∧
  ∀ s : State,
    s.readReg .status = s.statusWord ∧
    s.statusWord.getLsbD 0 = s.running.isSome ∧ s.statusWord.getLsbD 1 = s.done ∧
    s.statusWord.getLsbD 2 = decide (s.error ≠ .none) ∧
    s.statusWord.getLsbD 3 = s.dictLoaded ∧ s.statusWord.getLsbD 4 = s.codesValid ∧
    s.statusWord.extractLsb' 5 2 = s.tree.state ∧ s.statusWord.getLsbD 7 = false ∧
    s.statusWord.extractLsb' 8 8 = s.error.value ∧
    s.statusWord.extractLsb' 16 8 = s.lastOp ∧ s.statusWord.extractLsb' 24 8 = 0#8

/-- R29: a STATUS write with bit 1 set clears DONE and changes nothing else; with bit 1 clear it changes
nothing. -/
def Obligations.StatusWriteAcknowledges : Prop :=
  ∀ (s : State) (v : Word),
    (v.getLsbD 1 = true → s.writeReg .status v = { s with done := false }) ∧
    (v.getLsbD 1 = false → s.writeReg .status v = s)

/-- R48 and 60_exceptions.md R220: `irq` is IRQ_EN and DONE; the end of any command raises it when it is
enabled, and the acknowledgement lowers it. -/
def Obligations.InterruptFollowsCompletion : Prop :=
  (∀ s : State, s.irq = (s.irqEn && s.done)) ∧
  (∀ (s t : State) (w : Word), s.runCommand w = .next t → t.irq = s.irqEn) ∧
  (∀ (s : State) (v : Word), v.getLsbD 1 = true → (s.writeReg .status v).irq = false)

/-- R22, R25 and R26: reads of reserved offsets, of CMD and of ID; writes of read-only registers and
reserved offsets have no effect; a write of CTRL changes IRQ_EN and nothing else; an access that is not a whole aligned word is refused. -/
def Obligations.ReservedAndReadOnlyRegisters : Prop :=
  ∀ (s : State) (v : Word) (b : Byte),
    s.readReg .reserved = 0#32 ∧ s.readReg .cmd = 0#32 ∧ s.readReg .id = 0x48554631#32 ∧
    (∀ r ∈ [Reg.id, .raCursor, .result0, .result1, .nleaves, .rootWeightLo, .rootWeightHi,
      .maxlen, .code b, .reserved], s.writeReg r v = s) ∧
    (s.writeReg .ctrl v).readReg .ctrl = v &&& 1#32 ∧
    s.writeReg .ctrl v = { s with irqEn := v.getLsbD 0 } ∧
    (∀ (off : BitVec 12) (width : AccessWidth) (rest : List HostAction),
      (width ≠ .word ∨ off.toNat % 4 ≠ 0) →
      (s.host = .regWrite off width v :: rest → step s = .refused .registerAccessShape) ∧
      (s.host = .regRead off width :: rest → step s = .refused .registerAccessShape))

/-- R21: the map of offsets, and what the CODE window (R41), NLEAVES, the root weight and MAXLEN show
(R38). -/
def Obligations.RegisterMapHasItsOffsets : Prop :=
  ([0x000#12, 0x004#12, 0x008#12, 0x00C#12, 0x010#12, 0x014#12, 0x018#12, 0x01C#12, 0x020#12,
      0x024#12, 0x028#12, 0x02C#12, 0x030#12, 0x034#12, 0x038#12, 0x03C#12, 0x040#12, 0x044#12,
      0x048#12, 0x04C#12].map regAt =
    [.id, .ctrl, .cmd, .status, .srcAddr, .srcLen, .dstAddr, .dstCap, .inBitpos, .bitEnd,
      .outBitpos, .raOffset, .raLength, .raCursor, .result0, .result1, .nleaves, .rootWeightLo,
      .rootWeightHi, .maxlen]) ∧
  (∀ b : Byte, regAt (BitVec.ofNat 12 (0x400 + 4 * b.toNat)) = .freq b ∧
    regAt (BitVec.ofNat 12 (0x800 + 4 * b.toNat)) = .code b) ∧
  (∀ off : BitVec 12, off.toNat % 4 = 0 →
    ((0x050 ≤ off.toNat ∧ off.toNat ≤ 0x3FC) ∨ 0xC00 ≤ off.toNat) → regAt off = .reserved) ∧
  (∀ (s : State) (b : Byte),
    (s.code.read b = none → s.readReg (.code b) = 0#32) ∧
    (∀ k, s.code.read b = some k → k.len ≤ 8 →
      (s.readReg (.code b)).toNat = 2 ^ 16 + k.len * 2 ^ 8 + k.data.toNat)) ∧
  (∀ s : State, (s.readReg .nleaves).toNat = s.nleaves.toNat ∧
    (s.readReg .rootWeightLo).toNat = s.rootWeight.toNat % 2 ^ 32 ∧
    (s.readReg .rootWeightHi).toNat = s.rootWeight.toNat / 2 ^ 32 ∧
    (s.readReg .maxlen).toNat = s.maxlen.toNat)

/-- R30 to R35 and R40: a read-write register reads as what was written, and its write changes no other
register. And R22: the host's aligned write to an idle block is the write of the register at that
offset, for every register (of CMD, `CmdWriteStartsTheCommand` says what that is). (The list of the
host's interactions and the reply are the model's own: log 1.) -/
def Obligations.ReadWriteRegistersHoldTheirWord : Prop :=
  (∀ (s : State) (off : BitVec 12) (v : Word) (rest : List HostAction), s.running = none →
    off.toNat % 4 = 0 → s.host = .regWrite off .word v :: rest →
    step s = .next (State.writeReg { s with host := rest, reply := .nothing } (regAt off) v)) ∧
  ∀ (s : State) (r : Reg) (v : Word),
    (r ∈ [Reg.srcAddr, .srcLen, .dstAddr, .dstCap, .inBitpos, .bitEnd, .outBitpos, .raOffset,
        .raLength] ∨ ∃ b, r = .freq b) →
    (s.writeReg r v).readReg r = v ∧
    (∀ r', r' ≠ r → (s.writeReg r v).readReg r' = s.readReg r') ∧
    (s.writeReg r v).mem = s.mem ∧ (s.writeReg r v).dmap = s.dmap ∧
    (s.writeReg r v).tree = s.tree

/-- 20_memory.md R83: a register read gives the word back and changes nothing of the block. -/
def Obligations.RegisterReadHasNoSideEffect : Prop :=
  ∀ (s : State) (off : BitVec 12) (rest : List HostAction), s.running = none →
    off.toNat % 4 = 0 → s.host = .regRead off .word :: rest →
    step s = .next { s with host := rest, reply := .word (s.readReg (regAt off)) }

/-- 10_state.md R50: while BUSY a register write has no effect, a STATUS read returns STATUS and a read of
another register some word. (That this takes in a STATUS write is R50's letter, which the model follows
over 20_memory.md R90's row: log 7. The list of the host's interactions and the reply are log 1, the
free value that a read returns is log 5.) -/
def Obligations.BusyBlockIgnoresRegisterWrites : Prop :=
  ∀ (s : State) (w : Word) (off : BitVec 12) (rest : List HostAction), s.running = some w →
    off.toNat % 4 = 0 →
    (∀ v, s.host = .regWrite off .word v :: rest →
      step s = .next { s with host := rest, reply := .nothing }) ∧
    (s.host = .regRead off .word :: rest → regAt off = .status →
      step s = .next { s with host := rest, reply := .word s.statusWord }) ∧
    (s.host = .regRead off .word :: rest → regAt off ≠ .status →
      ∃ x, step s = .next { s with host := rest, reply := .word x, free := s.free + 1 })

/-- 20_memory.md R71, R86, R90: the host's memory port reads back what was written, byte by byte; an
address outside M is refused, and an access while BUSY is a race. -/
def Obligations.HostMemoryPort : Prop :=
  ∀ (s : State) (a : Nat) (v : Byte) (rest : List HostAction),
    (s.running = none → a < s.cfg.memBytes → s.host = .memWrite a v :: rest →
      ∃ t, step s = .next t ∧ t = { s with mem := t.mem, host := rest, reply := .nothing } ∧
        t.byteAt a = v ∧ ∀ x, x ≠ a → t.byteAt x = s.byteAt x) ∧
    (s.running = none → a < s.cfg.memBytes → s.host = .memRead a :: rest →
      step s = .next { s with host := rest, reply := .byte (s.byteAt a) }) ∧
    (s.running = none → s.cfg.memBytes ≤ a →
      (s.host = .memWrite a v :: rest ∨ s.host = .memRead a :: rest) →
      step s = .refused .hostAddressOutsideM) ∧
    (s.running ≠ none → (s.host = .memWrite a v :: rest ∨ s.host = .memRead a :: rest) →
      step s = .fault .hostMemoryRace)

/-! ### The stream primitives -/

/-- R74: the engine's byte accesses. -/
def Obligations.EngineAccessIsBounded : Prop :=
  ∀ (s : State) (e : Engine) (a : Nat) (v : Byte),
    (s.cfg.memBytes ≤ a →
      memRead s e a = .error .ioBounds ∧ memWrite s e a v = .error .ioBounds) ∧
    (a < s.cfg.memBytes → memRead s e a = .ok (e.mem.byte s.powerOn a) ∧
      ∃ e', memWrite s e a v = .ok e' ∧ e'.mem.byte s.powerOn a = v ∧
        ∀ x, x ≠ a → e'.mem.byte s.powerOn x = e.mem.byte s.powerOn x)

/-- R76 to R78: the source stream: its end, its bounds, and the order of the bits in a byte. -/
def Obligations.SourceStreamReadsMsbFirst : Prop :=
  ∀ (s : State) (p : Nat),
    (s.srcLen.toNat ≤ p / 8 → srcBit s s.engine p = .ok none) ∧
    (p / 8 < s.srcLen.toNat → s.cfg.memBytes ≤ s.srcAddr.toNat + p / 8 →
      srcBit s s.engine p = .error .ioBounds) ∧
    (p / 8 < s.srcReadable →
      srcByte s s.engine (p / 8) = .ok (some (s.srcAt (p / 8))) ∧
      srcBit s s.engine p = .ok (some ((s.srcAt (p / 8)).getLsbD (7 - p % 8))))

/-- R80: a destination bit is set at `7 - (q mod 8)` of its byte and the other seven bits are unchanged;
a byte outside the capacity or outside M raises IO_BOUNDS. -/
def Obligations.DestinationBitIsOneBit : Prop :=
  ∀ (s : State) (e : Engine) (q : Nat) (b : Bool),
    (s.dstWritable ≤ q / 8 → dstBit s e q b = .error .ioBounds) ∧
    (q / 8 < s.dstWritable → ∃ e', dstBit s e q b = .ok e' ∧
      ∀ a j, j < 8 → (e'.mem.byte s.powerOn a).getLsbD j =
        if a = s.dstAddr.toNat + q / 8 ∧ j = 7 - q % 8 then b
        else (e.mem.byte s.powerOn a).getLsbD j)

/-- R75: the model's overlap test is "share at least one address". -/
def Obligations.OverlapIsASharedAddress : Prop :=
  ∀ s : State, s.overlap = true ↔ s.regionsMeet
end

