-- ==== Sys2Proof/Laws/Ops.lean ====
section
/-! SUPPORT. What the shared operations on tables, the decode map and M do, said once. -/

namespace Sys2Proof

/-! ### Tables -/

theorem Table.read_write {α : Type} (t : Table α) (b c : Byte) (v : α) :
    (t.write b v).read c = if c = b then v else t.read c := by
  unfold Table.read Table.write
  rw [Vector.getElem_set]
  by_cases h : c = b
  · simp [h]
  · have : b.toNat ≠ c.toNat := fun e => h (BitVec.eq_of_toNat_eq e.symm)
    simp [h, this]

@[simp] theorem Table.read_write_same {α : Type} (t : Table α) (b : Byte) (v : α) :
    (t.write b v).read b = v := by simp [Table.read_write]

theorem Table.read_write_other {α : Type} (t : Table α) {b c : Byte} (v : α) (h : c ≠ b) :
    (t.write b v).read c = t.read c := by simp [Table.read_write, h]

@[simp] theorem Table.read_fill {α : Type} (v : α) (b : Byte) : (Table.fill v).read b = v := by
  simp [Table.read, Table.fill]

@[simp] theorem Table.read_map {α β : Type} (f : α → β) (t : Table α) (b : Byte) :
    Table.read (t.map f : Table β) b = f (t.read b) := by
  simp [Table.read]

/-- Two tables that read alike are equal. -/
theorem Table.ext_read {α : Type} {t u : Table α} (h : ∀ b : Byte, t.read b = u.read b) :
    t = u := by
  apply Vector.ext
  intro i hi
  have hb : (BitVec.ofNat 8 i).toNat = i := by
    simp only [BitVec.toNat_ofNat]
    omega
  simpa [Table.read, hb] using h (BitVec.ofNat 8 i)

@[simp] theorem length_allBytes : allBytes.length = 256 := by simp [allBytes]

/-- Every byte value is among the byte values. -/
@[simp] theorem mem_allBytes (b : Byte) : b ∈ allBytes := by
  simp only [allBytes, List.mem_map, List.mem_range]
  exact ⟨b.toNat, b.isLt, by simp⟩

/-- The entries of a table are its byte values with what they read as. -/
theorem Table.entries_eq {α : Type} (t : Table α) :
    t.entries = allBytes.map (fun b => (b, t.read b)) := by
  apply List.ext_getElem
  · simp [Table.entries, allBytes]
  · intro i h1 h2
    have hi : i < 256 := by simpa [Table.entries] using h1
    have hb : (BitVec.ofNat 8 i).toNat = i := by
      simp only [BitVec.toNat_ofNat]
      omega
    simp [Table.entries, allBytes, Table.read, hb]

end Sys2Proof

namespace Sys2Proof.Machine

/-! ### The decode map -/

@[simp] theorem Code.matchable_iff (c : Code) :
    c.matchable = true ↔ 1 ≤ c.len ∧ c.len ≤ 8 ∧ c.data.toNat < 2 ^ c.len := by
  simp [Code.matchable, and_assoc]

/-- A matchable Code's place is one of the 510. -/
theorem Code.place_lt {c : Code} (h : c.matchable = true) : c.place < 510 := by
  obtain ⟨h1, h8, hd⟩ := (Code.matchable_iff c).1 h
  have hp : 2 ^ c.len ≤ 2 ^ 8 := Nat.pow_le_pow_right (by omega) h8
  unfold Code.place
  omega

/-- Matchable Codes at one place are equal. -/
theorem Code.place_inj {c d : Code} (hc : c.matchable = true) (hd : d.matchable = true)
    (h : c.place = d.place) : c = d := by
  obtain ⟨c1, -, c3⟩ := (Code.matchable_iff c).1 hc
  obtain ⟨d1, -, d3⟩ := (Code.matchable_iff d).1 hd
  unfold Code.place at h
  have hlen : c.len = d.len := by
    rcases Nat.lt_trichotomy c.len d.len with hlt | heq | hgt
    · have := Nat.pow_le_pow_right (n := 2) (by omega) (show c.len + 1 ≤ d.len by omega)
      rw [Nat.pow_succ] at this
      have := Nat.pow_le_pow_right (n := 2) (by omega) c1
      omega
    · exact heq
    · have := Nat.pow_le_pow_right (n := 2) (by omega) (show d.len + 1 ≤ c.len by omega)
      rw [Nat.pow_succ] at this
      have := Nat.pow_le_pow_right (n := 2) (by omega) d1
      omega
  cases c
  cases d
  simp only at hlen c3 d3 h
  subst hlen
  have := Nat.pow_le_pow_right (n := 2) (by omega) c1
  congr 1
  exact BitVec.eq_of_toNat_eq (by simp only at this; omega)

@[simp] theorem DecodeMap.read_empty (c : Code) : DecodeMap.empty.read c = none := by
  unfold DecodeMap.read DecodeMap.empty
  split
  · next h => simp [Code.place_lt h]
  · rfl

/-- Only matchable Codes are defined in DMAP (10_state.md R43). -/
theorem DecodeMap.matchable_of_read {m : DecodeMap} {c : Code} {v : Byte}
    (h : m.read c = some v) : c.matchable = true := by
  unfold DecodeMap.read at h
  split at h
  · assumption
  · cases h

theorem DecodeMap.read_write (m : DecodeMap) (c k : Code) (v : Byte) :
    (m.write c v).read k = if k = c ∧ c.matchable = true then some v else m.read k := by
  unfold DecodeMap.write
  by_cases hc : c.matchable = true
  · rw [if_pos hc]
    unfold DecodeMap.read
    by_cases hk : k.matchable = true
    · have h1 := Code.place_lt hk
      have h2 := Code.place_lt hc
      rw [if_pos hk, if_pos hk]
      by_cases e : k = c
      · subst e
        simp [h1, hc]
      · have : c.place ≠ k.place := fun h => e (Code.place_inj hk hc h.symm)
        simp [e, this]
    · rw [if_neg hk, if_neg hk]
      have : ¬ (k = c ∧ c.matchable = true) := by
        rintro ⟨rfl, h⟩
        exact hk h
      rw [if_neg this]
  · simp [hc]

/-! ### The data memory -/

theorem Memory.cell_store (m : Memory) (a b : Nat) (v : Byte) :
    (m.store a v).cell b = if b = a then some v else m.cell b := by
  induction m with
  | nil => simp [Memory.store, Memory.cell]
  | cons c m ih =>
    obtain ⟨x, u⟩ := c
    unfold Memory.store
    split
    · simp [Memory.cell]
    · split
      · next h => subst h; by_cases hb : b = a <;> simp [Memory.cell, hb]
      · next h =>
        simp only [Memory.cell, ih]
        by_cases hb : b = x
        · simp [hb]
          omega
        · simp [hb]

/-- A read after a write: the byte written at its address, every other byte as before. -/
theorem Memory.byte_store (m : Memory) (seed a b : Nat) (v : Byte) :
    (m.store a v).byte seed b = if b = a then v else m.byte seed b := by
  unfold Memory.byte
  rw [Memory.cell_store]
  split <;> simp

/-- A write adds no address but its own. -/
theorem Memory.mem_store {m : Memory} {a : Nat} {v : Byte} {c : Host.Cell}
    (h : c ∈ m.store a v) : c = (a, v) ∨ c ∈ m := by
  induction m with
  | nil => simpa [Memory.store] using h
  | cons d m ih =>
    obtain ⟨x, u⟩ := d
    unfold Memory.store at h
    split at h
    · simpa using h
    · split at h
      · rcases List.mem_cons.1 h with h | h
        · exact .inl h
        · exact .inr (List.mem_cons_of_mem _ h)
      · rcases List.mem_cons.1 h with h | h
        · exact .inr (by simp [h])
        · rcases ih h with h | h
          · exact .inl h
          · exact .inr (List.mem_cons_of_mem _ h)

/-- A write keeps the canonical form. -/
theorem Memory.wf_store {m : Memory} (h : m.wf) (a : Nat) (v : Byte) : (m.store a v).wf := by
  induction m with
  | nil => simp [Memory.store]
  | cons c m ih =>
    obtain ⟨x, u⟩ := c
    obtain ⟨h1, h2⟩ := List.pairwise_cons.1 h
    unfold Memory.store
    split
    · next hlt =>
      refine List.pairwise_cons.2 ⟨fun d hd => ?_, h⟩
      rcases List.mem_cons.1 hd with rfl | hd
      · exact hlt
      · exact Nat.lt_trans hlt (h1 d hd)
    · split
      · next he => subst he; exact List.pairwise_cons.2 ⟨h1, h2⟩
      · next hlt hne =>
        refine List.pairwise_cons.2 ⟨fun d hd => ?_, ih h2⟩
        rcases Memory.mem_store hd with rfl | hd
        · show x < a
          omega
        · exact h1 d hd

theorem reset_mem_wf : State.reset.mem.wf := List.Pairwise.nil

/-- Everything the engine's byte read can answer (20_memory.md R74). -/
theorem memRead_cases (s : State) (e : Engine) (a : Nat) :
    (s.cfg.memBytes ≤ a ∧ memRead s e a = .error .ioBounds) ∨
    (a < s.cfg.memBytes ∧ memRead s e a = .ok (e.mem.byte s.powerOn a)) := by
  unfold memRead
  split
  · exact .inl ⟨‹_›, rfl⟩
  · exact .inr ⟨by omega, rfl⟩

/-- Everything the engine's byte write can answer (20_memory.md R74). -/
theorem memWrite_cases (s : State) (e : Engine) (a : Nat) (v : Byte) :
    (s.cfg.memBytes ≤ a ∧ memWrite s e a v = .error .ioBounds) ∨
    (a < s.cfg.memBytes ∧
      memWrite s e a v = .ok { mem := e.mem.store a v, trail := (a, v) :: e.trail }) := by
  unfold memWrite
  split
  · exact .inl ⟨‹_›, rfl⟩
  · exact .inr ⟨by omega, rfl⟩

/-! ### Bits of a byte -/

/-- Setting one bit position of a byte leaves its other seven bits (20_memory.md R80). -/
theorem getLsbD_setBitOfByte (c : Byte) (p : Nat) (b : Bool) (j : Nat) (hj : j < 8) :
    (setBitOfByte c p b).getLsbD j = if j = 7 - p % 8 then b else c.getLsbD j := by
  unfold setBitOfByte
  by_cases h : j = 7 - p % 8
  · subst h
    cases b <;> simp [hj]
  · have : ¬ (7 - p % 8 ≤ j ∧ j - (7 - p % 8) = 0) := by omega
    cases b <;> simp [hj, h] <;> omega

/-! ### The end of a command -/

/-- Everything the acknowledgement can do (10_state.md R29). -/
theorem State.acknowledge_cases (s : State) (v : Word) :
    (v.getLsbD 1 = true ∧ s.acknowledge v = { s with done := false }) ∨
    (v.getLsbD 1 = false ∧ s.acknowledge v = s) := by
  unfold State.acknowledge
  cases h : v.getLsbD 1 <;> simp

@[simp] theorem recordError_none (r : List ErrCode) : recordError .none r = r := rfl

theorem recordError_of_ne {e : ErrCode} (h : e ≠ .none) (r : List ErrCode) :
    recordError e r = e :: r := by simp [recordError, h]

end Sys2Proof.Machine
end

