-- ==== Sys2Proof/Laws/Operands.lean ====
section
/-! SUPPORT. Everything the stream primitives can answer (20_memory.md R77 to R80), for the meanings'
proofs to cite. -/

namespace Sys2Proof.Machine

theorem srcByte_cases (s : State) (e : Engine) (i : Nat) :
    (s.srcLen.toNat ≤ i ∧ srcByte s e i = .ok none) ∨
    (i < s.srcLen.toNat ∧ s.cfg.memBytes ≤ s.srcAddr.toNat + i ∧
      srcByte s e i = .error .ioBounds) ∨
    (i < s.srcLen.toNat ∧ s.srcAddr.toNat + i < s.cfg.memBytes ∧
      srcByte s e i = .ok (some (e.mem.byte s.powerOn (s.srcAddr.toNat + i)))) := by
  unfold srcByte
  split
  · exact .inl ⟨‹_›, rfl⟩
  · rcases memRead_cases s e (s.srcAddr.toNat + i) with ⟨h, hr⟩ | ⟨h, hr⟩
    · exact .inr (.inl ⟨by omega, h, by rw [hr]⟩)
    · exact .inr (.inr ⟨by omega, h, by rw [hr]⟩)

theorem srcBit_cases (s : State) (e : Engine) (p : Nat) :
    (s.srcLen.toNat ≤ p / 8 ∧ srcBit s e p = .ok none) ∨
    (p / 8 < s.srcLen.toNat ∧ s.cfg.memBytes ≤ s.srcAddr.toNat + p / 8 ∧
      srcBit s e p = .error .ioBounds) ∨
    (p / 8 < s.srcLen.toNat ∧ s.srcAddr.toNat + p / 8 < s.cfg.memBytes ∧
      srcBit s e p =
        .ok (some (bitOfByte (e.mem.byte s.powerOn (s.srcAddr.toNat + p / 8)) p))) := by
  unfold srcBit
  rcases srcByte_cases s e (p / 8) with ⟨h, hr⟩ | ⟨h, h', hr⟩ | ⟨h, h', hr⟩
  · exact .inl ⟨h, by rw [hr]⟩
  · exact .inr (.inl ⟨h, h', by rw [hr]⟩)
  · exact .inr (.inr ⟨h, h', by rw [hr]⟩)

theorem dstByte_cases (s : State) (e : Engine) (k : Nat) (v : Byte) :
    ((s.dstCap.toNat ≤ k ∨ s.cfg.memBytes ≤ s.dstAddr.toNat + k) ∧
      dstByte s e k v = .error .ioBounds) ∨
    (k < s.dstCap.toNat ∧ s.dstAddr.toNat + k < s.cfg.memBytes ∧
      dstByte s e k v = .ok
        { mem := e.mem.store (s.dstAddr.toNat + k) v
          trail := (s.dstAddr.toNat + k, v) :: e.trail }) := by
  unfold dstByte
  split
  · exact .inl ⟨.inl ‹_›, rfl⟩
  · rcases memWrite_cases s e (s.dstAddr.toNat + k) v with ⟨h, hr⟩ | ⟨h, hr⟩
    · exact .inl ⟨.inr h, hr⟩
    · exact .inr ⟨by omega, h, hr⟩

theorem dstBit_cases (s : State) (e : Engine) (q : Nat) (b : Bool) :
    ((s.dstCap.toNat ≤ q / 8 ∨ s.cfg.memBytes ≤ s.dstAddr.toNat + q / 8) ∧
      dstBit s e q b = .error .ioBounds) ∨
    (q / 8 < s.dstCap.toNat ∧ s.dstAddr.toNat + q / 8 < s.cfg.memBytes ∧
      dstBit s e q b = .ok
        { mem := e.mem.store (s.dstAddr.toNat + q / 8)
            (setBitOfByte (e.mem.byte s.powerOn (s.dstAddr.toNat + q / 8)) q b)
          trail := (s.dstAddr.toNat + q / 8,
            setBitOfByte (e.mem.byte s.powerOn (s.dstAddr.toNat + q / 8)) q b) :: e.trail }) := by
  unfold dstBit
  split
  · exact .inl ⟨.inl ‹_›, rfl⟩
  · rcases memRead_cases s e (s.dstAddr.toNat + q / 8) with ⟨h, hr⟩ | ⟨h, hr⟩
    · exact .inl ⟨.inr h, by rw [hr]⟩
    · rcases memWrite_cases s e (s.dstAddr.toNat + q / 8)
        (setBitOfByte (e.mem.byte s.powerOn (s.dstAddr.toNat + q / 8)) q b) with ⟨h', _⟩ | ⟨_, hw⟩
      · omega
      · exact .inr ⟨by omega, h, by rw [hr]; exact hw⟩

end Sys2Proof.Machine
end

