-- ==== Sys2Proof/Laws/State.lean ====
section
/-! SUPPORT. One lemma for each field under each named update of the state, so that no proof unfolds a
record update. -/

namespace Sys2Proof.Machine

variable (s : State)

/-! ### The fields after writing the two results -/

@[simp] theorem State.setResults_irqEn (r0 r1 : Nat) :
    (s.setResults r0 r1).irqEn = s.irqEn := rfl
@[simp] theorem State.setResults_running (r0 r1 : Nat) :
    (s.setResults r0 r1).running = s.running := rfl
@[simp] theorem State.setResults_done (r0 r1 : Nat) :
    (s.setResults r0 r1).done = s.done := rfl
@[simp] theorem State.setResults_error (r0 r1 : Nat) :
    (s.setResults r0 r1).error = s.error := rfl
@[simp] theorem State.setResults_lastOp (r0 r1 : Nat) :
    (s.setResults r0 r1).lastOp = s.lastOp := rfl
@[simp] theorem State.setResults_dictLoaded (r0 r1 : Nat) :
    (s.setResults r0 r1).dictLoaded = s.dictLoaded := rfl
@[simp] theorem State.setResults_codesValid (r0 r1 : Nat) :
    (s.setResults r0 r1).codesValid = s.codesValid := rfl
@[simp] theorem State.setResults_srcAddr (r0 r1 : Nat) :
    (s.setResults r0 r1).srcAddr = s.srcAddr := rfl
@[simp] theorem State.setResults_srcLen (r0 r1 : Nat) :
    (s.setResults r0 r1).srcLen = s.srcLen := rfl
@[simp] theorem State.setResults_dstAddr (r0 r1 : Nat) :
    (s.setResults r0 r1).dstAddr = s.dstAddr := rfl
@[simp] theorem State.setResults_dstCap (r0 r1 : Nat) :
    (s.setResults r0 r1).dstCap = s.dstCap := rfl
@[simp] theorem State.setResults_inBitpos (r0 r1 : Nat) :
    (s.setResults r0 r1).inBitpos = s.inBitpos := rfl
@[simp] theorem State.setResults_bitEnd (r0 r1 : Nat) :
    (s.setResults r0 r1).bitEnd = s.bitEnd := rfl
@[simp] theorem State.setResults_outBitpos (r0 r1 : Nat) :
    (s.setResults r0 r1).outBitpos = s.outBitpos := rfl
@[simp] theorem State.setResults_raOffset (r0 r1 : Nat) :
    (s.setResults r0 r1).raOffset = s.raOffset := rfl
@[simp] theorem State.setResults_raLength (r0 r1 : Nat) :
    (s.setResults r0 r1).raLength = s.raLength := rfl
@[simp] theorem State.setResults_raCursor (r0 r1 : Nat) :
    (s.setResults r0 r1).raCursor = s.raCursor := rfl
@[simp] theorem State.setResults_result0 (r0 r1 : Nat) :
    (s.setResults r0 r1).result0 = BitVec.ofNat 32 r0 := rfl
@[simp] theorem State.setResults_result1 (r0 r1 : Nat) :
    (s.setResults r0 r1).result1 = BitVec.ofNat 32 r1 := rfl
@[simp] theorem State.setResults_nleaves (r0 r1 : Nat) :
    (s.setResults r0 r1).nleaves = s.nleaves := rfl
@[simp] theorem State.setResults_rootWeight (r0 r1 : Nat) :
    (s.setResults r0 r1).rootWeight = s.rootWeight := rfl
@[simp] theorem State.setResults_maxlen (r0 r1 : Nat) :
    (s.setResults r0 r1).maxlen = s.maxlen := rfl
@[simp] theorem State.setResults_freq (r0 r1 : Nat) :
    (s.setResults r0 r1).freq = s.freq := rfl
@[simp] theorem State.setResults_code (r0 r1 : Nat) :
    (s.setResults r0 r1).code = s.code := rfl
@[simp] theorem State.setResults_dmap (r0 r1 : Nat) :
    (s.setResults r0 r1).dmap = s.dmap := rfl
@[simp] theorem State.setResults_tree (r0 r1 : Nat) :
    (s.setResults r0 r1).tree = s.tree := rfl
@[simp] theorem State.setResults_mem (r0 r1 : Nat) :
    (s.setResults r0 r1).mem = s.mem := rfl
@[simp] theorem State.setResults_cfg (r0 r1 : Nat) :
    (s.setResults r0 r1).cfg = s.cfg := rfl
@[simp] theorem State.setResults_powerOn (r0 r1 : Nat) :
    (s.setResults r0 r1).powerOn = s.powerOn := rfl
@[simp] theorem State.setResults_free (r0 r1 : Nat) :
    (s.setResults r0 r1).free = s.free := rfl
@[simp] theorem State.setResults_host (r0 r1 : Nat) :
    (s.setResults r0 r1).host = s.host := rfl
@[simp] theorem State.setResults_reply (r0 r1 : Nat) :
    (s.setResults r0 r1).reply = s.reply := rfl
@[simp] theorem State.setResults_errorRecord (r0 r1 : Nat) :
    (s.setResults r0 r1).errorRecord = s.errorRecord := rfl

/-! ### The fields after the end of a command -/

@[simp] theorem State.endCommand_irqEn (op : BitVec 8) (e : ErrCode) :
    (s.endCommand op e).irqEn = s.irqEn := rfl
@[simp] theorem State.endCommand_running (op : BitVec 8) (e : ErrCode) :
    (s.endCommand op e).running = none := rfl
@[simp] theorem State.endCommand_done (op : BitVec 8) (e : ErrCode) :
    (s.endCommand op e).done = true := rfl
@[simp] theorem State.endCommand_error (op : BitVec 8) (e : ErrCode) :
    (s.endCommand op e).error = e := rfl
@[simp] theorem State.endCommand_lastOp (op : BitVec 8) (e : ErrCode) :
    (s.endCommand op e).lastOp = op := rfl
@[simp] theorem State.endCommand_dictLoaded (op : BitVec 8) (e : ErrCode) :
    (s.endCommand op e).dictLoaded = s.dictLoaded := rfl
@[simp] theorem State.endCommand_codesValid (op : BitVec 8) (e : ErrCode) :
    (s.endCommand op e).codesValid = s.codesValid := rfl
@[simp] theorem State.endCommand_srcAddr (op : BitVec 8) (e : ErrCode) :
    (s.endCommand op e).srcAddr = s.srcAddr := rfl
@[simp] theorem State.endCommand_srcLen (op : BitVec 8) (e : ErrCode) :
    (s.endCommand op e).srcLen = s.srcLen := rfl
@[simp] theorem State.endCommand_dstAddr (op : BitVec 8) (e : ErrCode) :
    (s.endCommand op e).dstAddr = s.dstAddr := rfl
@[simp] theorem State.endCommand_dstCap (op : BitVec 8) (e : ErrCode) :
    (s.endCommand op e).dstCap = s.dstCap := rfl
@[simp] theorem State.endCommand_inBitpos (op : BitVec 8) (e : ErrCode) :
    (s.endCommand op e).inBitpos = s.inBitpos := rfl
@[simp] theorem State.endCommand_bitEnd (op : BitVec 8) (e : ErrCode) :
    (s.endCommand op e).bitEnd = s.bitEnd := rfl
@[simp] theorem State.endCommand_outBitpos (op : BitVec 8) (e : ErrCode) :
    (s.endCommand op e).outBitpos = s.outBitpos := rfl
@[simp] theorem State.endCommand_raOffset (op : BitVec 8) (e : ErrCode) :
    (s.endCommand op e).raOffset = s.raOffset := rfl
@[simp] theorem State.endCommand_raLength (op : BitVec 8) (e : ErrCode) :
    (s.endCommand op e).raLength = s.raLength := rfl
@[simp] theorem State.endCommand_raCursor (op : BitVec 8) (e : ErrCode) :
    (s.endCommand op e).raCursor = s.raCursor := rfl
@[simp] theorem State.endCommand_result0 (op : BitVec 8) (e : ErrCode) :
    (s.endCommand op e).result0 = s.result0 := rfl
@[simp] theorem State.endCommand_result1 (op : BitVec 8) (e : ErrCode) :
    (s.endCommand op e).result1 = s.result1 := rfl
@[simp] theorem State.endCommand_nleaves (op : BitVec 8) (e : ErrCode) :
    (s.endCommand op e).nleaves = s.nleaves := rfl
@[simp] theorem State.endCommand_rootWeight (op : BitVec 8) (e : ErrCode) :
    (s.endCommand op e).rootWeight = s.rootWeight := rfl
@[simp] theorem State.endCommand_maxlen (op : BitVec 8) (e : ErrCode) :
    (s.endCommand op e).maxlen = s.maxlen := rfl
@[simp] theorem State.endCommand_freq (op : BitVec 8) (e : ErrCode) :
    (s.endCommand op e).freq = s.freq := rfl
@[simp] theorem State.endCommand_code (op : BitVec 8) (e : ErrCode) :
    (s.endCommand op e).code = s.code := rfl
@[simp] theorem State.endCommand_dmap (op : BitVec 8) (e : ErrCode) :
    (s.endCommand op e).dmap = s.dmap := rfl
@[simp] theorem State.endCommand_tree (op : BitVec 8) (e : ErrCode) :
    (s.endCommand op e).tree = s.tree := rfl
@[simp] theorem State.endCommand_mem (op : BitVec 8) (e : ErrCode) :
    (s.endCommand op e).mem = s.mem := rfl
@[simp] theorem State.endCommand_cfg (op : BitVec 8) (e : ErrCode) :
    (s.endCommand op e).cfg = s.cfg := rfl
@[simp] theorem State.endCommand_powerOn (op : BitVec 8) (e : ErrCode) :
    (s.endCommand op e).powerOn = s.powerOn := rfl
@[simp] theorem State.endCommand_free (op : BitVec 8) (e : ErrCode) :
    (s.endCommand op e).free = s.free := rfl
@[simp] theorem State.endCommand_host (op : BitVec 8) (e : ErrCode) :
    (s.endCommand op e).host = s.host := rfl
@[simp] theorem State.endCommand_reply (op : BitVec 8) (e : ErrCode) :
    (s.endCommand op e).reply = s.reply := rfl
@[simp] theorem State.endCommand_errorRecord (op : BitVec 8) (e : ErrCode) :
    (s.endCommand op e).errorRecord = recordError e s.errorRecord := rfl

/-! ### The fields after a raise -/

@[simp] theorem State.raise_irqEn (op : BitVec 8) (e : ErrCode) (r0 r1 : Nat) :
    (s.raise op e r0 r1).irqEn = s.irqEn := rfl
@[simp] theorem State.raise_running (op : BitVec 8) (e : ErrCode) (r0 r1 : Nat) :
    (s.raise op e r0 r1).running = none := rfl
@[simp] theorem State.raise_done (op : BitVec 8) (e : ErrCode) (r0 r1 : Nat) :
    (s.raise op e r0 r1).done = true := rfl
@[simp] theorem State.raise_error (op : BitVec 8) (e : ErrCode) (r0 r1 : Nat) :
    (s.raise op e r0 r1).error = e := rfl
@[simp] theorem State.raise_lastOp (op : BitVec 8) (e : ErrCode) (r0 r1 : Nat) :
    (s.raise op e r0 r1).lastOp = op := rfl
@[simp] theorem State.raise_dictLoaded (op : BitVec 8) (e : ErrCode) (r0 r1 : Nat) :
    (s.raise op e r0 r1).dictLoaded = s.dictLoaded := rfl
@[simp] theorem State.raise_codesValid (op : BitVec 8) (e : ErrCode) (r0 r1 : Nat) :
    (s.raise op e r0 r1).codesValid = s.codesValid := rfl
@[simp] theorem State.raise_srcAddr (op : BitVec 8) (e : ErrCode) (r0 r1 : Nat) :
    (s.raise op e r0 r1).srcAddr = s.srcAddr := rfl
@[simp] theorem State.raise_srcLen (op : BitVec 8) (e : ErrCode) (r0 r1 : Nat) :
    (s.raise op e r0 r1).srcLen = s.srcLen := rfl
@[simp] theorem State.raise_dstAddr (op : BitVec 8) (e : ErrCode) (r0 r1 : Nat) :
    (s.raise op e r0 r1).dstAddr = s.dstAddr := rfl
@[simp] theorem State.raise_dstCap (op : BitVec 8) (e : ErrCode) (r0 r1 : Nat) :
    (s.raise op e r0 r1).dstCap = s.dstCap := rfl
@[simp] theorem State.raise_inBitpos (op : BitVec 8) (e : ErrCode) (r0 r1 : Nat) :
    (s.raise op e r0 r1).inBitpos = s.inBitpos := rfl
@[simp] theorem State.raise_bitEnd (op : BitVec 8) (e : ErrCode) (r0 r1 : Nat) :
    (s.raise op e r0 r1).bitEnd = s.bitEnd := rfl
@[simp] theorem State.raise_outBitpos (op : BitVec 8) (e : ErrCode) (r0 r1 : Nat) :
    (s.raise op e r0 r1).outBitpos = s.outBitpos := rfl
@[simp] theorem State.raise_raOffset (op : BitVec 8) (e : ErrCode) (r0 r1 : Nat) :
    (s.raise op e r0 r1).raOffset = s.raOffset := rfl
@[simp] theorem State.raise_raLength (op : BitVec 8) (e : ErrCode) (r0 r1 : Nat) :
    (s.raise op e r0 r1).raLength = s.raLength := rfl
@[simp] theorem State.raise_raCursor (op : BitVec 8) (e : ErrCode) (r0 r1 : Nat) :
    (s.raise op e r0 r1).raCursor = s.raCursor := rfl
@[simp] theorem State.raise_result0 (op : BitVec 8) (e : ErrCode) (r0 r1 : Nat) :
    (s.raise op e r0 r1).result0 = BitVec.ofNat 32 r0 := rfl
@[simp] theorem State.raise_result1 (op : BitVec 8) (e : ErrCode) (r0 r1 : Nat) :
    (s.raise op e r0 r1).result1 = BitVec.ofNat 32 r1 := rfl
@[simp] theorem State.raise_nleaves (op : BitVec 8) (e : ErrCode) (r0 r1 : Nat) :
    (s.raise op e r0 r1).nleaves = s.nleaves := rfl
@[simp] theorem State.raise_rootWeight (op : BitVec 8) (e : ErrCode) (r0 r1 : Nat) :
    (s.raise op e r0 r1).rootWeight = s.rootWeight := rfl
@[simp] theorem State.raise_maxlen (op : BitVec 8) (e : ErrCode) (r0 r1 : Nat) :
    (s.raise op e r0 r1).maxlen = s.maxlen := rfl
@[simp] theorem State.raise_freq (op : BitVec 8) (e : ErrCode) (r0 r1 : Nat) :
    (s.raise op e r0 r1).freq = s.freq := rfl
@[simp] theorem State.raise_code (op : BitVec 8) (e : ErrCode) (r0 r1 : Nat) :
    (s.raise op e r0 r1).code = s.code := rfl
@[simp] theorem State.raise_dmap (op : BitVec 8) (e : ErrCode) (r0 r1 : Nat) :
    (s.raise op e r0 r1).dmap = s.dmap := rfl
@[simp] theorem State.raise_tree (op : BitVec 8) (e : ErrCode) (r0 r1 : Nat) :
    (s.raise op e r0 r1).tree = s.tree := rfl
@[simp] theorem State.raise_mem (op : BitVec 8) (e : ErrCode) (r0 r1 : Nat) :
    (s.raise op e r0 r1).mem = s.mem := rfl
@[simp] theorem State.raise_cfg (op : BitVec 8) (e : ErrCode) (r0 r1 : Nat) :
    (s.raise op e r0 r1).cfg = s.cfg := rfl
@[simp] theorem State.raise_powerOn (op : BitVec 8) (e : ErrCode) (r0 r1 : Nat) :
    (s.raise op e r0 r1).powerOn = s.powerOn := rfl
@[simp] theorem State.raise_free (op : BitVec 8) (e : ErrCode) (r0 r1 : Nat) :
    (s.raise op e r0 r1).free = s.free := rfl
@[simp] theorem State.raise_host (op : BitVec 8) (e : ErrCode) (r0 r1 : Nat) :
    (s.raise op e r0 r1).host = s.host := rfl
@[simp] theorem State.raise_reply (op : BitVec 8) (e : ErrCode) (r0 r1 : Nat) :
    (s.raise op e r0 r1).reply = s.reply := rfl
@[simp] theorem State.raise_errorRecord (op : BitVec 8) (e : ErrCode) (r0 r1 : Nat) :
    (s.raise op e r0 r1).errorRecord = recordError e s.errorRecord := rfl

/-! ### The fields after a successful end -/

@[simp] theorem State.finish_irqEn (op : BitVec 8) (r0 r1 : Nat) :
    (s.finish op r0 r1).irqEn = s.irqEn := rfl
@[simp] theorem State.finish_running (op : BitVec 8) (r0 r1 : Nat) :
    (s.finish op r0 r1).running = none := rfl
@[simp] theorem State.finish_done (op : BitVec 8) (r0 r1 : Nat) :
    (s.finish op r0 r1).done = true := rfl
@[simp] theorem State.finish_error (op : BitVec 8) (r0 r1 : Nat) :
    (s.finish op r0 r1).error = .none := rfl
@[simp] theorem State.finish_lastOp (op : BitVec 8) (r0 r1 : Nat) :
    (s.finish op r0 r1).lastOp = op := rfl
@[simp] theorem State.finish_dictLoaded (op : BitVec 8) (r0 r1 : Nat) :
    (s.finish op r0 r1).dictLoaded = s.dictLoaded := rfl
@[simp] theorem State.finish_codesValid (op : BitVec 8) (r0 r1 : Nat) :
    (s.finish op r0 r1).codesValid = s.codesValid := rfl
@[simp] theorem State.finish_srcAddr (op : BitVec 8) (r0 r1 : Nat) :
    (s.finish op r0 r1).srcAddr = s.srcAddr := rfl
@[simp] theorem State.finish_srcLen (op : BitVec 8) (r0 r1 : Nat) :
    (s.finish op r0 r1).srcLen = s.srcLen := rfl
@[simp] theorem State.finish_dstAddr (op : BitVec 8) (r0 r1 : Nat) :
    (s.finish op r0 r1).dstAddr = s.dstAddr := rfl
@[simp] theorem State.finish_dstCap (op : BitVec 8) (r0 r1 : Nat) :
    (s.finish op r0 r1).dstCap = s.dstCap := rfl
@[simp] theorem State.finish_inBitpos (op : BitVec 8) (r0 r1 : Nat) :
    (s.finish op r0 r1).inBitpos = s.inBitpos := rfl
@[simp] theorem State.finish_bitEnd (op : BitVec 8) (r0 r1 : Nat) :
    (s.finish op r0 r1).bitEnd = s.bitEnd := rfl
@[simp] theorem State.finish_outBitpos (op : BitVec 8) (r0 r1 : Nat) :
    (s.finish op r0 r1).outBitpos = s.outBitpos := rfl
@[simp] theorem State.finish_raOffset (op : BitVec 8) (r0 r1 : Nat) :
    (s.finish op r0 r1).raOffset = s.raOffset := rfl
@[simp] theorem State.finish_raLength (op : BitVec 8) (r0 r1 : Nat) :
    (s.finish op r0 r1).raLength = s.raLength := rfl
@[simp] theorem State.finish_raCursor (op : BitVec 8) (r0 r1 : Nat) :
    (s.finish op r0 r1).raCursor = s.raCursor := rfl
@[simp] theorem State.finish_result0 (op : BitVec 8) (r0 r1 : Nat) :
    (s.finish op r0 r1).result0 = BitVec.ofNat 32 r0 := rfl
@[simp] theorem State.finish_result1 (op : BitVec 8) (r0 r1 : Nat) :
    (s.finish op r0 r1).result1 = BitVec.ofNat 32 r1 := rfl
@[simp] theorem State.finish_nleaves (op : BitVec 8) (r0 r1 : Nat) :
    (s.finish op r0 r1).nleaves = s.nleaves := rfl
@[simp] theorem State.finish_rootWeight (op : BitVec 8) (r0 r1 : Nat) :
    (s.finish op r0 r1).rootWeight = s.rootWeight := rfl
@[simp] theorem State.finish_maxlen (op : BitVec 8) (r0 r1 : Nat) :
    (s.finish op r0 r1).maxlen = s.maxlen := rfl
@[simp] theorem State.finish_freq (op : BitVec 8) (r0 r1 : Nat) :
    (s.finish op r0 r1).freq = s.freq := rfl
@[simp] theorem State.finish_code (op : BitVec 8) (r0 r1 : Nat) :
    (s.finish op r0 r1).code = s.code := rfl
@[simp] theorem State.finish_dmap (op : BitVec 8) (r0 r1 : Nat) :
    (s.finish op r0 r1).dmap = s.dmap := rfl
@[simp] theorem State.finish_tree (op : BitVec 8) (r0 r1 : Nat) :
    (s.finish op r0 r1).tree = s.tree := rfl
@[simp] theorem State.finish_mem (op : BitVec 8) (r0 r1 : Nat) :
    (s.finish op r0 r1).mem = s.mem := rfl
@[simp] theorem State.finish_cfg (op : BitVec 8) (r0 r1 : Nat) :
    (s.finish op r0 r1).cfg = s.cfg := rfl
@[simp] theorem State.finish_powerOn (op : BitVec 8) (r0 r1 : Nat) :
    (s.finish op r0 r1).powerOn = s.powerOn := rfl
@[simp] theorem State.finish_free (op : BitVec 8) (r0 r1 : Nat) :
    (s.finish op r0 r1).free = s.free := rfl
@[simp] theorem State.finish_host (op : BitVec 8) (r0 r1 : Nat) :
    (s.finish op r0 r1).host = s.host := rfl
@[simp] theorem State.finish_reply (op : BitVec 8) (r0 r1 : Nat) :
    (s.finish op r0 r1).reply = s.reply := rfl
@[simp] theorem State.finish_errorRecord (op : BitVec 8) (r0 r1 : Nat) :
    (s.finish op r0 r1).errorRecord = s.errorRecord := rfl

/-! ### The fields after taking the host's next interaction -/

@[simp] theorem State.takeAction_irqEn (rest : List HostAction) :
    (s.takeAction rest).irqEn = s.irqEn := rfl
@[simp] theorem State.takeAction_running (rest : List HostAction) :
    (s.takeAction rest).running = s.running := rfl
@[simp] theorem State.takeAction_done (rest : List HostAction) :
    (s.takeAction rest).done = s.done := rfl
@[simp] theorem State.takeAction_error (rest : List HostAction) :
    (s.takeAction rest).error = s.error := rfl
@[simp] theorem State.takeAction_lastOp (rest : List HostAction) :
    (s.takeAction rest).lastOp = s.lastOp := rfl
@[simp] theorem State.takeAction_dictLoaded (rest : List HostAction) :
    (s.takeAction rest).dictLoaded = s.dictLoaded := rfl
@[simp] theorem State.takeAction_codesValid (rest : List HostAction) :
    (s.takeAction rest).codesValid = s.codesValid := rfl
@[simp] theorem State.takeAction_srcAddr (rest : List HostAction) :
    (s.takeAction rest).srcAddr = s.srcAddr := rfl
@[simp] theorem State.takeAction_srcLen (rest : List HostAction) :
    (s.takeAction rest).srcLen = s.srcLen := rfl
@[simp] theorem State.takeAction_dstAddr (rest : List HostAction) :
    (s.takeAction rest).dstAddr = s.dstAddr := rfl
@[simp] theorem State.takeAction_dstCap (rest : List HostAction) :
    (s.takeAction rest).dstCap = s.dstCap := rfl
@[simp] theorem State.takeAction_inBitpos (rest : List HostAction) :
    (s.takeAction rest).inBitpos = s.inBitpos := rfl
@[simp] theorem State.takeAction_bitEnd (rest : List HostAction) :
    (s.takeAction rest).bitEnd = s.bitEnd := rfl
@[simp] theorem State.takeAction_outBitpos (rest : List HostAction) :
    (s.takeAction rest).outBitpos = s.outBitpos := rfl
@[simp] theorem State.takeAction_raOffset (rest : List HostAction) :
    (s.takeAction rest).raOffset = s.raOffset := rfl
@[simp] theorem State.takeAction_raLength (rest : List HostAction) :
    (s.takeAction rest).raLength = s.raLength := rfl
@[simp] theorem State.takeAction_raCursor (rest : List HostAction) :
    (s.takeAction rest).raCursor = s.raCursor := rfl
@[simp] theorem State.takeAction_result0 (rest : List HostAction) :
    (s.takeAction rest).result0 = s.result0 := rfl
@[simp] theorem State.takeAction_result1 (rest : List HostAction) :
    (s.takeAction rest).result1 = s.result1 := rfl
@[simp] theorem State.takeAction_nleaves (rest : List HostAction) :
    (s.takeAction rest).nleaves = s.nleaves := rfl
@[simp] theorem State.takeAction_rootWeight (rest : List HostAction) :
    (s.takeAction rest).rootWeight = s.rootWeight := rfl
@[simp] theorem State.takeAction_maxlen (rest : List HostAction) :
    (s.takeAction rest).maxlen = s.maxlen := rfl
@[simp] theorem State.takeAction_freq (rest : List HostAction) :
    (s.takeAction rest).freq = s.freq := rfl
@[simp] theorem State.takeAction_code (rest : List HostAction) :
    (s.takeAction rest).code = s.code := rfl
@[simp] theorem State.takeAction_dmap (rest : List HostAction) :
    (s.takeAction rest).dmap = s.dmap := rfl
@[simp] theorem State.takeAction_tree (rest : List HostAction) :
    (s.takeAction rest).tree = s.tree := rfl
@[simp] theorem State.takeAction_mem (rest : List HostAction) :
    (s.takeAction rest).mem = s.mem := rfl
@[simp] theorem State.takeAction_cfg (rest : List HostAction) :
    (s.takeAction rest).cfg = s.cfg := rfl
@[simp] theorem State.takeAction_powerOn (rest : List HostAction) :
    (s.takeAction rest).powerOn = s.powerOn := rfl
@[simp] theorem State.takeAction_free (rest : List HostAction) :
    (s.takeAction rest).free = s.free := rfl
@[simp] theorem State.takeAction_host (rest : List HostAction) :
    (s.takeAction rest).host = rest := rfl
@[simp] theorem State.takeAction_reply (rest : List HostAction) :
    (s.takeAction rest).reply = .nothing := rfl
@[simp] theorem State.takeAction_errorRecord (rest : List HostAction) :
    (s.takeAction rest).errorRecord = s.errorRecord := rfl

/-! ### The fields after the commit of a header -/

@[simp] theorem State.commitDictionary_irqEn (es : List HeaderEntry) (pos : Nat) :
    (s.commitDictionary es pos).irqEn = s.irqEn := rfl
@[simp] theorem State.commitDictionary_running (es : List HeaderEntry) (pos : Nat) :
    (s.commitDictionary es pos).running = s.running := rfl
@[simp] theorem State.commitDictionary_done (es : List HeaderEntry) (pos : Nat) :
    (s.commitDictionary es pos).done = s.done := rfl
@[simp] theorem State.commitDictionary_error (es : List HeaderEntry) (pos : Nat) :
    (s.commitDictionary es pos).error = s.error := rfl
@[simp] theorem State.commitDictionary_lastOp (es : List HeaderEntry) (pos : Nat) :
    (s.commitDictionary es pos).lastOp = s.lastOp := rfl
@[simp] theorem State.commitDictionary_dictLoaded (es : List HeaderEntry) (pos : Nat) :
    (s.commitDictionary es pos).dictLoaded = true := rfl
@[simp] theorem State.commitDictionary_codesValid (es : List HeaderEntry) (pos : Nat) :
    (s.commitDictionary es pos).codesValid = true := rfl
@[simp] theorem State.commitDictionary_srcAddr (es : List HeaderEntry) (pos : Nat) :
    (s.commitDictionary es pos).srcAddr = s.srcAddr := rfl
@[simp] theorem State.commitDictionary_srcLen (es : List HeaderEntry) (pos : Nat) :
    (s.commitDictionary es pos).srcLen = s.srcLen := rfl
@[simp] theorem State.commitDictionary_dstAddr (es : List HeaderEntry) (pos : Nat) :
    (s.commitDictionary es pos).dstAddr = s.dstAddr := rfl
@[simp] theorem State.commitDictionary_dstCap (es : List HeaderEntry) (pos : Nat) :
    (s.commitDictionary es pos).dstCap = s.dstCap := rfl
@[simp] theorem State.commitDictionary_inBitpos (es : List HeaderEntry) (pos : Nat) :
    (s.commitDictionary es pos).inBitpos = BitVec.ofNat 32 (8 * pos) := rfl
@[simp] theorem State.commitDictionary_bitEnd (es : List HeaderEntry) (pos : Nat) :
    (s.commitDictionary es pos).bitEnd = s.bitEnd := rfl
@[simp] theorem State.commitDictionary_outBitpos (es : List HeaderEntry) (pos : Nat) :
    (s.commitDictionary es pos).outBitpos = s.outBitpos := rfl
@[simp] theorem State.commitDictionary_raOffset (es : List HeaderEntry) (pos : Nat) :
    (s.commitDictionary es pos).raOffset = s.raOffset := rfl
@[simp] theorem State.commitDictionary_raLength (es : List HeaderEntry) (pos : Nat) :
    (s.commitDictionary es pos).raLength = s.raLength := rfl
@[simp] theorem State.commitDictionary_raCursor (es : List HeaderEntry) (pos : Nat) :
    (s.commitDictionary es pos).raCursor = s.raCursor := rfl
@[simp] theorem State.commitDictionary_result0 (es : List HeaderEntry) (pos : Nat) :
    (s.commitDictionary es pos).result0 = s.result0 := rfl
@[simp] theorem State.commitDictionary_result1 (es : List HeaderEntry) (pos : Nat) :
    (s.commitDictionary es pos).result1 = s.result1 := rfl
@[simp] theorem State.commitDictionary_nleaves (es : List HeaderEntry) (pos : Nat) :
    (s.commitDictionary es pos).nleaves = s.nleaves := rfl
@[simp] theorem State.commitDictionary_rootWeight (es : List HeaderEntry) (pos : Nat) :
    (s.commitDictionary es pos).rootWeight = s.rootWeight := rfl
@[simp] theorem State.commitDictionary_maxlen (es : List HeaderEntry) (pos : Nat) :
    (s.commitDictionary es pos).maxlen = BitVec.ofNat 4 (maxCodeLen (commitEntries es).2) := rfl
@[simp] theorem State.commitDictionary_freq (es : List HeaderEntry) (pos : Nat) :
    (s.commitDictionary es pos).freq = s.freq := rfl
@[simp] theorem State.commitDictionary_code (es : List HeaderEntry) (pos : Nat) :
    (s.commitDictionary es pos).code = (commitEntries es).2 := rfl
@[simp] theorem State.commitDictionary_dmap (es : List HeaderEntry) (pos : Nat) :
    (s.commitDictionary es pos).dmap = (commitEntries es).1 := rfl
@[simp] theorem State.commitDictionary_tree (es : List HeaderEntry) (pos : Nat) :
    (s.commitDictionary es pos).tree = s.tree := rfl
@[simp] theorem State.commitDictionary_mem (es : List HeaderEntry) (pos : Nat) :
    (s.commitDictionary es pos).mem = s.mem := rfl
@[simp] theorem State.commitDictionary_cfg (es : List HeaderEntry) (pos : Nat) :
    (s.commitDictionary es pos).cfg = s.cfg := rfl
@[simp] theorem State.commitDictionary_powerOn (es : List HeaderEntry) (pos : Nat) :
    (s.commitDictionary es pos).powerOn = s.powerOn := rfl
@[simp] theorem State.commitDictionary_free (es : List HeaderEntry) (pos : Nat) :
    (s.commitDictionary es pos).free = s.free := rfl
@[simp] theorem State.commitDictionary_host (es : List HeaderEntry) (pos : Nat) :
    (s.commitDictionary es pos).host = s.host := rfl
@[simp] theorem State.commitDictionary_reply (es : List HeaderEntry) (pos : Nat) :
    (s.commitDictionary es pos).reply = s.reply := rfl
@[simp] theorem State.commitDictionary_errorRecord (es : List HeaderEntry) (pos : Nat) :
    (s.commitDictionary es pos).errorRecord = s.errorRecord := rfl

end Sys2Proof.Machine
end

