-- ==== Sys2Proof/Laws/Commands.lean ====
section
/-! SUPPORT. The ways each command can end, said once: the proofs about a command cite its lemma and do
not unfold its meaning. -/

namespace Sys2Proof.Machine

theorem execCount_cases (s : State) :
    (∃ x i, countLoop s s.engine s.srcLen.toNat 0 (Table.fill 0) = .error (x, i) ∧
      exec .count s = .next (s.raise 0x01#8 x 0 i)) ∨
    (∃ t, countLoop s s.engine s.srcLen.toNat 0 (Table.fill 0) = .ok t ∧
      exec .count s = .next (({ s with freq := t.map (BitVec.ofNat 32) } : State).finish 0x01#8
        (t.entries.countP (fun e => decide (0 < e.2))) s.srcLen.toNat)) := by
  cases h : countLoop s s.engine s.srcLen.toNat 0 (Table.fill 0) with
  | error x => exact .inl ⟨x.1, x.2, rfl, by simp [exec, execCount, h, Instr.opcode]⟩
  | ok t => exact .inr ⟨t, rfl, by simp [exec, execCount, h, Instr.opcode]⟩

theorem execBuild_eq (s : State) :
    exec .build s = .next (({ s with
      code := Table.fill none
      codesValid := false
      tree := (buildTree s.freq).1
      nleaves := BitVec.ofNat 9 (leavesOf s.freq).length
      rootWeight := BitVec.ofNat 40 (buildTree s.freq).1.weight } : State).finish 0x02#8
        (leavesOf s.freq).length (buildTree s.freq).2) := rfl

theorem execAssign_cases (s : State) :
    (s.tree = .noTree ∧ exec .assign s = .next (s.raise 0x03#8 .noTree 0 0)) ∨
    (s.tree = .emptyTree ∧ exec .assign s = .next (s.assigned (Table.fill none))) ∨
    (∃ t c, s.tree = .built t ∧ codesOfTree t = .ok c ∧ exec .assign s = .next (s.assigned c)) ∨
    (∃ t b, s.tree = .built t ∧ codesOfTree t = .error b ∧
      exec .assign s = .next (({ s with
        code := Table.fill none, codesValid := false, maxlen := 0#4 } : State).raise
          0x03#8 .codeTooLong b.toNat 9)) := by
  cases ht : s.tree with
  | noTree => exact .inl ⟨rfl, by simp [exec, execAssign, ht, Instr.opcode]⟩
  | emptyTree => exact .inr (.inl ⟨rfl, by simp [exec, execAssign, ht]⟩)
  | built t =>
    cases hc : codesOfTree t with
    | ok c => exact .inr (.inr (.inl ⟨t, c, rfl, hc, by simp [exec, execAssign, ht, hc]⟩))
    | error b =>
      exact .inr (.inr (.inr ⟨t, b, rfl, hc, by
        simp [exec, execAssign, ht, hc, Instr.opcode, Config.maxCodeLen]⟩))

theorem execDictWrite_cases (f : SizeForm) (s : State) :
    (s.codesValid = false ∧ exec (.dictWrite f) s = .next (s.raise 0x04#8 .noCodes 0 0)) ∨
    (s.codesValid = true ∧ (dictWriteRun f s).err = .none ∧
      exec (.dictWrite f) s = .next (({ s with
        mem := (dictWriteRun f s).eng.mem
        outBitpos := BitVec.ofNat 32 (8 * (dictWriteRun f s).k) } : State).finish 0x04#8
          (dictWriteRun f s).k (codeEntries s.code).length)) ∨
    (s.codesValid = true ∧ (dictWriteRun f s).err ≠ .none ∧
      exec (.dictWrite f) s = .next (({ s with mem := (dictWriteRun f s).eng.mem } : State).raise
        0x04#8 (dictWriteRun f s).err (dictWriteRun f s).k (codeEntries s.code).length)) := by
  cases hv : s.codesValid with
  | false => exact .inl ⟨rfl, by simp [exec, execDictWrite, hv, Instr.opcode]⟩
  | true =>
    by_cases he : (dictWriteRun f s).err = .none
    · exact .inr (.inl ⟨rfl, he, by simp [exec, execDictWrite, hv, he, Instr.opcode]⟩)
    · exact .inr (.inr ⟨rfl, he, by simp [exec, execDictWrite, hv, he, Instr.opcode]⟩)

theorem execDictRead_cases (f : SizeForm) (s : State) :
    (∃ x, readHeader f s = .error x ∧
      exec (.dictRead f) s = .next (s.raise 0x05#8 x.err x.count x.pos)) ∨
    (∃ es pos, readHeader f s = .ok (es, pos) ∧
      exec (.dictRead f) s = .next ((s.commitDictionary es pos).finish 0x05#8 es.length pos)) := by
  cases h : readHeader f s with
  | error x => exact .inl ⟨x, rfl, by simp [exec, execDictRead, h, Instr.opcode]⟩
  | ok r => exact .inr ⟨r.1, r.2, rfl, by simp [exec, execDictRead, h, Instr.opcode]⟩

theorem execEncode_cases (s : State) :
    (s.codesValid = false ∧ exec .encode s = .next (s.raise 0x06#8 .noCodes 0 0)) ∨
    (s.codesValid = true ∧ s.overlap = true ∧
      exec .encode s = .next (s.raise 0x06#8 .regionOverlap 0 0)) ∨
    (s.codesValid = true ∧ s.overlap = false ∧ (encodeRun s).err = .none ∧
      exec .encode s = .next (({ s with
        mem := (encodeRun s).eng.mem
        outBitpos := BitVec.ofNat 32 (encodeRun s).q } : State).finish 0x06#8
          (encodeRun s).nbits ((encodeRun s).q / 8))) ∨
    (s.codesValid = true ∧ s.overlap = false ∧ (encodeRun s).err ≠ .none ∧
      exec .encode s = .next (({ s with mem := (encodeRun s).eng.mem } : State).raise 0x06#8
        (encodeRun s).err (encodeRun s).nbits (encodeRun s).i)) := by
  cases hv : s.codesValid with
  | false => exact .inl ⟨rfl, by simp [exec, execEncode, hv, Instr.opcode]⟩
  | true =>
    cases ho : s.overlap with
    | true => exact .inr (.inl ⟨rfl, rfl, by simp [exec, execEncode, hv, ho, Instr.opcode]⟩)
    | false =>
      by_cases he : (encodeRun s).err = .none
      · exact .inr (.inr (.inl ⟨rfl, rfl, he, by
          simp [exec, execEncode, hv, ho, he, Instr.opcode]⟩))
      · exact .inr (.inr (.inr ⟨rfl, rfl, he, by
          simp [exec, execEncode, hv, ho, he, Instr.opcode]⟩))

theorem execDecode_cases (s : State) :
    (s.dictLoaded = false ∧ exec .decode s = .next (s.raise 0x07#8 .notLoaded 0 0)) ∨
    (s.dictLoaded = true ∧ s.overlap = true ∧
      exec .decode s = .next (s.raise 0x07#8 .regionOverlap 0 0)) ∨
    (s.dictLoaded = true ∧ s.overlap = false ∧ (decodeRun s).err = .none ∧
      exec .decode s = .next (({ s with
        mem := (decodeRun s).eng.mem
        inBitpos := BitVec.ofNat 32 (decodeRun s).p } : State).finish 0x07#8
          (decodeRun s).k (decodeRun s).acc.len)) ∨
    (s.dictLoaded = true ∧ s.overlap = false ∧ (decodeRun s).err ≠ .none ∧
      exec .decode s = .next (({ s with mem := (decodeRun s).eng.mem } : State).raise 0x07#8
        (decodeRun s).err (decodeRun s).k (decodeRun s).p)) := by
  cases hv : s.dictLoaded with
  | false => exact .inl ⟨rfl, by simp [exec, execDecode, hv, Instr.opcode]⟩
  | true =>
    cases ho : s.overlap with
    | true => exact .inr (.inl ⟨rfl, rfl, by simp [exec, execDecode, hv, ho, Instr.opcode]⟩)
    | false =>
      by_cases he : (decodeRun s).err = .none
      · exact .inr (.inr (.inl ⟨rfl, rfl, he, by
          simp [exec, execDecode, hv, ho, he, Instr.opcode]⟩))
      · exact .inr (.inr (.inr ⟨rfl, rfl, he, by
          simp [exec, execDecode, hv, ho, he, Instr.opcode]⟩))

theorem execRaDecode_cases (s : State) :
    (s.dictLoaded = false ∧ exec .raDecode s = .next (s.raise 0x08#8 .notLoaded 0 0)) ∨
    (s.dictLoaded = true ∧ s.raLength = 0#32 ∧
      exec .raDecode s = .next (s.finish 0x08#8 0 0)) ∨
    (s.dictLoaded = true ∧ s.raLength ≠ 0#32 ∧ s.overlap = true ∧
      exec .raDecode s = .next (s.raise 0x08#8 .regionOverlap 0 0)) ∨
    (s.dictLoaded = true ∧ s.raLength ≠ 0#32 ∧ s.overlap = false ∧ (raRun s).err = .none ∧
      exec .raDecode s = .next (({ s with
        mem := (raRun s).eng.mem
        raCursor := BitVec.ofNat 32 (raRun s).p } : State).finish 0x08#8
          (raRun s).k (8 * (raRun s).k))) ∨
    (s.dictLoaded = true ∧ s.raLength ≠ 0#32 ∧ s.overlap = false ∧ (raRun s).err ≠ .none ∧
      exec .raDecode s = .next (({ s with
        mem := (raRun s).eng.mem
        raCursor := BitVec.ofNat 32 (raRun s).p } : State).raise 0x08#8
          (raRun s).err (raRun s).k (8 * (raRun s).k))) := by
  cases hv : s.dictLoaded with
  | false => exact .inl ⟨rfl, by simp [exec, execRaDecode, hv, Instr.opcode]⟩
  | true =>
    by_cases hl : s.raLength = 0#32
    · exact .inr (.inl ⟨rfl, hl, by simp [exec, execRaDecode, hv, hl, Instr.opcode]⟩)
    · cases ho : s.overlap with
      | true =>
        exact .inr (.inr (.inl ⟨rfl, hl, rfl, by
          simp [exec, execRaDecode, hv, hl, ho, Instr.opcode]⟩))
      | false =>
        by_cases he : (raRun s).err = .none
        · exact .inr (.inr (.inr (.inl ⟨rfl, hl, rfl, he, by
            simp [exec, execRaDecode, hv, hl, ho, he, Instr.opcode]⟩)))
        · exact .inr (.inr (.inr (.inr ⟨rfl, hl, rfl, he, by
            simp [exec, execRaDecode, hv, hl, ho, he, Instr.opcode]⟩)))

/-- `exec` neither faults nor refuses. -/
theorem exec_isNext (i : Instr) (s : State) : isNext (exec i s) = true := by
  cases i with
  | count => rcases execCount_cases s with ⟨_, _, _, h⟩ | ⟨_, _, h⟩ <;> rw [h] <;> rfl
  | build => rfl
  | assign =>
    rcases execAssign_cases s with ⟨_, h⟩ | ⟨_, h⟩ | ⟨_, _, _, _, h⟩ | ⟨_, _, _, _, h⟩ <;>
      rw [h] <;> rfl
  | dictWrite f =>
    rcases execDictWrite_cases f s with ⟨_, h⟩ | ⟨_, _, h⟩ | ⟨_, _, h⟩ <;> rw [h] <;> rfl
  | dictRead f => rcases execDictRead_cases f s with ⟨_, _, h⟩ | ⟨_, _, _, h⟩ <;> rw [h] <;> rfl
  | encode =>
    rcases execEncode_cases s with ⟨_, h⟩ | ⟨_, _, h⟩ | ⟨_, _, _, h⟩ | ⟨_, _, _, h⟩ <;>
      rw [h] <;> rfl
  | decode =>
    rcases execDecode_cases s with ⟨_, h⟩ | ⟨_, _, h⟩ | ⟨_, _, _, h⟩ | ⟨_, _, _, h⟩ <;>
      rw [h] <;> rfl
  | raDecode =>
    rcases execRaDecode_cases s with ⟨_, h⟩ | ⟨_, _, h⟩ | ⟨_, _, _, h⟩ | ⟨_, _, _, _, h⟩ |
      ⟨_, _, _, _, h⟩ <;> rw [h] <;> rfl
  | clear => rfl

/-! ### The register port -/

/-- Everything a register write at the port can do (10_state.md R22, R50). -/
theorem State.portWrite_cases (s : State) (r : Reg) (v : Word) :
    (s.busy = true ∧ s.portWrite r v = s) ∨
    (s.busy = false ∧ s.portWrite r v = s.writeReg r v) := by
  unfold State.portWrite
  cases s.busy <;> simp

/-- Everything a register read at the port can do (10_state.md R50, 20_memory.md R83). -/
theorem State.portRead_cases (s : State) (r : Reg) :
    (s.busy = true ∧ r ≠ .status ∧
      s.portRead r = { s with reply := .word (Config.busyRead s.free), free := s.free + 1 }) ∨
    ((s.busy = false ∨ r = .status) ∧
      s.portRead r = { s with reply := .word (s.readReg r) }) := by
  unfold State.portRead
  cases hb : s.busy <;> by_cases hr : r = .status <;> simp [hr]

end Sys2Proof.Machine
end

