-- ==== Sys2Proof/Laws/PerInstr.lean ====
section
/-! SUPPORT. Facts about every command as syntax, one lemma for each constructor of `Instr`. -/

namespace Sys2Proof.Laws.EncodesWellFormed

/-- The fields the encoder gives a command pass every check of a legal word (30_encoding.md R100 to
R103), and the encoder puts each of them at its bits. -/
def Statement (i : Instr) : Prop :=
  i.fields.wellFormed = true ∧ CommandFields.ofWord (encode i) = i.fields

theorem count : Statement .count := ⟨by decide, by decide⟩
theorem build : Statement .build := ⟨by decide, by decide⟩
theorem assign : Statement .assign := ⟨by decide, by decide⟩
theorem dictWrite (f : SizeForm) : Statement (.dictWrite f) := by cases f <;> exact ⟨by decide, by decide⟩
theorem dictRead (f : SizeForm) : Statement (.dictRead f) := by cases f <;> exact ⟨by decide, by decide⟩
theorem encode : Statement .encode := ⟨by decide, by decide⟩
theorem decode : Statement .decode := ⟨by decide, by decide⟩
theorem raDecode : Statement .raDecode := ⟨by decide, by decide⟩
theorem clear : Statement .clear := ⟨by decide, by decide⟩

end Sys2Proof.Laws.EncodesWellFormed
end

