-- ==== Sys2Proof/Tests/Slice0.lean ====
section
/-! SUPPORT. Tests of the model, with expected results from spec/95_test_vectors.md or worked out by hand
from the rules named, and a witness for the hypotheses of each statement. -/

set_option Elab.async false

namespace Sys2Proof.Machine.Tests

open Sys2Proof Sys2Proof.Machine

/-! ### Small states -/

/-- The state an outcome leads to. -/
def after (o : Host.Outcome State Fault Refusal) : State :=
  match o with
  | .next t => t
  | .fault _ => State.reset
  | .refused _ => State.reset

theorem exec_after (i : Instr) (s : State) : exec i s = .next (after (exec i s)) := by
  have h := exec_isNext i s
  revert h
  cases exec i s <;> simp [isNext, after]

/-- Bytes from address `a` on. -/
def bytesAt (a : Nat) (bs : List Nat) : Memory :=
  bs.zipIdx.map (fun e => (a + e.2, BitVec.ofNat 8 e.1))

/-- FREQ with these entries. -/
def freqOf (l : List (Byte × Nat)) : Table Word :=
  l.foldl (fun t e => t.write e.1 (BitVec.ofNat 32 e.2)) (Table.fill 0#32)

/-- CODE with these entries. -/
def codesOf (l : List (Byte × Code)) : Table (Option Code) :=
  l.foldl (fun t e => t.write e.1 (some e.2)) (Table.fill none)

/-- DMAP with these entries. -/
def dmapOf (l : List (Code × Byte)) : DecodeMap :=
  l.foldl (fun t e => t.write e.1 e.2) DecodeMap.empty

/-- The source bytes "aab" at 0 and eight zero bytes at 0x10, the destination. -/
def aab : State :=
  { State.reset with
    mem := bytesAt 0 [0x61, 0x61, 0x62] ++ bytesAt 0x10 [0, 0, 0, 0, 0, 0, 0, 0]
    srcLen := 3#32, dstAddr := 0x10#32, dstCap := 8#32 }

/-- The tree of "aab" (T-BUILD-5). -/
def aabTree : CodeTree := .node (.leaf 0x62#8 1) (.leaf 0x61#8 2)

/-- "aab" counted and built. -/
def aabBuilt : State :=
  { aab with
    freq := freqOf [(0x61#8, 2), (0x62#8, 1)]
    tree := .built aabTree, nleaves := 2#9, rootWeight := 3#40 }

/-- "aab" with its codes (T-ASSIGN-2): b (1, 0), a (1, 1). -/
def aabCoded : State :=
  { aabBuilt with
    code := codesOf [(0x61#8, ⟨1, 1#8⟩), (0x62#8, ⟨1, 0#8⟩)], codesValid := true, maxlen := 1#4 }

/-- A decoder with the codes of "aab" loaded, and the payload bits 110 with five padding zeros at 0. -/
def aabLoaded : State :=
  { aab with
    mem := bytesAt 0 [0xC0] ++ bytesAt 0x10 [0, 0, 0, 0, 0, 0, 0, 0], srcLen := 1#32
    bitEnd := 3#32, raLength := 16#32
    dmap := dmapOf [(⟨1, 1#8⟩, 0x61#8), (⟨1, 0#8⟩, 0x62#8)], dictLoaded := true }

/-- A decoder whose one Code is (2, 3), with two bytes of source (T-DEC-4, T-DEC-5). -/
def oneCode (c : Nat) : State :=
  { aab with
    mem := bytesAt 0 [c, 0] ++ bytesAt 0x10 [0, 0], srcLen := 2#32, raLength := 16#32
    dmap := dmapOf [(⟨2, 3#8⟩, 0x7A#8)], dictLoaded := true }

/-- A header at address 0. -/
def header (bs : List Nat) : State :=
  { State.reset with mem := bytesAt 0 bs, srcLen := BitVec.ofNat 32 bs.length }

/-- The absorb chain of T-BUILD-8, `n + 1` leaves deep `n` (T-ASSIGN-5 for `n = 9`). -/
def chain : Nat → CodeTree
  | 0 => .leaf 0#8 1
  | n + 1 => .node (chain n) (.leaf (BitVec.ofNat 8 (n + 1)) (2 ^ n))

/-! ### Well-formedness: each check refuses a term -/

theorem smoke_op_zero : ({ op := 0x00#8, f := false, zero := 0#23 } : CommandFields).opListed = false := by decide
theorem smoke_op_unlisted : ({ op := 0x0A#8, f := false, zero := 0#23 } : CommandFields).wellFormed = false := by decide
theorem smoke_reserved_bits : ({ op := 0x01#8, f := false, zero := 1#23 } : CommandFields).wellFormed = false := by decide
theorem smoke_form_on_plain_op : ({ op := 0x01#8, f := true, zero := 0#23 } : CommandFields).wellFormed = false := by decide

/-! ### Decoding, each word written out bit by bit from 30_encoding.md R100 and R102: bits 31:9, F, OP -/

theorem test_decode_count : decodeWord 0b00000000000000000000000_0_00000001#32 = .command .count := by decide
theorem test_decode_build : decodeWord 0b00000000000000000000000_0_00000010#32 = .command .build := by decide
theorem test_decode_assign : decodeWord 0b00000000000000000000000_0_00000011#32 = .command .assign := by decide
theorem test_decode_dictWrite_f0 : decodeWord 0b00000000000000000000000_0_00000100#32 = .command (.dictWrite .oneByte) := by decide
theorem test_decode_dictWrite_f1 : decodeWord 0b00000000000000000000000_1_00000100#32 = .command (.dictWrite .twoByte) := by decide
theorem test_decode_dictRead_f0 : decodeWord 0b00000000000000000000000_0_00000101#32 = .command (.dictRead .oneByte) := by decide
theorem test_decode_dictRead_f1 : decodeWord 0b00000000000000000000000_1_00000101#32 = .command (.dictRead .twoByte) := by decide
theorem test_decode_encode : decodeWord 0b00000000000000000000000_0_00000110#32 = .command .encode := by decide
theorem test_decode_decode : decodeWord 0b00000000000000000000000_0_00000111#32 = .command .decode := by decide
theorem test_decode_raDecode : decodeWord 0b00000000000000000000000_0_00001000#32 = .command .raDecode := by decide
theorem test_decode_clear : decodeWord 0b00000000000000000000000_0_00001001#32 = .command .clear := by decide
theorem test_decode_reserved : decodeWord 0b00000000000000000000001_0_00000001#32 = .illegal .reservedBits := by decide
theorem test_decode_form : decodeWord 0b00000000000000000000000_1_00000001#32 = .illegal .formOnPlainOp := by decide
theorem test_decode_op : decodeWord 0b00000000000000000000000_0_00001010#32 = .illegal .unlistedOp := by decide

/-! ### One step of each command -/

/-- T-COUNT-1. -/
theorem test_count :
    (after (exec .count aab)).freq.read 0x61#8 = 2#32 ∧ (after (exec .count aab)).result0 = 2#32 ∧
    (after (exec .count aab)).statusWord = 0x00010002#32 := by decide +kernel
/-- As T-COUNT-4: the source runs out of M at its byte 6, and FREQ is kept. -/
theorem test_count_bounds :
    let s := { aabBuilt with mem := bytesAt 4090 [1, 2, 3, 4, 5, 6], srcAddr := 4090#32, srcLen := 10#32 }
    (after (exec .count s)).result1 = 6#32 ∧ (after (exec .count s)).freq.read 0x61#8 = 2#32 ∧
    (after (exec .count s)).error = .ioBounds := by decide +kernel
/-- T-BUILD-3: a carry, and the level [2, 1] is not sorted again. -/
theorem test_build_carry :
    (after (exec .build { aab with freq := freqOf [(0x61#8, 1), (0x62#8, 1), (0x63#8, 1)] })).tree =
      .built (.node (.node (.leaf 0x61#8 1) (.leaf 0x62#8 1)) (.leaf 0x63#8 1)) := by decide +kernel
/-- T-BUILD-1, first level: an absorb on equal weights. -/
theorem test_level_absorb :
    levelPass [.leaf 0x6D#8 1, .leaf 0x76#8 1, .leaf 0x70#8 2, .leaf 0x72#8 2, .leaf 0x73#8 4] =
      [.node (.node (.leaf 0x6D#8 1) (.leaf 0x76#8 1)) (.leaf 0x70#8 2),
       .node (.leaf 0x72#8 2) (.leaf 0x73#8 4)] := by decide
/-- T-ASSIGN-2, "aab". -/
theorem test_assign :
    (after (exec .assign aabBuilt)).code.read 0x61#8 = some ⟨1, 1#8⟩ ∧
    (after (exec .assign aabBuilt)).code.read 0x62#8 = some ⟨1, 0#8⟩ := by decide +kernel
/-- T-ASSIGN-5: the lowest byte value deeper than 8. -/
theorem test_assign_too_long :
    codesOfTree (chain 9) = .error 0#8 ∧ codeOf (chain 8) 1#8 0 0#8 = some ⟨8, 0x80#8⟩ := by
  exact ⟨rfl, by decide⟩
/-- The header of "aab" by R162, and the cursor after it (R163). -/
theorem test_dictWrite :
    let t := after (exec (.dictWrite .oneByte) aabCoded)
    (List.range 7).map (fun k => t.byteAt (0x10 + k)) =
      [0x01#8, 0x01#8, 0x01#8, 0x61#8, 0x01#8, 0x00#8, 0x62#8] ∧ t.outBitpos = 56#32 := by
  decide +kernel
/-- As T-DW-5: a short destination keeps the bytes that fitted. -/
theorem test_dictWrite_bounds :
    let t := after (exec (.dictWrite .twoByte) { aabCoded with dstCap := 3#32 })
    t.byteAt 0x11 = 0x02#8 ∧ t.result0 = 3#32 ∧ t.result1 = 2#32 ∧ t.error = .ioBounds ∧
    t.outBitpos = 0#32 := by decide +kernel
/-- T-DR-6: an unmatchable entry is skipped. -/
theorem test_dictRead_skips :
    let t := after (exec (.dictRead .oneByte) (header [0x01, 0x00, 0x05, 0x41, 0x02, 0x03, 0x7A]))
    t.code.read 0x41#8 = none ∧ t.code.read 0x7A#8 = some ⟨2, 3#8⟩ ∧ t.maxlen = 2#4 ∧
    t.inBitpos = 56#32 := by decide +kernel
/-- T-DR-4: a one-byte source in the two-byte form. -/
theorem test_dictRead_malformed :
    let t := after (exec (.dictRead .twoByte) (header [0x00]))
    t.error = .malformedHeader ∧ t.result0 = 0#32 ∧ t.result1 = 1#32 ∧ t.dictLoaded = false := by
  decide +kernel
/-- T-ENC-2: an unaligned start keeps the bits before it. -/
theorem test_encode_unaligned :
    let t := after (exec .encode
      { aabCoded with mem := bytesAt 0 [0x61, 0x61, 0x62] ++ bytesAt 0x10 [0xFF], outBitpos := 3#32 })
    t.byteAt 0x10 = 0xF8#8 ∧ t.outBitpos = 8#32 ∧ t.result0 = 3#32 := by decide +kernel
/-- T-ENC-4: a byte with no Code ends ENCODE after two bits, with no padding. -/
theorem test_encode_uncoded :
    let t := after (exec .encode
      { aabCoded with mem := bytesAt 0 [0x61, 0x62, 0x63] ++ bytesAt 0x10 [0x00] })
    t.byteAt 0x10 = 0x80#8 ∧ t.error = .symbolUncoded ∧ t.result0 = 2#32 ∧ t.result1 = 2#32 := by
  decide +kernel
/-- "aab" back from the bits 110 (R182). -/
theorem test_decode :
    let t := after (exec .decode aabLoaded)
    (List.range 3).map (fun k => t.byteAt (0x10 + k)) = [0x61#8, 0x61#8, 0x62#8] ∧
    t.inBitpos = 3#32 ∧ t.result0 = 3#32 := by decide +kernel
/-- As T-DEC-4: eight bits match nothing. -/
theorem test_decode_overlong :
    let t := after (exec .decode (oneCode 0))
    t.error = .decodeOverlong ∧ t.result1 = 8#32 ∧ t.inBitpos = 0#32 := by decide +kernel
/-- As T-RA-1: a window from the middle; IN_BITPOS stays. -/
theorem test_raDecode :
    let t := after (exec .raDecode { aabLoaded with raOffset := 1#32, raLength := 20#32 })
    t.byteAt 0x10 = 0x61#8 ∧ t.byteAt 0x11 = 0x62#8 ∧ t.raCursor = 3#32 ∧ t.result1 = 16#32 ∧
    t.inBitpos = 0#32 := by decide +kernel
/-- As T-RA-2: the region ends before the second symbol. -/
theorem test_raDecode_truncated :
    let t := after (exec .raDecode { aabLoaded with raOffset := 7#32 })
    t.error = .raTruncated ∧ t.result0 = 1#32 ∧ t.raCursor = 8#32 := by decide +kernel
/-- T-CLR-1, in part. -/
theorem test_clear :
    (after (exec .clear aabCoded)).statusWord = 0x00090002#32 ∧
    (after (exec .clear aabCoded)).code.read 0x61#8 = none := by decide +kernel
/-- T-ILL-2 and T-REG-2: an illegal word, then the acknowledgement. -/
theorem test_illegal :
    (State.reset.illegalCommand 0x00000101#32).statusWord = 0x00010106#32 ∧
    ((State.reset.illegalCommand 0x00000101#32).acknowledge 2#32).statusWord = 0x00010104#32 := by
  decide
/-- T-REG-1. -/
theorem test_registers :
    State.reset.readReg (regAt 0x000#12) = 0x48554631#32 ∧
    State.reset.readReg (regAt 0x050#12) = 0#32 ∧
    (State.reset.writeReg (regAt 0x800#12) 0x12345678#32).readReg (regAt 0x800#12) = 0#32 := by
  decide +kernel
/-- A CMD write, a STATUS read while BUSY, and the wait: BUSY shows 1, then T-ASSIGN-8's STATUS. -/
theorem test_busy_then_done :
    let s0 := { State.reset with host :=
      [.regWrite 0x008#12 .word 3#32, .regRead 0x00C#12 .word, .wait] }
    (after (step (after (step s0)))).reply = .word 0x00000001#32 ∧
    (after (step (after (step (after (step s0)))))).statusWord = 0x00030406#32 := by decide +kernel
/-- R50: while BUSY a STATUS write does not acknowledge; the block idle again, it does (R29). -/
theorem test_busy_status_write :
    let s := { aab with
      done := true, running := some 9#32, host := [.regWrite 0x00C#12 .word 2#32] }
    (after (step s)).done = true ∧
    (after (step { s with running := none })).done = false := by decide +kernel
/-- Reset during a command leaves no completion and keeps M outside the destination (R240, R242). -/
theorem test_reset_during_command :
    let t := after (step { aabCoded with running := some 6#32, host := [.reset] })
    t.statusWord = 0#32 ∧ t.running = none ∧ t.code.read 0x61#8 = none ∧
    t.bitEnd = 0xFFFFFFFF#32 := by decide +kernel

/-! ### Witnesses: for each statement's hypotheses a state that meets them -/

/-- "aab" coded, with a destination of `cap` bytes. -/
def aabTo (cap : Nat) : State := { aabCoded with dstCap := BitVec.ofNat 32 cap }

/-- A source region that runs out of M after `bs`, which ends at the last byte of M; the region is one
byte longer. -/
def atTheEnd (bs : List Nat) (s : State) : State :=
  { s with
    mem := bytesAt 0x10 [0, 0, 0, 0, 0, 0, 0, 0] ++ bytesAt (4096 - bs.length) bs
    srcAddr := BitVec.ofNat 32 (4096 - bs.length), srcLen := BitVec.ofNat 32 (bs.length + 1) }

/-- The engine of "aab" at work on command word `w`, with the host's next interaction. -/
def busyWith (w : Word) (a : HostAction) : State :=
  { aabCoded with running := some w, host := [a] }

/-- The idle block with the host's next interaction. -/
def idleWith (a : HostAction) : State := { aabCoded with host := [a] }

theorem apart_of (s : State) (h : s.srcAddr.toNat + s.srcLen.toNat ≤ s.dstAddr.toNat ∨
    s.dstAddr.toNat + s.dstCap.toNat ≤ s.srcAddr.toNat ∨ s.srcLen.toNat = 0) :
    ¬ s.regionsMeet := by
  rintro ⟨a, ha⟩
  omega

theorem inv_aabBuilt : Inv aabBuilt where
  cfgLegal := by decide
  memCanonical := by decide
  memInside := by decide
  codeMatchable := by
    intro b k h
    have := (by decide +kernel : ∀ n < 256, (aabBuilt.code.read (BitVec.ofNat 8 n)) = none)
      b.toNat b.isLt
    simp [h] at this
  codesOff := fun _ => rfl
  dictOff := fun _ => rfl
  treeWellFormed := by
    intro t h
    obtain rfl : t = aabTree := by cases h; rfl
    exact ⟨by decide, by decide⟩
  leafCount := by decide
  rootWeight := by decide
  maxlenBound := by decide
  maxlenOfCodes := fun h => Bool.noConfusion h

theorem inv_aabTo (cap : Nat) : Inv (aabTo cap) where
  cfgLegal := inv_aabBuilt.cfgLegal
  memCanonical := inv_aabBuilt.memCanonical
  memInside := inv_aabBuilt.memInside
  codeMatchable := by
    intro b k h
    have := (by decide +kernel :
      ∀ n < 256, (aabCoded.code.read (BitVec.ofNat 8 n)).all Code.matchable = true) b.toNat b.isLt
    rw [BitVec.ofNat_toNat, BitVec.setWidth_eq, show aabCoded.code.read b = some k from h] at this
    exact this
  codesOff := fun h => Bool.noConfusion h
  dictOff := fun _ => rfl
  treeWellFormed := inv_aabBuilt.treeWellFormed
  leafCount := inv_aabBuilt.leafCount
  rootWeight := inv_aabBuilt.rootWeight
  maxlenBound := show (1#4).toNat ≤ 8 by decide
  maxlenOfCodes := fun _ => show (1#4).toNat = maxCodeLen aabCoded.code by decide +kernel

/-! #### Encoding, the step, reset, the invariant -/

theorem witness_DecodeAgreesWithEncode :
    decodeWord 0x00000105#32 = .command (.dictRead .twoByte) := by decide
theorem witness_IllegalWordWritesStatusOnly :
    decodeWord 0x00000000#32 = .illegal .unlistedOp ∧
    decodeWord 0x000000FF#32 = .illegal .unlistedOp ∧
    decodeWord 0x80000001#32 = .illegal .reservedBits ∧
    decodeWord 0x00000103#32 = .illegal .formOnPlainOp ∧
    decodeWord 0x00000106#32 = .illegal .formOnPlainOp := by decide
theorem witness_StepRunsTheDecodedCommand :
    decodeWord 9#32 = .command .clear ∧ decodeTableWord 32 0x105 = some (.dictRead .twoByte) ∧
    (∃ s : State, s.running = some 9#32 ∧ s.host = []) ∧
    (busyWith 9#32 .wait).running = some 9#32 ∧ (busyWith 9#32 .wait).host = [.wait] :=
  ⟨by decide, by decide, ⟨{ aab with running := some 9#32 }, rfl, rfl⟩, rfl, rfl⟩
theorem witness_CmdWriteStartsTheCommand :
    ∃ s : State, s.running = none ∧ s.host = [.regWrite 0x008#12 .word 9#32, .wait] :=
  ⟨{ aab with host := [.regWrite 0x008#12 .word 9#32, .wait] }, rfl, rfl⟩
theorem witness_IdleBlockHoldsItsState :
    aab.running = none ∧ aab.host = [] ∧ (idleWith .wait).running = none ∧
    (idleWith .wait).host = [.wait] := ⟨rfl, rfl, rfl, rfl⟩
theorem witness_ResetEndsARunningCommand :
    (busyWith 6#32 .reset).host = [.reset] ∧
    ((busyWith 6#32 .reset).takeAction []).trail ≠ [] ∧
    (idleWith .reset).running = none := ⟨rfl, by decide +kernel, rfl⟩
theorem witness_TrailIsWhatTheCommandWrites :
    ∃ t, exec .encode aabCoded = .next t ∧ commandTrail .encode aabCoded ≠ [] :=
  ⟨_, exec_after _ _, by decide +kernel⟩
theorem witness_ResetMeetsTheInvariant :
    Config.legal { memBytes := 1 } ∧ Config.legal { memBytes := 2 ^ 29 - 1 } ∧
    ¬ Config.legal { memBytes := 2 ^ 29 } := by decide
theorem witness_StepKeepsTheInvariant :
    ∃ s t, Inv s ∧ step s = .next t ∧ s.running = some 6#32 :=
  ⟨{ aabTo 8 with running := some 6#32 }, _, { inv_aabTo 8 with },
    exec_after .encode { aabTo 8 with running := some 6#32 }, rfl⟩

/-! #### Every command -/

theorem witness_CommandsKeepTheHostsRegisters (i : Instr) : ∃ t, exec i aabCoded = .next t :=
  ⟨_, exec_after _ _⟩
theorem witness_CursorsHaveTheirWriters :
    (after (exec .decode aabLoaded)).inBitpos ≠ aabLoaded.inBitpos ∧
    (after (exec (.dictRead .oneByte) (header [0, 1, 0, 0x41]))).inBitpos ≠ 0#32 ∧
    (after (exec .encode aabCoded)).outBitpos ≠ aabCoded.outBitpos ∧
    (after (exec (.dictWrite .oneByte) aabCoded)).outBitpos ≠ aabCoded.outBitpos ∧
    (after (exec .raDecode aabLoaded)).raCursor ≠ aabLoaded.raCursor := by decide +kernel
theorem witness_TablesHaveTheirWriters :
    (after (exec .assign aabBuilt)).codesValid ≠ aabBuilt.codesValid ∧
    (after (exec .build aabCoded)).codesValid ≠ aabCoded.codesValid ∧
    (after (exec (.dictRead .oneByte) (header [0, 1, 0, 0x41]))).dictLoaded ≠ false ∧
    (after (exec .clear aabLoaded)).dictLoaded ≠ aabLoaded.dictLoaded ∧
    (after (exec .clear aabCoded)).nleaves ≠ aabCoded.nleaves := by decide +kernel
theorem witness_StoresStayInTheDestination :
    (after (exec (.dictWrite .oneByte) aabCoded)).byteAt 0x10 ≠ aabCoded.byteAt 0x10 ∧
    (after (exec .encode aabCoded)).byteAt 0x10 ≠ aabCoded.byteAt 0x10 ∧
    (after (exec .decode aabLoaded)).byteAt 0x12 ≠ aabLoaded.byteAt 0x12 ∧
    (after (exec .raDecode aabLoaded)).byteAt 0x11 ≠ aabLoaded.byteAt 0x11 := by decide +kernel
theorem witness_ErrorsKeepTheTables :
    (after (exec .encode (aabTo 0))).error = .ioBounds ∧
    (after (exec .assign { aabCoded with tree := .built (chain 9) })).error = .codeTooLong := by
  decide +kernel
theorem witness_PreconditionErrorsComeInOrder :
    aab.tree = .noTree ∧ aab.codesValid = false ∧ aab.dictLoaded = false ∧
    aabLoaded.dictLoaded = true ∧ { aabLoaded with raLength := 0#32 }.raLength = 0#32 ∧
    aabLoaded.raLength ≠ 0#32 := by decide
theorem witness_PreconditionErrorsComeInOrder_overlap :
    State.regionsMeet { aabCoded with dstAddr := 2#32 } ∧
    State.regionsMeet { aabLoaded with dstAddr := 0#32 } ∧
    ¬ State.regionsMeet { aabCoded with dstAddr := 3#32 } :=
  ⟨⟨2, by decide⟩, ⟨0, by decide⟩, apart_of _ (by decide)⟩

/-! #### The compressor's commands -/

theorem witness_CountCountsTheSourceBytes :
    aab.srcReadable = aab.srcLen.toNat ∧
    (atTheEnd [0x61] aab).srcReadable ≠ (atTheEnd [0x61] aab).srcLen.toNat := by decide +kernel
theorem witness_BuildMakesTheLevelPasses :
    (after (exec .build aab)).tree = .emptyTree ∧
    (after (exec .build { aab with freq := freqOf [(0xFF#8, 1)] })).tree = .built (.leaf 0xFF#8 1) ∧
    (after (exec .build aabBuilt)).result1 = 1#32 := by decide +kernel
theorem witness_BuildTerminates :
    2 ≤ [CodeTree.leaf 0#8 1, .leaf 1#8 1].length ∧
    (after (exec .build aabBuilt)).tree = .built aabTree := by decide +kernel
theorem witness_RootWeightIsTheSumOfFreq :
    ∃ u t, exec .count aab = .next u ∧ u.error = .none ∧ exec .build u = .next t :=
  ⟨_, _, exec_after _ _, by decide +kernel, exec_after _ _⟩
theorem witness_AssignGivesEachLeafItsPath :
    aab.tree = .noTree ∧
    State.tree { aab with tree := .emptyTree } = .emptyTree ∧
    State.tree { aab with tree := .built (.leaf 0xFF#8 1) } = .built (.leaf 0xFF#8 1) ∧
    (∃ l r, chain 8 = .node l r ∧ ((CodeTree.node l r).leaves.map Prod.fst).Nodup ∧
      (CodeTree.node l r).depth = 8) ∧
    (∃ l r, chain 9 = .node l r ∧ ((CodeTree.node l r).leaves.map Prod.fst).Nodup ∧
      (CodeTree.node l r).depth = 9) :=
  ⟨rfl, rfl, rfl, ⟨_, _, rfl, by decide, by decide⟩, ⟨_, _, rfl, by decide, by decide⟩⟩
theorem witness_AssignedCodesArePrefixFree :
    ∃ t l r, Inv aabBuilt ∧ aabBuilt.tree = .built (.node l r) ∧
      exec .assign aabBuilt = .next t ∧ t.error = .none ∧
      t.code.read 0x61#8 = some ⟨1, 1#8⟩ ∧ t.code.read 0x62#8 = some ⟨1, 0#8⟩ :=
  ⟨_, _, _, inv_aabBuilt, rfl, exec_after _ _, by decide +kernel⟩
theorem witness_AssignedCodesArePrefixFree_payload :
    ∀ b, (aabBuilt.freq.read b).toNat = [0x61#8, 0x61#8, 0x62#8].count b := by decide +kernel
theorem witness_DictWriteWritesTheHeader :
    aab.codesValid = false ∧ aabCoded.codesValid = true ∧ (headerOf .oneByte aabCoded.code).length = (aabTo 7).dstWritable ∧
    (aabTo 6).dstWritable < (headerOf .oneByte aabCoded.code).length := by decide +kernel
theorem witness_DictReadLoadsTheHeader :
    let es : List HeaderEntry := [⟨5#8, 0#8, 0x41#8⟩, ⟨0#8, 0#8, 0x42#8⟩, ⟨5#8, 0#8, 0x43#8⟩]
    let s := header [2, 5, 0, 0x41, 0, 0, 0x42, 5, 0, 0x43]
    es.length ≤ formCapacity .oneByte ∧ (rawHeader .oneByte es).length ≤ s.srcReadable ∧
    s.sourceBytes.take (rawHeader .oneByte es).length = rawHeader .oneByte es := by decide +kernel
theorem witness_DictReadLoadsTheHeader_empty :
    State.reset.srcLen = 0#32 ∧ (rawHeader .oneByte []).length ≤ State.reset.srcReadable ∧
    (rawHeader .twoByte []).length ≤ (header [0, 0]).srcReadable ∧
    (header [0, 0]).sourceBytes.take (rawHeader .twoByte []).length = rawHeader .twoByte [] := by
  decide +kernel
theorem witness_DictReadStopsWhereTheHeaderEnds :
    (atTheEnd [] aab).srcLen ≠ 0#32 ∧ (atTheEnd [] aab).srcReadable = 0 ∧
    0 < (header [0, 1, 0]).srcReadable ∧
    (header [0, 1, 0]).srcReadable < 1 + 3 * (((header [0, 1, 0]).srcAt 0).toNat + 1) ∧
    (header [0]).srcReadable < 2 ∧
    2 ≤ (header [0, 1, 8, 0]).srcReadable ∧
    (header [0, 1, 8, 0]).srcReadable <
      2 + 3 * (256 * ((header [0, 1, 8, 0]).srcAt 0).toNat + ((header [0, 1, 8, 0]).srcAt 1).toNat) := by
  decide +kernel
theorem witness_DictReadFailsAtomically :
    (after (exec (.dictRead .twoByte) (header [0]))).error = .malformedHeader ∧
    (after (exec (.dictRead .twoByte) (atTheEnd [0] aab))).error = .ioBounds := by decide +kernel
theorem witness_DictReadOfAnEmptyBlob :
    State.reset.srcLen = 0#32 ∧ State.reset.srcReadable = State.reset.srcLen.toNat ∧
    (header [0xFF]).srcLen = 1#32 ∧ (header [0xFF]).srcReadable = 1 := by decide +kernel
theorem witness_DictReadIsIdempotent :
    let s := header [0, 1, 0, 0x41]
    let s' := { aabCoded with mem := s.mem, srcAddr := s.srcAddr, srcLen := s.srcLen }
    s'.srcLen = s.srcLen ∧ s'.srcReadable = s.srcReadable ∧ s'.sourceBytes = s.sourceBytes ∧
    (after (exec (.dictRead .oneByte) s)).error = .none := by decide +kernel
theorem witness_HeaderWrittenIsHeaderRead (f : SizeForm) :
    ∃ c d, Inv aabBuilt ∧ exec .assign aabBuilt = .next c ∧ c.error = .none ∧
      exec (.dictWrite f) { c with dstAddr := 0x10#32, dstCap := 8#32 } = .next d ∧
      d.error = .none :=
  ⟨_, _, inv_aabBuilt, exec_after _ _, by decide +kernel, exec_after _ _, by
    cases f <;> decide +kernel⟩
theorem witness_EncodeWritesThePayload :
    (aabTo 1).cfg.legal ∧ (aabTo 1).codesValid = true ∧ ¬ (aabTo 1).regionsMeet ∧
    (aabTo 1).srcReadable = (aabTo 1).srcLen.toNat ∧
    allCoded (aabTo 1).code (aabTo 1).sourceBytes = true ∧
    8 * ((0 + (payload (aabTo 1).code (aabTo 1).sourceBytes).length + 7) / 8) =
      8 * (aabTo 1).dstWritable :=
  ⟨by decide, rfl, apart_of _ (by decide), by decide +kernel, by decide +kernel, by decide +kernel⟩
theorem witness_EncodeWritesThePayload_empty :
    let s := { aabTo 0 with srcLen := 0#32, outBitpos := 8#32 }
    ¬ s.regionsMeet ∧ s.srcReadable = s.srcLen.toNat ∧
    8 * ((s.outBitpos.toNat + (payload s.code s.sourceBytes).length + 7) / 8) =
      s.outBitpos.toNat :=
  ⟨apart_of _ (by decide), by decide +kernel, by decide +kernel⟩
theorem witness_EncodeStopsAtAnUncodedByte :
    let s := { aabTo 1 with mem := bytesAt 0 [0x61, 0x63, 0x62] ++ bytesAt 0x10 [0] }
    s.codesValid = true ∧ ¬ s.regionsMeet ∧ 1 < s.srcReadable ∧
    allCoded s.code (s.sourceBytes.take 1) = true ∧ s.code.read (s.srcAt 1) = none ∧
    s.outBitpos.toNat + (payload s.code (s.sourceBytes.take 1)).length ≤ 8 * s.dstWritable :=
  ⟨rfl, apart_of _ (by decide), by decide +kernel⟩
theorem witness_EncodeStopsAtTheBounds_output :
    let s := { aabTo 1 with outBitpos := 7#32 }
    s.codesValid = true ∧ ¬ s.regionsMeet ∧ 1 < s.srcReadable ∧
    allCoded s.code (s.sourceBytes.take 2) = true ∧
    (payload s.code (s.sourceBytes.take 1)).length = 8 * s.dstWritable - s.outBitpos.toNat ∧
    8 * s.dstWritable - s.outBitpos.toNat < (payload s.code (s.sourceBytes.take 2)).length :=
  ⟨rfl, apart_of _ (by decide), by decide +kernel⟩
theorem witness_EncodeStopsAtTheBounds_source :
    let s := atTheEnd [0x61] aabCoded
    s.codesValid = true ∧ ¬ s.regionsMeet ∧ s.srcReadable < s.srcLen.toNat ∧
    allCoded s.code (s.sourceBytes.take s.srcReadable) = true ∧
    (payload s.code (s.sourceBytes.take s.srcReadable)).length ≤
      8 * s.dstWritable - s.outBitpos.toNat :=
  ⟨rfl, apart_of _ (by decide), by decide +kernel, by decide +kernel, by decide +kernel⟩
theorem witness_EncodeStopsAtTheBounds_padding :
    let s := { aabTo 1 with srcLen := 0#32, outBitpos := 9#32 }
    s.codesValid = true ∧ ¬ s.regionsMeet ∧ s.srcReadable = s.srcLen.toNat ∧
    allCoded s.code s.sourceBytes = true ∧ payload s.code s.sourceBytes = [] ∧
    s.outBitpos.toNat % 8 ≠ 0 ∧ 8 * s.dstWritable ≤ s.outBitpos.toNat :=
  ⟨rfl, apart_of _ (by decide), by decide +kernel⟩

/-! #### The decoder's commands -/

theorem witness_DecodeOutputsTheSymbols :
    let s := { aabLoaded with dstCap := 3#32 }
    s.dictLoaded = true ∧ ¬ s.regionsMeet ∧ s.bitEnd.toNat ≤ 8 * s.srcReadable ∧
    takeSymbols s.dmap 3 (s.srcBits 0 3) = some ([0x61#8, 0x61#8, 0x62#8], 3) ∧
    symbolAt s.dmap ((s.srcBits 0 3).drop 3) = none ∧ 3 ≤ s.dstWritable :=
  ⟨rfl, apart_of _ (by decide), by decide +kernel⟩
theorem witness_DecodeOutputsTheSymbols_trailing :
    let s := { oneCode 0 with bitEnd := 7#32, dstCap := 0#32 }
    ¬ s.regionsMeet ∧ symbolAt s.dmap (s.srcBits 0 7) = none ∧ (s.srcBits 0 7).length = 7 :=
  ⟨apart_of _ (by decide), by decide +kernel⟩
theorem witness_DecodeStopsOverlong :
    let s := { oneCode 0 with bitEnd := 8#32, dstCap := 0#32 }
    s.dictLoaded = true ∧ ¬ s.regionsMeet ∧
    takeSymbols s.dmap 0 (s.srcBits 0 (min s.bitEnd.toNat (8 * s.srcLen.toNat))) = some ([], 0) ∧
    symbolAt s.dmap (s.srcBits 0 (min s.bitEnd.toNat (8 * s.srcLen.toNat))) = none ∧
    (s.srcBits 0 (min s.bitEnd.toNat (8 * s.srcLen.toNat))).length = 8 ∧
    0 + 0 + 8 ≤ 8 * s.srcReadable :=
  ⟨rfl, apart_of _ (by decide), by decide +kernel⟩
theorem witness_DecodeStopsAtTheBounds_output :
    let s := { aabLoaded with dstCap := 2#32 }
    s.dictLoaded = true ∧ ¬ s.regionsMeet ∧
    takeSymbols s.dmap (2 + 1) (s.srcBits 0 (min s.bitEnd.toNat (8 * s.srcLen.toNat))) =
      some ([0x61#8, 0x61#8, 0x62#8], 3) ∧ 0 + 3 ≤ 8 * s.srcReadable ∧ 2 = s.dstWritable :=
  ⟨rfl, apart_of _ (by decide), by decide +kernel⟩
theorem witness_DecodeStopsAtTheBounds_source :
    let s := atTheEnd [0] { oneCode 0 with bitEnd := 9#32, inBitpos := 1#32 }
    s.dictLoaded = true ∧ ¬ s.regionsMeet ∧ 1 < min s.bitEnd.toNat (8 * s.srcLen.toNat) ∧
    8 * s.srcReadable < min s.bitEnd.toNat (8 * s.srcLen.toNat) ∧
    symbolAt s.dmap (s.srcBits 1 (8 * s.srcReadable)) = none ∧
    (s.srcBits 1 (8 * s.srcReadable)).length = 7 ∧ 0 ≤ s.dstWritable :=
  ⟨rfl, apart_of _ (by decide), by decide +kernel⟩
theorem witness_RaDecodeOutputsTheWindow :
    let s := { aabLoaded with dstCap := 2#32, raLength := 23#32, raOffset := 6#32 }
    s.cfg.legal ∧ s.dictLoaded = true ∧ s.raLength ≠ 0#32 ∧ ¬ s.regionsMeet ∧
    takeSymbols s.dmap (s.raLength.toNat / 8) (s.srcBits 6 (8 * s.srcReadable)) =
      some ([0x62#8, 0x62#8], 2) ∧ s.raLength.toNat / 8 = s.dstWritable :=
  ⟨by decide, rfl, by decide, apart_of _ (by decide), by decide +kernel⟩
theorem witness_RaDecodeReportsTruncation :
    let s := { aabLoaded with raOffset := 7#32, dstCap := 1#32 }
    s.dictLoaded = true ∧ ¬ s.regionsMeet ∧ 1 < s.raLength.toNat / 8 ∧
    s.srcReadable = s.srcLen.toNat ∧
    takeSymbols s.dmap 1 (s.srcBits 7 (8 * s.srcLen.toNat)) = some ([0x62#8], 1) ∧
    symbolAt s.dmap ((s.srcBits 7 (8 * s.srcLen.toNat)).drop 1) = none ∧ 1 ≤ s.dstWritable :=
  ⟨rfl, apart_of _ (by decide), by decide +kernel⟩
theorem witness_RaDecodeStopsAsDecodeDoes :
    let s := oneCode 0
    s.dictLoaded = true ∧ ¬ s.regionsMeet ∧ 0 < s.raLength.toNat / 8 ∧
    takeSymbols s.dmap 0 (s.srcBits 0 (8 * s.srcReadable)) = some ([], 0) ∧
    symbolAt s.dmap (s.srcBits 0 (8 * s.srcReadable)) = none ∧
    8 ≤ (s.srcBits 0 (8 * s.srcReadable)).length :=
  ⟨rfl, apart_of _ (by decide), by decide +kernel⟩
theorem witness_RaDecodeStopsAsDecodeDoes_output :
    let s := { aabLoaded with dstCap := 1#32 }
    s.dictLoaded = true ∧ ¬ s.regionsMeet ∧ 1 < s.raLength.toNat / 8 ∧
    takeSymbols s.dmap (1 + 1) (s.srcBits 0 (8 * s.srcReadable)) =
      some ([0x61#8, 0x61#8], 2) ∧ 1 = s.dstWritable :=
  ⟨rfl, apart_of _ (by decide), by decide +kernel⟩
theorem witness_RaDecodeStopsAsDecodeDoes_source :
    let s := atTheEnd [0] { oneCode 0 with raOffset := 1#32 }
    s.dictLoaded = true ∧ ¬ s.regionsMeet ∧ 0 < s.raLength.toNat / 8 ∧
    s.srcReadable < s.srcLen.toNat ∧ 1 < 8 * s.srcLen.toNat ∧
    symbolAt s.dmap (s.srcBits 1 (8 * s.srcReadable)) = none ∧
    (s.srcBits 1 (8 * s.srcReadable)).length = 7 ∧ 0 ≤ s.dstWritable :=
  ⟨rfl, apart_of _ (by decide), by decide +kernel⟩
theorem witness_RaDecodeStopsAsDecodeDoes_sourceAtOnce :
    let s := atTheEnd [0] { oneCode 0 with raOffset := 15#32 }
    ¬ s.regionsMeet ∧ s.srcReadable < s.srcLen.toNat ∧ 15 < 8 * s.srcLen.toNat ∧
    s.srcBits 15 (8 * s.srcReadable) = [] :=
  ⟨apart_of _ (by decide), by decide +kernel⟩
theorem witness_DecompressGivesBackTheInput :
    ∃ a b c d e, aab.cfg.legal ∧ exec .count aab = .next a ∧ exec .build a = .next b ∧
      exec .assign b = .next c ∧ exec (.dictWrite .oneByte) c = .next d ∧
      exec .encode d = .next e ∧
      let g : State :=
        { e with
          srcAddr := e.dstAddr, srcLen := e.result1, dstAddr := 0x40#32, dstCap := 3#32
          bitEnd := BitVec.ofNat 32 (8 * d.result0.toNat + e.result0.toNat) }
      ¬ g.regionsMeet ∧ a.error = .none ∧ c.error = .none ∧ d.error = .none ∧ e.error = .none ∧
      aab.srcLen.toNat = g.dstWritable :=
  ⟨_, _, _, _, _, by decide, exec_after _ _, exec_after _ _, exec_after _ _, exec_after _ _,
    exec_after _ _, apart_of _ (by decide +kernel), by decide +kernel⟩
theorem witness_RandomAccessEqualsTheSlice :
    ∃ t, aabLoaded.cfg.legal ∧ exec .decode aabLoaded = .next t ∧ t.error = .none ∧
      takeSymbols aabLoaded.dmap 1 (aabLoaded.srcBits aabLoaded.inBitpos.toNat
        (min aabLoaded.bitEnd.toNat (8 * aabLoaded.srcLen.toNat))) = some ([0x61#8], 1) ∧
      1 + 2 ≤ t.result0.toNat :=
  ⟨_, by decide, exec_after _ _, by decide +kernel⟩
theorem witness_DestinationOfThatSizeIsEnough :
    Inv (aabTo 773) ∧ (aabTo 773).codesValid = true ∧ ¬ (aabTo 773).regionsMeet ∧
    (aabTo 773).srcReadable = (aabTo 773).srcLen.toNat ∧
    allCoded (aabTo 773).code (aabTo 773).sourceBytes = true ∧
    770 + (aabTo 773).srcLen.toNat = (aabTo 773).dstWritable :=
  ⟨inv_aabTo _, rfl, apart_of _ (by decide), by decide +kernel, by decide +kernel, by decide +kernel⟩

/-! #### The ports and the stream primitives -/

theorem witness_StatusWriteAcknowledges :
    (0x2#32).getLsbD 1 = true ∧ (0xFFFFFFFD#32).getLsbD 1 = false := by decide
theorem witness_InterruptFollowsCompletion :
    ∃ t, State.runCommand { aab with irqEn := true } 0x106#32 = .next t ∧ t.irq = true :=
  ⟨_, rfl, rfl⟩
theorem witness_ReservedAndReadOnlyRegisters :
    (idleWith (.regWrite 0x010#12 .half 1#32)).host = [.regWrite 0x010#12 .half 1#32] ∧
    (0x011#12).toNat % 4 ≠ 0 ∧
    (idleWith (.regRead 0x011#12 .word)).host = [.regRead 0x011#12 .word] :=
  ⟨rfl, by decide, rfl⟩
theorem witness_RegisterMapHasItsOffsets :
    ((0x050#12).toNat % 4 = 0 ∧ 0x050 ≤ (0x050#12).toNat) ∧
    ((0x3FC#12).toNat % 4 = 0 ∧ (0x3FC#12).toNat ≤ 0x3FC) ∧
    ((0xFFC#12).toNat % 4 = 0 ∧ 0xC00 ≤ (0xFFC#12).toNat) ∧
    aabCoded.code.read 0x61#8 = some ⟨1, 1#8⟩ ∧ aabCoded.code.read 0xFF#8 = none := by
  decide +kernel
theorem witness_ReadWriteRegistersHoldTheirWord_port :
    let s := idleWith (.regWrite 0xFFC#12 .word 1#32)
    s.running = none ∧ (0xFFC#12).toNat % 4 = 0 ∧ s.host = [.regWrite 0xFFC#12 .word 1#32] :=
  ⟨rfl, by decide, rfl⟩
theorem witness_ReadWriteRegistersHoldTheirWord :
    Reg.bitEnd ∈ [Reg.srcAddr, .srcLen, .dstAddr, .dstCap, .inBitpos, .bitEnd, .outBitpos,
      .raOffset, .raLength] ∧ (∃ b, Reg.freq 0xFF#8 = .freq b) := ⟨by decide, 0xFF#8, rfl⟩
theorem witness_RegisterReadHasNoSideEffect :
    (idleWith (.regRead 0x7FC#12 .word)).running = none ∧ (0x7FC#12).toNat % 4 = 0 ∧
    (idleWith (.regRead 0x7FC#12 .word)).host = [.regRead 0x7FC#12 .word] :=
  ⟨rfl, by decide, rfl⟩
theorem witness_BusyBlockIgnoresRegisterWrites :
    (busyWith 6#32 (.regWrite 0x008#12 .word 9#32)).running = some 6#32 ∧
    (busyWith 6#32 (.regWrite 0x008#12 .word 9#32)).host = [.regWrite 0x008#12 .word 9#32] ∧
    (busyWith 6#32 (.regWrite 0x00C#12 .word 2#32)).host = [.regWrite 0x00C#12 .word 2#32] ∧
    regAt 0x008#12 ≠ .status ∧ regAt 0x00C#12 = .status ∧
    (busyWith 6#32 (.regRead 0x010#12 .word)).host = [.regRead 0x010#12 .word] :=
  ⟨rfl, rfl, rfl, by decide, by decide, rfl⟩
theorem witness_HostMemoryPort :
    (idleWith (.memWrite 4095 1#8)).running = none ∧ 4095 < aab.cfg.memBytes ∧
    (idleWith (.memWrite 4095 1#8)).host = [.memWrite 4095 1#8] ∧
    aab.cfg.memBytes ≤ 4096 ∧ (idleWith (.memRead 4096)).host = [.memRead 4096] ∧
    (busyWith 6#32 (.memRead 0)).running ≠ none := ⟨rfl, by decide, rfl, by decide, rfl, by decide⟩
theorem witness_EngineAccessIsBounded :
    aab.cfg.memBytes ≤ 4096 ∧ 4095 < aab.cfg.memBytes := by decide
theorem witness_SourceStreamReadsMsbFirst :
    aab.srcLen.toNat ≤ 24 / 8 ∧ 23 / 8 < aab.srcReadable ∧
    8 / 8 < (atTheEnd [0x61] aab).srcLen.toNat ∧
    (atTheEnd [0x61] aab).cfg.memBytes ≤ (atTheEnd [0x61] aab).srcAddr.toNat + 8 / 8 := by
  decide +kernel
theorem witness_DestinationBitIsOneBit :
    aab.dstWritable ≤ 64 / 8 ∧ 63 / 8 < aab.dstWritable ∧
    ((63 : Nat) - 7) % 8 < 8 := by decide

end Sys2Proof.Machine.Tests
end

/-! PROOF. What the engine's loops do to M (20_memory.md R74 to R80): the writes of a command lie in its
destination region, and its memory is the old one after them. -/

namespace Sys2Proof.Machine

/-! ### M and the engine -/

/-- A memory in canonical form whose bytes lie below `n`. -/
def Memory.within (m : Memory) (n : Nat) : Prop := m.wf ∧ ∀ c ∈ m, c.1 < n

theorem Memory.within.store {m : Memory} {n a : Nat} (h : m.within n) (ha : a < n) (v : Byte) :
    (m.store a v).within n := by
  obtain ⟨hwf, hin⟩ := h
  refine ⟨Memory.wf_store hwf a v, fun c hc => ?_⟩
  rcases Memory.mem_store hc with rfl | hc
  · exact ha
  · exact hin c hc

/-- The memory after the byte writes `ws`, the newest first. -/
def applyWrites (m : Memory) (ws : List Host.Cell) : Memory :=
  ws.foldr (fun c m => m.store c.1 c.2) m

theorem applyWrites_within {m : Memory} {n : Nat} (h : m.within n) {ws : List Host.Cell}
    (hws : ∀ c ∈ ws, c.1 < n) : (applyWrites m ws).within n := by
  induction ws with
  | nil => exact h
  | cons c ws ih =>
    exact Memory.within.store (ih fun d hd => hws d (List.mem_cons_of_mem _ hd))
      (hws c List.mem_cons_self) c.2

theorem landWrites_within {m : Memory} {n k : Nat} (h : m.within n) {ws : List Host.Cell}
    (hws : ∀ c ∈ ws, c.1 < n) : (landWrites k m ws).within n := by
  induction ws with
  | nil => exact h
  | cons c ws ih =>
    have hrest := ih fun d hd => hws d (List.mem_cons_of_mem _ hd)
    unfold landWrites
    split
    · exact hrest.store (hws c List.mem_cons_self) c.2
    · exact hrest

/-- Address `a` lies in the destination region and in M (20_memory.md R74, R79). -/
def State.inDestination (s : State) (a : Nat) : Prop :=
  s.dstAddr.toNat ≤ a ∧ a < s.dstAddr.toNat + s.dstCap.toNat ∧ a < s.cfg.memBytes

/-- The engine as a command that runs from `s` can leave it: its writes lie in the destination
region and in M, and its memory is that of `s` after them. -/
structure Engine.ReachedFrom (s : State) (e : Engine) : Prop where
  memory : e.mem = applyWrites s.mem e.trail
  region : ∀ c ∈ e.trail, s.inDestination c.1

theorem State.engine_reached (s : State) : s.engine.ReachedFrom s := ⟨rfl, by simp [State.engine]⟩

theorem Engine.ReachedFrom.store {s : State} {e : Engine} (h : e.ReachedFrom s) {a : Nat}
    (ha : s.inDestination a) (v : Byte) :
    Engine.ReachedFrom s { mem := e.mem.store a v, trail := (a, v) :: e.trail } := by
  refine ⟨by simp [applyWrites, h.memory], fun c hc => ?_⟩
  rcases List.mem_cons.1 hc with rfl | hc
  · exact ha
  · exact h.region c hc

theorem Engine.ReachedFrom.within {s : State} {e : Engine} (h : e.ReachedFrom s)
    (hm : s.mem.within s.cfg.memBytes) : e.mem.within s.cfg.memBytes := by
  rw [h.memory]
  exact applyWrites_within hm fun c hc => (h.region c hc).2.2

theorem dstByte_reached {s : State} {e e' : Engine} {k : Nat} {v : Byte} (h : e.ReachedFrom s)
    (hd : dstByte s e k v = .ok e') : e'.ReachedFrom s := by
  rcases dstByte_cases s e k v with ⟨-, hr⟩ | ⟨hcap, hmem, hr⟩ <;> rw [hr] at hd <;> cases hd
  exact h.store ⟨by omega, by omega, hmem⟩ v

theorem dstBit_reached {s : State} {e e' : Engine} {q : Nat} {b : Bool} (h : e.ReachedFrom s)
    (hd : dstBit s e q b = .ok e') : e'.ReachedFrom s := by
  rcases dstBit_cases s e q b with ⟨-, hr⟩ | ⟨hcap, hmem, hr⟩ <;> rw [hr] at hd <;> cases hd
  exact h.store ⟨by omega, by omega, hmem⟩ _

theorem writeBytes_reached (s : State) (vs : List Byte) (e : Engine) (k : Nat)
    (h : e.ReachedFrom s) : (writeBytes s vs e k).eng.ReachedFrom s := by
  induction vs generalizing e k with
  | nil => exact h
  | cons v vs ih =>
    unfold writeBytes
    split
    · exact h
    · next e' hd => exact ih e' (k + 1) (dstByte_reached h hd)

theorem putBits_reached (s : State) (bs : List Bool) (r : EncodeRun) (h : r.eng.ReachedFrom s) :
    (putBits s bs r).eng.ReachedFrom s := by
  induction bs generalizing r with
  | nil => exact h
  | cons b bs ih =>
    unfold putBits
    split
    · exact h
    · next hd => exact ih _ (dstBit_reached h hd)

theorem encodeLoop_reached (s : State) (n : Nat) (r : EncodeRun) (h : r.eng.ReachedFrom s) :
    (encodeLoop s n r).eng.ReachedFrom s := by
  induction n generalizing r with
  | zero => exact h
  | succ n ih =>
    unfold encodeLoop
    split
    · exact h
    · exact h
    · split
      · exact h
      · next k _ =>
        have hput := putBits_reached s k.bits r h
        dsimp only
        split
        · exact ih _ hput
        · exact hput

theorem padLoop_reached (s : State) (n : Nat) (r : EncodeRun) (h : r.eng.ReachedFrom s) :
    (padLoop s n r).eng.ReachedFrom s := by
  induction n generalizing r with
  | zero => exact h
  | succ n ih =>
    unfold padLoop
    split
    · exact h
    · split
      · exact h
      · next hd => exact ih _ (dstBit_reached h hd)

theorem decodeBit_reached (s : State) (b : Bool) (r : DecodeRun) (h : r.eng.ReachedFrom s) :
    (decodeBit s b r).eng.ReachedFrom s := by
  unfold decodeBit
  dsimp only
  split
  · split
    · exact h
    · next hd => exact dstByte_reached h hd
  · split <;> exact h

theorem decodeLoop_reached (s : State) (n : Nat) (r : DecodeRun) (h : r.eng.ReachedFrom s) :
    (decodeLoop s n r).eng.ReachedFrom s := by
  induction n generalizing r with
  | zero => exact h
  | succ n ih =>
    unfold decodeLoop
    split
    · exact h
    · exact h
    · next b _ =>
      have hbit := decodeBit_reached s b r h
      dsimp only
      split
      · exact ih _ hbit
      · exact hbit

theorem raLoop_reached (s : State) (n fuel : Nat) (r : DecodeRun) (h : r.eng.ReachedFrom s) :
    (raLoop s n fuel r).eng.ReachedFrom s := by
  induction fuel generalizing r with
  | zero =>
    unfold raLoop
    split <;> exact h
  | succ fuel ih =>
    unfold raLoop
    split
    · split
      · exact h
      · split
        · exact h
        · exact h
        · next b _ =>
          have hbit := decodeBit_reached s b r h
          dsimp only
          split
          · exact ih _ hbit
          · exact hbit
    · exact h

theorem dictWriteRun_reached (f : SizeForm) (s : State) :
    (dictWriteRun f s).eng.ReachedFrom s :=
  writeBytes_reached s _ s.engine 0 s.engine_reached

theorem encodeRun_reached (s : State) : (encodeRun s).eng.ReachedFrom s := by
  have hloop := encodeLoop_reached s s.srcLen.toNat s.encodeStart s.engine_reached
  unfold encodeRun
  dsimp only
  split
  · exact padLoop_reached s 7 _ hloop
  · exact hloop

theorem decodeRun_reached (s : State) : (decodeRun s).eng.ReachedFrom s :=
  decodeLoop_reached s _ _ s.engine_reached

theorem raRun_reached (s : State) : (raRun s).eng.ReachedFrom s :=
  raLoop_reached s _ _ _ s.engine_reached

theorem forall_mem_guarded {p : Prop} [Decidable p] {ws : List Host.Cell} {P : Host.Cell → Prop}
    (h : ∀ c ∈ ws, P c) : ∀ c ∈ if p then ws else [], P c := by
  split
  · exact h
  · simp

/-- A command's byte writes lie in its destination region and in M. -/
theorem commandTrail_region (i : Instr) (s : State) :
    ∀ c ∈ commandTrail i s, s.inDestination c.1 := by
  cases i with
  | dictWrite f => exact forall_mem_guarded (dictWriteRun_reached f s).region
  | encode => exact forall_mem_guarded (encodeRun_reached s).region
  | decode => exact forall_mem_guarded (decodeRun_reached s).region
  | raDecode => exact forall_mem_guarded (raRun_reached s).region
  | _ => simp [commandTrail]

theorem State.trail_region (s : State) : ∀ c ∈ s.trail, s.inDestination c.1 := by
  unfold State.trail
  split
  · simp
  · split
    · exact commandTrail_region _ s
    · simp

end Sys2Proof.Machine

/-! PROOF. The tree that BUILD makes and the codes that ASSIGN and DICT_READ give, as far as the invariant
speaks of them (10_state.md R41, R45, R46). -/

namespace Sys2Proof.Machine

/-! ### The tree that BUILD makes -/

theorem CodeTree.weight_eq_sum_leaves (t : CodeTree) : t.weight = (t.leaves.map Prod.snd).sum := by
  induction t with
  | leaf b w => simp [CodeTree.weight, CodeTree.leaves]
  | node l r ihl ihr => simp [CodeTree.weight, CodeTree.leaves, ihl, ihr]

theorem TreeReg.weight_eq_sum_leaves (t : TreeReg) : t.weight = (t.leaves.map Prod.snd).sum := by
  cases t with
  | noTree => rfl
  | emptyTree => rfl
  | built t => exact t.weight_eq_sum_leaves

/-- The leaves below a list of nodes, from left to right. -/
def leavesBelow (level : List CodeTree) : List (Byte × Nat) := level.flatMap CodeTree.leaves

/-- A level pass only joins neighbours (40_tree_builder.md R136): the leaves stay, in their order. -/
theorem leavesBelow_levelScan (level next : List CodeTree) :
    leavesBelow (levelScan level next) = leavesBelow (next.reverse ++ level) := by
  fun_induction levelScan level next <;> simp_all [leavesBelow, CodeTree.leaves]

theorem length_levelScan_le (level next : List CodeTree) :
    (levelScan level next).length ≤ level.length + next.length := by
  fun_induction levelScan level next <;> simp_all <;> omega

/-- A pass over two nodes or more gives fewer: the first two are a pair (R140). -/
theorem length_levelPass_lt {level : List CodeTree} (h : 1 < level.length) :
    (levelPass level).length < level.length := by
  match level, h with
  | a :: b :: rest, _ =>
    have := length_levelScan_le rest [.node a b]
    simp only [levelPass, levelScan, List.length_cons, List.length_nil] at this ⊢
    omega

theorem leavesBelow_buildLevels (fuel : Nat) (level : List CodeTree) (levels : Nat) :
    leavesBelow (buildLevels fuel level levels).1 = leavesBelow level := by
  induction fuel generalizing level levels with
  | zero => rfl
  | succ fuel ih =>
    unfold buildLevels
    split
    · rw [ih, levelPass, leavesBelow_levelScan]
      simp
    · rfl

/-- With a pass for each node the level passes end with one node, or with none (R134, R140). -/
theorem length_buildLevels_le_one {fuel : Nat} {level : List CodeTree} (levels : Nat)
    (h : level.length ≤ fuel + 1) : (buildLevels fuel level levels).1.length ≤ 1 := by
  induction fuel generalizing level levels with
  | zero => exact h
  | succ fuel ih =>
    unfold buildLevels
    split
    · next hlong =>
      have := length_levelPass_lt hlong
      exact ih _ (by omega)
    · next hshort =>
      show level.length ≤ 1
      omega

theorem leaves_buildTree (freq : Table Word) :
    (buildTree freq).1.leaves = sortLeaves (leavesOf freq) := by
  let leaves := (sortLeaves (leavesOf freq)).map (fun l => CodeTree.leaf l.1 l.2)
  have hbelow : leavesBelow (buildLevels leaves.length leaves 0).1 = sortLeaves (leavesOf freq) := by
    rw [leavesBelow_buildLevels]
    simp [leaves, leavesBelow, List.flatMap_map, CodeTree.leaves]
  have hone := length_buildLevels_le_one (level := leaves) (fuel := leaves.length) 0 (by omega)
  unfold buildTree
  dsimp only
  split
  · next h =>
    rw [h] at hbelow
    exact hbelow
  · next t ts levels h =>
    rw [h] at hbelow hone
    obtain rfl : ts = [] := by simpa using hone
    simpa [leavesBelow, TreeReg.leaves] using hbelow

/-! ### The leaves that FREQ gives -/

theorem perm_insertLeaf (x : Byte × Nat) (l : List (Byte × Nat)) :
    (insertLeaf x l).Perm (x :: l) := by
  induction l with
  | nil => exact .refl _
  | cons y ys ih =>
    unfold insertLeaf
    split
    · exact (ih.cons y).trans (.swap x y ys)
    · exact .refl _

theorem perm_sortLeaves (l : List (Byte × Nat)) : (sortLeaves l).Perm l := by
  induction l with
  | nil => exact .refl _
  | cons x l ih => exact (perm_insertLeaf x _).trans (ih.cons x)

theorem nodup_allBytes : allBytes.Nodup := by
  refine List.Nodup.map_on (fun i hi j hj h => ?_) List.nodup_range
  rw [List.mem_range] at hi hj
  have := congrArg BitVec.toNat h
  simp only [BitVec.toNat_ofNat] at this
  omega

theorem leavesOf_eq (freq : Table Word) :
    leavesOf freq =
      (allBytes.map (fun b => (b, (freq.read b).toNat))).filter (fun l => decide (0 < l.2)) := by
  simp [leavesOf, Table.entries_eq, Function.comp_def]

theorem nodup_leavesOf (freq : Table Word) : ((leavesOf freq).map Prod.fst).Nodup := by
  have hsub : ((leavesOf freq).map Prod.fst).Sublist allBytes := by
    rw [leavesOf_eq]
    simpa [Function.comp_def] using
      (List.filter_sublist (l := allBytes.map (fun b => (b, (freq.read b).toNat)))
        (p := fun l => decide (0 < l.2))).map Prod.fst
  exact nodup_allBytes.sublist hsub

theorem length_leavesOf_le (freq : Table Word) : (leavesOf freq).length ≤ 256 := by
  rw [leavesOf_eq]
  exact (List.length_filter_le _ _).trans (by simp)

theorem weight_of_mem_leavesOf {freq : Table Word} {l : Byte × Nat} (h : l ∈ leavesOf freq) :
    0 < l.2 ∧ l.2 < 2 ^ 32 := by
  rw [leavesOf_eq, List.mem_filter, List.mem_map] at h
  obtain ⟨⟨b, -, rfl⟩, hpos⟩ := h
  exact ⟨by simpa using hpos, (freq.read b).isLt⟩

theorem perm_leaves_buildTree (freq : Table Word) :
    (buildTree freq).1.leaves.Perm (leavesOf freq) := by
  rw [leaves_buildTree]
  exact perm_sortLeaves _

/-- The tree of a FREQ table has distinct leaves with positive weights (10_state.md R46). -/
theorem wellFormed_of_buildTree {freq : Table Word} {t : CodeTree}
    (h : (buildTree freq).1 = .built t) : t.wellFormed := by
  have hperm : t.leaves.Perm (leavesOf freq) := by
    simpa [h, TreeReg.leaves] using perm_leaves_buildTree freq
  exact ⟨((hperm.map Prod.fst).nodup_iff).2 (nodup_leavesOf freq),
    fun l hl => weight_of_mem_leavesOf (hperm.mem_iff.1 hl)⟩

/-- The root weight fits in its 40 bits: at most 256 leaves of 32-bit weights (10_state.md R49). -/
theorem weight_buildTree_lt (freq : Table Word) : (buildTree freq).1.weight < 2 ^ 40 := by
  have hperm := perm_leaves_buildTree freq
  have hlen := length_leavesOf_le freq
  have hsum := List.sum_le_card_nsmul ((leavesOf freq).map Prod.snd) (2 ^ 32 - 1) (by
    intro w hw
    obtain ⟨l, hl, rfl⟩ := List.mem_map.1 hw
    have := (weight_of_mem_leavesOf hl).2
    omega)
  rw [TreeReg.weight_eq_sum_leaves, (hperm.map Prod.snd).sum_eq]
  simp only [List.length_map, smul_eq_mul] at hsum
  omega

/-! ### The codes that ASSIGN and DICT_READ give -/

/-- Every Code of the table is matchable (10_state.md R41). -/
def allMatchable (c : Table (Option Code)) : Prop := ∀ b k, c.read b = some k → k.matchable = true

theorem allMatchable_fill : allMatchable (Table.fill none) := by simp [allMatchable]

theorem allMatchable.write {c : Table (Option Code)} (hc : allMatchable c) {k : Code}
    (hk : k.matchable = true) (b : Byte) : allMatchable (c.write b (some k)) := by
  intro b' k' h
  rw [Table.read_write] at h
  split at h
  · cases h
    exact hk
  · exact hc b' k' h

theorem or_step_lt {depth : Nat} {data : Byte} (hdata : data.toNat < 2 ^ depth) :
    (data ||| (1#8 <<< depth)).toNat < 2 ^ (depth + 1) := by
  have hlt : 2 ^ depth < 2 ^ (depth + 1) := Nat.pow_lt_pow_right (by omega) (by omega)
  rw [BitVec.toNat_or]
  refine Nat.or_lt_two_pow (by omega) ?_
  calc (1#8 <<< depth).toNat ≤ 2 ^ depth := by
        simpa [BitVec.toNat_shiftLeft, Nat.shiftLeft_eq] using Nat.mod_le (2 ^ depth) 256
    _ < 2 ^ (depth + 1) := hlt

/-- The walk from a node at `depth` gives a Code of 8 bits at most, not above that node and with no
data bit beyond its length (41_code_assigner.md R152). -/
theorem codeOf_bounds {t : CodeTree} {b : Byte} {depth : Nat} {data : Byte} {k : Code}
    (hdepth : depth ≤ 8) (hdata : data.toNat < 2 ^ depth) (h : codeOf t b depth data = some k) :
    depth ≤ k.len ∧ k.len ≤ 8 ∧ k.data.toNat < 2 ^ k.len := by
  induction t generalizing depth data with
  | leaf c w =>
    cases h
    exact ⟨le_refl _, hdepth, hdata⟩
  | node l r ihl ihr =>
    unfold codeOf at h
    split at h
    · cases h
    · next hne =>
      have hlt : depth < 8 := by
        simp only [Config.maxCodeLen] at hne
        omega
      split at h
      · have := ihl (by omega) (hdata.trans (Nat.pow_lt_pow_right (by omega) (by omega))) h
        omega
      · have := ihr (by omega) (or_step_lt hdata) h
        omega

/-- Below an internal root every Code has one bit or more. -/
theorem matchable_codeOf_node {l r : CodeTree} {b : Byte} {k : Code}
    (h : codeOf (.node l r) b 0 0#8 = some k) : k.matchable = true := by
  have hbounds : 1 ≤ k.len ∧ k.len ≤ 8 ∧ k.data.toNat < 2 ^ k.len := by
    rw [codeOf, if_neg (by decide)] at h
    split at h
    · exact codeOf_bounds (by omega) (by decide) h
    · exact codeOf_bounds (by omega) (by decide) h
  exact (Code.matchable_iff k).2 hbounds

theorem allMatchable_assignLoop {l r : CodeTree} {bs : List Byte} {c c' : Table (Option Code)}
    (hc : allMatchable c) (h : assignLoop (.node l r) bs c = .ok c') : allMatchable c' := by
  induction bs generalizing c with
  | nil =>
    cases h
    exact hc
  | cons b bs ih =>
    unfold assignLoop at h
    split at h
    · split at h
      · cases h
      · next k hk => exact ih (hc.write (matchable_codeOf_node hk) b) h
    · exact ih hc h

theorem allMatchable_codesOfTree {t : CodeTree} {c : Table (Option Code)}
    (h : codesOfTree t = .ok c) : allMatchable c := by
  cases t with
  | leaf b w =>
    cases h
    exact allMatchable_fill.write (by decide) b
  | node l r => exact allMatchable_assignLoop allMatchable_fill h

theorem allMatchable_commitEntries (es : List HeaderEntry) : allMatchable (commitEntries es).2 := by
  refine List.foldlRecOn (motive := fun d => allMatchable d.2) es commitEntry
    (b := (DecodeMap.empty, Table.fill none)) allMatchable_fill fun d hd e _ => ?_
  unfold commitEntry
  split
  · next hm => exact hd.write hm e.val
  · exact hd

/-- A table of matchable Codes has MAXLEN at most 8. -/
theorem maxCodeLen_le {c : Table (Option Code)} (hc : allMatchable c) : maxCodeLen c ≤ 8 := by
  refine List.foldlRecOn (motive := fun n => n ≤ 8) c.entries _ (Nat.zero_le 8) fun n hn e he => ?_
  rw [Table.entries_eq] at he
  obtain ⟨b, -, rfl⟩ := List.mem_map.1 he
  dsimp only
  split
  · next k hk => exact max_le hn ((Code.matchable_iff k).1 (hc b k hk)).2.1
  · exact hn

end Sys2Proof.Machine

/-! PROOF. What a command can do to the state, said once; and every step keeps the invariant (10_state.md R38
to R46). -/

namespace Sys2Proof.Machine

/-! ### What a command has written when it ends -/

/-- The state `u` that command `i`, run from `s`, ends with error code `e`: the command's own writes,
before the end writes STATUS and the results. (Which condition leads to which effect is in the
`exec…_cases` lemmas.) -/
inductive CommandEffect (s : State) : Instr → ErrCode → State → Prop
  /-- A precondition error, a read that fails, an ASSIGN without a tree, or RA_LENGTH = 0. -/
  | nothing (i : Instr) (e : ErrCode) : CommandEffect s i e s
  | count (t : Table Nat) :
    CommandEffect s .count .none { s with freq := t.map (BitVec.ofNat 32) }
  | build : CommandEffect s .build .none { s with
      code := Table.fill none
      codesValid := false
      tree := (buildTree s.freq).1
      nleaves := BitVec.ofNat 9 (leavesOf s.freq).length
      rootWeight := BitVec.ofNat 40 (buildTree s.freq).1.weight }
  | assign (c : Table (Option Code)) (hc : allMatchable c) : CommandEffect s .assign .none { s with
      code := c, codesValid := true, maxlen := BitVec.ofNat 4 (maxCodeLen c) }
  | codeTooLong : CommandEffect s .assign .codeTooLong { s with
      code := Table.fill none, codesValid := false, maxlen := 0#4 }
  | dictWrite (f : SizeForm) : CommandEffect s (.dictWrite f) .none { s with
      mem := (dictWriteRun f s).eng.mem
      outBitpos := BitVec.ofNat 32 (8 * (dictWriteRun f s).k) }
  | dictWriteStop (f : SizeForm) :
    CommandEffect s (.dictWrite f) (dictWriteRun f s).err
      { s with mem := (dictWriteRun f s).eng.mem }
  | dictRead (f : SizeForm) (es : List HeaderEntry) (pos : Nat) :
    CommandEffect s (.dictRead f) .none (s.commitDictionary es pos)
  | encode : CommandEffect s .encode .none { s with
      mem := (encodeRun s).eng.mem
      outBitpos := BitVec.ofNat 32 (encodeRun s).q }
  | encodeStop :
    CommandEffect s .encode (encodeRun s).err { s with mem := (encodeRun s).eng.mem }
  | decode : CommandEffect s .decode .none { s with
      mem := (decodeRun s).eng.mem
      inBitpos := BitVec.ofNat 32 (decodeRun s).p }
  | decodeStop :
    CommandEffect s .decode (decodeRun s).err { s with mem := (decodeRun s).eng.mem }
  | raDecode : CommandEffect s .raDecode (raRun s).err { s with
      mem := (raRun s).eng.mem
      raCursor := BitVec.ofNat 32 (raRun s).p }
  | clear : CommandEffect s .clear .none { s with
      freq := Table.fill 0#32
      tree := .noTree
      code := Table.fill none
      codesValid := false
      dmap := DecodeMap.empty
      dictLoaded := false
      nleaves := 0#9
      rootWeight := 0#40
      maxlen := 0#4 }

/-- `t` is where command `i` ends when it runs from `s`: its effect, then the command's end, which is
`raise` (with no error, `finish`). -/
def EndsAt (i : Instr) (s t : State) : Prop :=
  ∃ u e r0 r1, CommandEffect s i e u ∧ t = u.raise i.opcode e r0 r1

theorem endsAt_of_effect {i : Instr} {s u t : State} {e : ErrCode} {r0 r1 : Nat}
    (hu : CommandEffect s i e u)
    (h : (.next (u.raise i.opcode e r0 r1) : Host.Outcome State Fault Refusal) = .next t) :
    EndsAt i s t := by
  cases h
  exact ⟨u, e, r0, r1, hu, rfl⟩

/-- Everything a command can do, from the ways each one can end. -/
theorem exec_endsAt {i : Instr} {s t : State} (h : exec i s = .next t) : EndsAt i s t := by
  cases i with
  | count =>
    rcases execCount_cases s with ⟨x, _, _, hx⟩ | ⟨c, _, hx⟩ <;> rw [hx] at h
    · exact endsAt_of_effect (.nothing .count x) h
    · exact endsAt_of_effect (.count c) h
  | build => exact endsAt_of_effect .build h
  | assign =>
    rcases execAssign_cases s with ⟨_, hx⟩ | ⟨_, hx⟩ | ⟨_, c, _, hc, hx⟩ | ⟨_, _, _, _, hx⟩ <;>
      rw [hx] at h
    · exact endsAt_of_effect (.nothing .assign .noTree) h
    · exact endsAt_of_effect (.assign _ allMatchable_fill) h
    · exact endsAt_of_effect (.assign c (allMatchable_codesOfTree hc)) h
    · exact endsAt_of_effect .codeTooLong h
  | dictWrite f =>
    rcases execDictWrite_cases f s with ⟨_, hx⟩ | ⟨_, _, hx⟩ | ⟨_, _, hx⟩ <;> rw [hx] at h
    · exact endsAt_of_effect (.nothing (.dictWrite f) .noCodes) h
    · exact endsAt_of_effect (.dictWrite f) h
    · exact endsAt_of_effect (.dictWriteStop f) h
  | dictRead f =>
    rcases execDictRead_cases f s with ⟨x, _, hx⟩ | ⟨es, pos, _, hx⟩ <;> rw [hx] at h
    · exact endsAt_of_effect (.nothing (.dictRead f) x.err) h
    · exact endsAt_of_effect (.dictRead f es pos) h
  | encode =>
    rcases execEncode_cases s with ⟨_, hx⟩ | ⟨_, _, hx⟩ | ⟨_, _, _, hx⟩ | ⟨_, _, _, hx⟩ <;>
      rw [hx] at h
    · exact endsAt_of_effect (.nothing .encode .noCodes) h
    · exact endsAt_of_effect (.nothing .encode .regionOverlap) h
    · exact endsAt_of_effect .encode h
    · exact endsAt_of_effect .encodeStop h
  | decode =>
    rcases execDecode_cases s with ⟨_, hx⟩ | ⟨_, _, hx⟩ | ⟨_, _, _, hx⟩ | ⟨_, _, _, hx⟩ <;>
      rw [hx] at h
    · exact endsAt_of_effect (.nothing .decode .notLoaded) h
    · exact endsAt_of_effect (.nothing .decode .regionOverlap) h
    · exact endsAt_of_effect .decode h
    · exact endsAt_of_effect .decodeStop h
  | raDecode =>
    rcases execRaDecode_cases s with ⟨_, hx⟩ | ⟨_, _, hx⟩ | ⟨_, _, _, hx⟩ | ⟨_, _, _, he, hx⟩ |
      ⟨_, _, _, _, hx⟩ <;> rw [hx] at h
    · exact endsAt_of_effect (.nothing .raDecode .notLoaded) h
    · exact endsAt_of_effect (.nothing .raDecode .none) h
    · exact endsAt_of_effect (.nothing .raDecode .regionOverlap) h
    · exact endsAt_of_effect (he ▸ .raDecode) h
    · exact endsAt_of_effect .raDecode h
  | clear => exact endsAt_of_effect .clear h

/-! ### The invariant, part by part -/

/-- What the invariant says of M. -/
def MemoryPart (cfg : Config) (m : Memory) : Prop := cfg.legal ∧ m.within cfg.memBytes

/-- What the invariant says of CODE, CODES_VALID and MAXLEN. -/
def CodesPart (c : Table (Option Code)) (valid : Bool) (maxlen : BitVec 4) : Prop :=
  allMatchable c ∧ (valid = false → c = Table.fill none) ∧ maxlen.toNat ≤ 8 ∧
    (valid = true → maxlen.toNat = maxCodeLen c)

/-- What the invariant says of DMAP and DICT_LOADED. -/
def DictPart (d : DecodeMap) (loaded : Bool) : Prop := loaded = false → d = DecodeMap.empty

/-- What the invariant says of the tree, NLEAVES and the root weight. -/
def TreePart (tree : TreeReg) (nleaves : BitVec 9) (rootWeight : BitVec 40) : Prop :=
  (∀ t, tree = .built t → t.wellFormed) ∧ nleaves.toNat = tree.leaves.length ∧
    rootWeight.toNat = tree.weight

/-- The invariant is four parts that share no field of the state, so a step that writes the fields of
one part keeps the others by `rfl`. -/
theorem inv_iff_parts (s : State) : Inv s ↔
    MemoryPart s.cfg s.mem ∧ CodesPart s.code s.codesValid s.maxlen ∧
      DictPart s.dmap s.dictLoaded ∧ TreePart s.tree s.nleaves s.rootWeight := by
  constructor
  · intro h
    exact ⟨⟨h.cfgLegal, h.memCanonical, h.memInside⟩,
      ⟨h.codeMatchable, h.codesOff, h.maxlenBound, h.maxlenOfCodes⟩, h.dictOff,
      h.treeWellFormed, h.leafCount, h.rootWeight⟩
  · rintro ⟨⟨hlegal, hwf, hin⟩, ⟨hmatch, hoff, hbound, hmax⟩, hdict, htree, hcount, hweight⟩
    exact ⟨hlegal, hwf, hin, hmatch, hoff, hdict, htree, hcount, hweight, hbound, hmax⟩

theorem codesPart_fill {maxlen : BitVec 4} (h : maxlen.toNat ≤ 8) :
    CodesPart (Table.fill none) false maxlen :=
  ⟨allMatchable_fill, fun _ => rfl, h, by simp⟩

theorem codesPart_cleared : CodesPart (Table.fill none) false 0#4 := codesPart_fill (by decide)

theorem codesPart_of_allMatchable {c : Table (Option Code)} (hc : allMatchable c) :
    CodesPart c true (BitVec.ofNat 4 (maxCodeLen c)) := by
  have hle := maxCodeLen_le hc
  have hnat : (BitVec.ofNat 4 (maxCodeLen c)).toNat = maxCodeLen c := by
    rw [BitVec.toNat_ofNat]
    omega
  exact ⟨hc, by simp, by omega, fun _ => hnat⟩

theorem treePart_noTree : TreePart .noTree 0#9 0#40 := ⟨by simp, rfl, rfl⟩

theorem treePart_buildTree (freq : Table Word) :
    TreePart (buildTree freq).1 (BitVec.ofNat 9 (leavesOf freq).length)
      (BitVec.ofNat 40 (buildTree freq).1.weight) := by
  refine ⟨fun t ht => wellFormed_of_buildTree ht, ?_, ?_⟩
  · have := length_leavesOf_le freq
    rw [(perm_leaves_buildTree freq).length_eq, BitVec.toNat_ofNat]
    omega
  · have := weight_buildTree_lt freq
    rw [BitVec.toNat_ofNat]
    omega

/-! ### Commands keep the invariant -/

theorem MemoryPart.engine {s : State} {e : Engine} (h : MemoryPart s.cfg s.mem)
    (he : e.ReachedFrom s) : MemoryPart s.cfg e.mem :=
  ⟨h.1, he.within h.2⟩

theorem CommandEffect.inv {s u : State} {i : Instr} {e : ErrCode} (hu : CommandEffect s i e u)
    (h : Inv s) : Inv u := by
  obtain ⟨hmem, hcodes, hdict, htree⟩ := (inv_iff_parts s).1 h
  rw [inv_iff_parts]
  cases hu with
  | nothing => exact ⟨hmem, hcodes, hdict, htree⟩
  | count => exact ⟨hmem, hcodes, hdict, htree⟩
  | build => exact ⟨hmem, codesPart_fill h.maxlenBound, hdict, treePart_buildTree s.freq⟩
  | assign c hc => exact ⟨hmem, codesPart_of_allMatchable hc, hdict, htree⟩
  | codeTooLong => exact ⟨hmem, codesPart_cleared, hdict, htree⟩
  | dictWrite f => exact ⟨hmem.engine (dictWriteRun_reached f s), hcodes, hdict, htree⟩
  | dictWriteStop f => exact ⟨hmem.engine (dictWriteRun_reached f s), hcodes, hdict, htree⟩
  | dictRead f es pos =>
    exact ⟨hmem, codesPart_of_allMatchable (allMatchable_commitEntries es), by simp [DictPart],
      htree⟩
  | encode => exact ⟨hmem.engine (encodeRun_reached s), hcodes, hdict, htree⟩
  | encodeStop => exact ⟨hmem.engine (encodeRun_reached s), hcodes, hdict, htree⟩
  | decode => exact ⟨hmem.engine (decodeRun_reached s), hcodes, hdict, htree⟩
  | decodeStop => exact ⟨hmem.engine (decodeRun_reached s), hcodes, hdict, htree⟩
  | raDecode => exact ⟨hmem.engine (raRun_reached s), hcodes, hdict, htree⟩
  | clear => exact ⟨hmem, codesPart_cleared, fun _ => rfl, treePart_noTree⟩

/-- The end of a command writes no field that the invariant speaks of. -/
theorem Inv.endCommand {s : State} (h : Inv s) (op : BitVec 8) (e : ErrCode) :
    Inv (s.endCommand op e) :=
  (inv_iff_parts _).2 ((inv_iff_parts s).1 h)

theorem Inv.raise {s : State} (h : Inv s) (op : BitVec 8) (e : ErrCode) (r0 r1 : Nat) :
    Inv (s.raise op e r0 r1) :=
  (inv_iff_parts _).2 ((inv_iff_parts s).1 h)

theorem Inv.exec {i : Instr} {s t : State} (h : Inv s) (ht : exec i s = .next t) : Inv t := by
  obtain ⟨u, e, r0, r1, hu, rfl⟩ := exec_endsAt ht
  exact (hu.inv h).raise _ _ _ _

theorem Inv.runCommand {s t : State} {w : Word} (h : Inv s) (ht : s.runCommand w = .next t) :
    Inv t := by
  unfold State.runCommand at ht
  split at ht
  · exact h.exec ht
  · cases ht
    exact h.endCommand _ _

theorem Inv.engineStep {s t : State} (h : Inv s) (ht : s.engineStep = .next t) : Inv t := by
  unfold State.engineStep at ht
  split at ht
  · cases ht
    exact h
  · exact h.runCommand ht

/-! ### The host's interactions keep the invariant -/

theorem Inv.acknowledge {s : State} (h : Inv s) (v : Word) : Inv (s.acknowledge v) := by
  rcases s.acknowledge_cases v with ⟨-, hs⟩ | ⟨-, hs⟩ <;> rw [hs]
  · exact (inv_iff_parts _).2 ((inv_iff_parts s).1 h)
  · exact h

/-- No register write reaches a field that the invariant speaks of. -/
theorem Inv.writeReg {s : State} (h : Inv s) (r : Reg) (v : Word) : Inv (s.writeReg r v) := by
  cases r with
  | status => exact h.acknowledge v
  | _ => exact (inv_iff_parts _).2 ((inv_iff_parts s).1 h)

theorem Inv.portWrite {s : State} (h : Inv s) (r : Reg) (v : Word) : Inv (s.portWrite r v) := by
  rcases s.portWrite_cases r v with ⟨-, hs⟩ | ⟨-, hs⟩ <;> rw [hs]
  · exact h
  · exact h.writeReg r v

theorem Inv.portRead {s : State} (h : Inv s) (r : Reg) : Inv (s.portRead r) := by
  have hparts := (inv_iff_parts s).1 h
  rcases s.portRead_cases r with ⟨-, -, hs⟩ | ⟨-, hs⟩ <;> rw [hs, inv_iff_parts] <;> exact hparts

/-- The invariant holds after reset with any canonical memory inside M. -/
theorem inv_resetOf {cfg : Config} {seed : Nat} {m : Memory} (h : MemoryPart cfg m) :
    Inv (State.resetOf cfg seed m) :=
  (inv_iff_parts _).2 ⟨h, codesPart_cleared, fun _ => rfl, treePart_noTree⟩

theorem Inv.resetInput {s : State} (h : Inv s) : Inv s.resetInput := by
  obtain ⟨⟨hlegal, hmem⟩, -⟩ := (inv_iff_parts s).1 h
  have hland : MemoryPart s.cfg (landWrites s.free s.mem s.trail) :=
    ⟨hlegal, landWrites_within hmem fun c hc => (s.trail_region c hc).2.2⟩
  exact (inv_iff_parts s.resetInput).2
    ((inv_iff_parts (State.resetOf s.cfg s.powerOn _)).1 (inv_resetOf hland))

theorem Inv.interact {s t : State} {a : HostAction} (h : Inv s) (ht : s.interact a = .next t) :
    Inv t := by
  have hparts := (inv_iff_parts s).1 h
  cases a with
  | regWrite off width v =>
    simp only [State.interact] at ht
    split at ht <;> cases ht
    exact h.portWrite _ v
  | regRead off width =>
    simp only [State.interact] at ht
    split at ht <;> cases ht
    exact h.portRead _
  | memWrite x v =>
    obtain ⟨⟨hlegal, hmem⟩, hrest⟩ := hparts
    simp only [State.interact] at ht
    split at ht
    · cases ht
    · split at ht <;> cases ht
      next hx => exact (inv_iff_parts _).2 ⟨⟨hlegal, hmem.store hx v⟩, hrest⟩
  | memRead x =>
    simp only [State.interact] at ht
    split at ht
    · cases ht
    · split at ht <;> cases ht
      exact (inv_iff_parts _).2 hparts
  | wait => exact h.engineStep ht
  | reset =>
    cases ht
    exact h.resetInput

theorem Inv.takeAction {s : State} (h : Inv s) (rest : List HostAction) :
    Inv (s.takeAction rest) :=
  (inv_iff_parts _).2 ((inv_iff_parts s).1 h)

/-- Settles O12: a step is the engine's or an interaction of the host, and each keeps the four parts
of the invariant. -/
theorem stepKeepsTheInvariant : Obligations.StepKeepsTheInvariant := by
  unfold Obligations.StepKeepsTheInvariant
  intro s t h ht
  unfold step State.advance at ht
  split at ht
  · exact h.engineStep ht
  · next rest _ => exact (h.takeAction rest).interact ht

end Sys2Proof.Machine

/-! PROOF. The frame of the commands, the steps that start and run one, STATUS and the interrupt (10_state.md
R26 to R36, R48). -/

namespace Sys2Proof.Machine

/-! ### What commands leave to the host -/

/-- Settles O14: no command's effect writes one of these fields, and neither does a command's end. -/
theorem commandsKeepTheHostsRegisters : Obligations.CommandsKeepTheHostsRegisters := by
  unfold Obligations.CommandsKeepTheHostsRegisters
  intro i s t h
  obtain ⟨u, e, r0, r1, hu, rfl⟩ := exec_endsAt h
  cases hu <;> exact ⟨rfl, rfl, rfl, rfl, rfl, rfl, rfl, rfl, rfl, rfl, rfl, rfl, rfl⟩

theorem CommandEffect.inBitpos {s u : State} {i : Instr} {e : ErrCode}
    (hu : CommandEffect s i e u) :
    u.inBitpos = s.inBitpos ∨ (e = .none ∧ (i = .decode ∨ ∃ f, i = .dictRead f)) := by
  cases hu with
  | decode => exact .inr ⟨rfl, .inl rfl⟩
  | dictRead f => exact .inr ⟨rfl, .inr ⟨f, rfl⟩⟩
  | _ => exact .inl rfl

theorem CommandEffect.outBitpos {s u : State} {i : Instr} {e : ErrCode}
    (hu : CommandEffect s i e u) :
    u.outBitpos = s.outBitpos ∨ (e = .none ∧ (i = .encode ∨ ∃ f, i = .dictWrite f)) := by
  cases hu with
  | encode => exact .inr ⟨rfl, .inl rfl⟩
  | dictWrite f => exact .inr ⟨rfl, .inr ⟨f, rfl⟩⟩
  | _ => exact .inl rfl

theorem CommandEffect.raCursor {s u : State} {i : Instr} {e : ErrCode}
    (hu : CommandEffect s i e u) : u.raCursor = s.raCursor ∨ i = .raDecode := by
  cases hu with
  | raDecode => exact .inr rfl
  | _ => exact .inl rfl

/-- Settles O15: each cursor is in the effect of its writers only, and the effects that write
IN_BITPOS and OUT_BITPOS are those without error. -/
theorem cursorsHaveTheirWriters : Obligations.CursorsHaveTheirWriters := by
  unfold Obligations.CursorsHaveTheirWriters
  intro i s t h
  obtain ⟨u, e, r0, r1, hu, rfl⟩ := exec_endsAt h
  exact ⟨hu.inBitpos.resolve_left, hu.outBitpos.resolve_left, hu.raCursor.resolve_left⟩

/-! ### The steps of a command -/

theorem step_of_nil {s : State} (h : s.host = []) : step s = s.engineStep := by
  simp [step, State.advance, h]

theorem step_of_cons {s : State} {a : HostAction} {rest : List HostAction}
    (h : s.host = a :: rest) : step s = (s.takeAction rest).interact a := by
  simp [step, State.advance, h]

theorem State.engineStep_of_running {s : State} {w : Word} (h : s.running = some w) :
    s.engineStep = s.runCommand w := by
  simp [State.engineStep, h]

theorem State.runCommand_of_command {w : Word} {i : Instr} (h : decodeWord w = .command i)
    (s : State) : s.runCommand w = exec i s := by
  simp [State.runCommand, h]

/-- The step of a host that waits for a running command. -/
theorem step_wait_of_running {s : State} {w : Word} {rest : List HostAction}
    (hrun : s.running = some w) (h : s.host = .wait :: rest) :
    step s = (s.takeAction rest).runCommand w := by
  rw [step_of_cons h]
  exact State.engineStep_of_running hrun

theorem decodeWord_of_decodeTableWord {nbits w : Nat} {i : Instr}
    (h : decodeTableWord nbits w = some i) :
    decodeWord (BitVec.ofNat 32 (w % 2 ^ nbits)) = .command i := by
  simp only [decodeTableWord] at h
  split at h
  · split at h <;> cases h
    assumption
  · cases h

/-- Settles O5: the step is the engine's, which runs the word's decoded command. -/
theorem stepRunsTheDecodedCommand : Obligations.StepRunsTheDecodedCommand := by
  unfold Obligations.StepRunsTheDecodedCommand
  constructor
  · intro s w i hrun hdec
    constructor
    · intro h
      rw [step_of_nil h, State.engineStep_of_running hrun, State.runCommand_of_command hdec]
    · intro rest h
      rw [step_wait_of_running hrun h, State.runCommand_of_command hdec]
      rfl
  · intro s nbits w i h
    have hdec := decodeWord_of_decodeTableWord h
    rw [step_wait_of_running (s := s.withFetchWord nbits w) rfl rfl,
      State.runCommand_of_command hdec]
    rfl

/-! ### Register accesses of the host -/

theorem wholeWord_eq_true {off : BitVec 12} (h : off.toNat % 4 = 0) :
    wholeWord off .word = true := by
  simp [wholeWord, h]

theorem wholeWord_eq_false {off : BitVec 12} {width : AccessWidth}
    (h : width ≠ .word ∨ off.toNat % 4 ≠ 0) : wholeWord off width = false := by
  rcases h with h | h <;> simp [wholeWord, h]

theorem step_regWrite {s : State} {off : BitVec 12} {v : Word} {rest : List HostAction}
    (hoff : off.toNat % 4 = 0) (h : s.host = .regWrite off .word v :: rest) :
    step s = .next ((s.takeAction rest).portWrite (regAt off) v) := by
  simp [step_of_cons h, State.interact, wholeWord_eq_true hoff]

theorem step_regRead {s : State} {off : BitVec 12} {rest : List HostAction}
    (hoff : off.toNat % 4 = 0) (h : s.host = .regRead off .word :: rest) :
    step s = .next ((s.takeAction rest).portRead (regAt off)) := by
  simp [step_of_cons h, State.interact, wholeWord_eq_true hoff]

theorem State.portWrite_of_idle {s : State} (h : s.running = none) (r : Reg) (v : Word) :
    s.portWrite r v = s.writeReg r v := by
  simp [State.portWrite, State.busy, h]

theorem State.portWrite_of_busy {s : State} {w : Word} (h : s.running = some w) (r : Reg)
    (v : Word) : s.portWrite r v = s := by
  simp [State.portWrite, State.busy, h]

theorem State.portRead_status (s : State) :
    s.portRead .status = { s with reply := .word s.statusWord } := by
  simp [State.portRead, State.readReg]

theorem State.portRead_of_busy {s : State} {w : Word} (h : s.running = some w) {r : Reg}
    (hr : r ≠ .status) :
    s.portRead r = { s with reply := .word (Config.busyRead s.free), free := s.free + 1 } := by
  simp [State.portRead, State.busy, h, hr]

/-- The step of a host that writes a register of an idle block. -/
theorem step_regWrite_of_idle {s : State} {off : BitVec 12} {v : Word} {rest : List HostAction}
    (hidle : s.running = none) (hoff : off.toNat % 4 = 0)
    (h : s.host = .regWrite off .word v :: rest) :
    step s = .next ((s.takeAction rest).writeReg (regAt off) v) := by
  rw [step_regWrite hoff h, State.portWrite_of_idle (by exact hidle)]

/-- Settles O6: offset 0x008 is CMD, whose write latches the word; the wait is the engine's step. -/
theorem cmdWriteStartsTheCommand : Obligations.CmdWriteStartsTheCommand := by
  unfold Obligations.CmdWriteStartsTheCommand
  intro s w rest hidle h
  constructor
  · rw [step_regWrite_of_idle hidle (by decide) h]
    rfl
  · exact step_wait_of_running rfl rfl

/-! ### STATUS and the interrupt -/

theorem State.err_eq (s : State) : s.err = decide (s.error ≠ .none) := by
  cases h : s.error <;> simp [State.err, h, ErrCode.value]

/-- STATUS bit by bit: the field in which bit `i` lies, and the bit of that field. -/
theorem State.getLsbD_statusWord (s : State) (i : Nat) : s.statusWord.getLsbD i =
    if i < 1 then (BitVec.ofBool s.busy).getLsbD i
    else if i < 2 then (BitVec.ofBool s.done).getLsbD (i - 1)
    else if i < 3 then (BitVec.ofBool s.err).getLsbD (i - 2)
    else if i < 4 then (BitVec.ofBool s.dictLoaded).getLsbD (i - 3)
    else if i < 5 then (BitVec.ofBool s.codesValid).getLsbD (i - 4)
    else if i < 7 then s.tree.state.getLsbD (i - 5)
    else if i < 8 then false
    else if i < 16 then s.error.value.getLsbD (i - 8)
    else if i < 24 then s.lastOp.getLsbD (i - 16)
    else false := by
  have happend : s.statusWord.getLsbD i =
      (0#8 ++ s.lastOp ++ s.error.value ++ 0#1 ++ s.tree.state ++ BitVec.ofBool s.codesValid ++
        BitVec.ofBool s.dictLoaded ++ BitVec.ofBool s.err ++ BitVec.ofBool s.done ++
        BitVec.ofBool s.busy : BitVec (8 + 8 + 8 + 1 + 2 + 1 + 1 + 1 + 1 + 1)).getLsbD i := rfl
  have hsub (b c : Nat) : i - b < c + 1 ↔ i < b + c + 1 := by omega
  rw [happend]
  simp only [BitVec.getLsbD_append]
  simp only [Nat.sub_sub, hsub, Nat.reduceAdd, BitVec.getLsbD_zero]

theorem State.extractLsb'_statusWord (s : State) (start len : Nat) (x : BitVec len)
    (h : ∀ i < len, s.statusWord.getLsbD (start + i) = x.getLsbD i) :
    s.statusWord.extractLsb' start len = x :=
  BitVec.eq_of_getLsbD_eq fun i hi => by
    rw [BitVec.getLsbD_extractLsb', h i hi, decide_eq_true hi, Bool.true_and]

/-- Settles O47: the fields are the parts of a concatenation, each at its own bits. -/
theorem statusWordHasItsFields : Obligations.StatusWordHasItsFields := by
  unfold Obligations.StatusWordHasItsFields
  refine ⟨rfl, ⟨rfl, rfl, fun _ _ => rfl, fun _ _ => rfl⟩, fun s => ⟨rfl, ?_⟩⟩
  have hbit := s.getLsbD_statusWord
  have hslice := s.extractLsb'_statusWord
  refine ⟨?_, ?_, ?_, ?_, ?_, hslice _ _ _ fun i hi => ?_, ?_, hslice _ _ _ fun i hi => ?_,
    hslice _ _ _ fun i hi => ?_, hslice _ _ _ fun i hi => ?_⟩ <;> rw [hbit] <;>
    simp (disch := omega) only [if_neg, if_pos, Nat.add_sub_cancel_left]
  · simp [State.busy]
  · simp
  · simp [s.err_eq]
  · simp
  · simp
  · simp

/-- Settles O48: the STATUS write is the acknowledgement. -/
theorem statusWriteAcknowledges : Obligations.StatusWriteAcknowledges := by
  unfold Obligations.StatusWriteAcknowledges
  intro s v
  rcases s.acknowledge_cases v with ⟨hv, hs⟩ | ⟨hv, hs⟩
  · exact ⟨fun _ => hs, fun h => absurd (hv.symm.trans h) (by decide)⟩
  · exact ⟨fun h => absurd (hv.symm.trans h) (by decide), fun _ => hs⟩

/-- Every command, legal or not, ends with DONE = 1 and leaves IRQ_EN. -/
theorem State.irq_of_runCommand {s t : State} {w : Word} (h : s.runCommand w = .next t) :
    t.irq = s.irqEn := by
  unfold State.runCommand at h
  split at h
  · have hkeep := (commandsKeepTheHostsRegisters _ s t h).1
    obtain ⟨u, e, r0, r1, -, rfl⟩ := exec_endsAt h
    simpa [State.irq] using hkeep
  · cases h
    simp [State.irq, State.illegalCommand]

/-- Settles O49: a command's end sets DONE and keeps IRQ_EN, the acknowledgement clears DONE. -/
theorem interruptFollowsCompletion : Obligations.InterruptFollowsCompletion := by
  unfold Obligations.InterruptFollowsCompletion
  refine ⟨fun _ => rfl, fun s t w h => s.irq_of_runCommand h, fun s v hv => ?_⟩
  rw [(statusWriteAcknowledges s v).1 hv]
  simp [State.irq]

end Sys2Proof.Machine

/-! PROOF. The register map and the host's reads and writes of registers (10_state.md R21 to R41, R50). -/

namespace Sys2Proof.Machine

/-! ### The register map -/

theorem step_regWrite_of_shape {s : State} {off : BitVec 12} {width : AccessWidth} {v : Word}
    {rest : List HostAction} (hshape : width ≠ .word ∨ off.toNat % 4 ≠ 0)
    (h : s.host = .regWrite off width v :: rest) : step s = .refused .registerAccessShape := by
  simp [step_of_cons h, State.interact, wholeWord_eq_false hshape]

theorem step_regRead_of_shape {s : State} {off : BitVec 12} {width : AccessWidth}
    {rest : List HostAction} (hshape : width ≠ .word ∨ off.toNat % 4 ≠ 0)
    (h : s.host = .regRead off width :: rest) : step s = .refused .registerAccessShape := by
  simp [step_of_cons h, State.interact, wholeWord_eq_false hshape]

/-- The registers whose writes have no effect (10_state.md R22). -/
theorem State.writeReg_readOnly (s : State) (v : Word) (b : Byte) :
    ∀ r ∈ [Reg.id, .raCursor, .result0, .result1, .nleaves, .rootWeightLo, .rootWeightHi,
      .maxlen, .code b, .reserved], s.writeReg r v = s := by
  intro r hr
  simp only [List.mem_cons, List.not_mem_nil, or_false] at hr
  rcases hr with rfl | rfl | rfl | rfl | rfl | rfl | rfl | rfl | rfl | rfl <;> rfl

theorem setWidth_ofBool_getLsbD_zero (v : Word) :
    (BitVec.ofBool (v.getLsbD 0)).setWidth 32 = v &&& 1#32 := by
  apply BitVec.eq_of_getLsbD_eq
  intro i hi
  rcases Nat.eq_zero_or_pos i with rfl | hpos
  · simp
  · simp [hi, Nat.ne_of_gt hpos]

/-- Settles O50: the read values are the definition's, a write of CTRL keeps one bit, and an access of
another shape than one aligned word never reaches the registers. -/
theorem reservedAndReadOnlyRegisters : Obligations.ReservedAndReadOnlyRegisters := by
  unfold Obligations.ReservedAndReadOnlyRegisters
  intro s v b
  exact ⟨rfl, rfl, rfl, s.writeReg_readOnly v b, setWidth_ofBool_getLsbD_zero v, rfl,
    fun _ _ _ hshape => ⟨step_regWrite_of_shape hshape, step_regRead_of_shape hshape⟩⟩

/-- Above offset 0x04C there is no single register (10_state.md R21). -/
theorem regMap_lookup_eq_none {n : Nat} (h : 0x04C < n) : regMap.lookup n = none := by
  rw [List.lookup_eq_none_iff]
  intro p hp
  have hle : ∀ p ∈ regMap, p.1 ≤ 0x04C := by decide
  have hne : n ≠ p.1 := by
    have := hle p hp
    omega
  simpa using hne

theorem regAt_of_freq {off : BitVec 12} {b : Byte} (h : off.toNat = 0x400 + 4 * b.toNat) :
    regAt off = .freq b := by
  have hlt := b.isLt
  have hdiv : (off.toNat - 0x400) / 4 = b.toNat := by omega
  unfold regAt
  dsimp only
  rw [regMap_lookup_eq_none (by omega), if_pos (by omega),
    hdiv, BitVec.ofNat_toNat, BitVec.setWidth_eq]

theorem regAt_of_code {off : BitVec 12} {b : Byte} (h : off.toNat = 0x800 + 4 * b.toNat) :
    regAt off = .code b := by
  have hlt := b.isLt
  have hdiv : (off.toNat - 0x800) / 4 = b.toNat := by omega
  unfold regAt
  dsimp only
  rw [regMap_lookup_eq_none (by omega), if_neg (by omega), if_pos (by omega),
    hdiv, BitVec.ofNat_toNat, BitVec.setWidth_eq]

theorem regAt_of_gap {off : BitVec 12} (h : 0x04C < off.toNat)
    (hgap : off.toNat < 0x400 ∨ 0xC00 ≤ off.toNat) : regAt off = .reserved := by
  unfold regAt
  dsimp only
  rw [regMap_lookup_eq_none h, if_neg (by omega), if_neg (by omega)]

theorem toNat_codeWord {k : Code} (h : k.len ≤ 8) :
    (codeWord (some k)).toNat = 2 ^ 16 + k.len * 2 ^ 8 + k.data.toNat := by
  have := k.data.isLt
  rw [codeWord, BitVec.toNat_ofNat]
  omega

/-- The two registers of the root weight are its low 32 and its high 8 bits (10_state.md R38). -/
theorem State.toNat_rootWeight (s : State) :
    (s.readReg .rootWeightLo).toNat = s.rootWeight.toNat % 2 ^ 32 ∧
    (s.readReg .rootWeightHi).toNat = s.rootWeight.toNat / 2 ^ 32 := by
  have := s.rootWeight.isLt
  simp only [State.readReg, BitVec.extractLsb'_toNat, BitVec.toNat_setWidth,
    Nat.shiftRight_eq_div_pow]
  omega

/-- Settles O51: the single registers lie below 0x050, so an offset above falls into a window or a
gap; and the words shown are as wide as their fields. -/
theorem registerMapHasItsOffsets : Obligations.RegisterMapHasItsOffsets := by
  unfold Obligations.RegisterMapHasItsOffsets
  refine ⟨by decide, fun b => ?_, fun off haligned hgap => ?_, fun s b => ?_, fun s => ?_⟩
  · have := b.isLt
    exact ⟨regAt_of_freq (by rw [BitVec.toNat_ofNat]; omega),
      regAt_of_code (by rw [BitVec.toNat_ofNat]; omega)⟩
  · exact regAt_of_gap (by omega) (by omega)
  · exact ⟨fun h => by simp [State.readReg, h, codeWord],
      fun k h hlen => by rw [State.readReg, h, toNat_codeWord hlen]⟩
  · obtain ⟨hlo, hhi⟩ := s.toNat_rootWeight
    have hn := s.nleaves.isLt
    have hm := s.maxlen.isLt
    refine ⟨?_, hlo, hhi, ?_⟩ <;> rw [State.readReg, BitVec.toNat_setWidth] <;> omega

/-! ### Registers that hold what the host writes -/

/-- The registers a host writes and reads back whole (10_state.md R30 to R35, R40). -/
def Reg.isPlain : Reg → Bool
  | .srcAddr | .srcLen | .dstAddr | .dstCap | .inBitpos | .bitEnd | .outBitpos | .raOffset
  | .raLength | .freq _ => true
  | _ => false

theorem State.readReg_writeReg_same (s : State) {r : Reg} (h : r.isPlain = true) (v : Word) :
    (s.writeReg r v).readReg r = v := by
  cases r with
  | freq b => exact Table.read_write_same s.freq b v
  | srcAddr | srcLen | dstAddr | dstCap | inBitpos | bitEnd | outBitpos | raOffset | raLength => rfl
  | _ => cases h

theorem State.readReg_writeReg_other (s : State) {r r' : Reg} (h : r.isPlain = true)
    (hne : r' ≠ r) (v : Word) : (s.writeReg r v).readReg r' = s.readReg r' := by
  cases r with
  | freq b =>
    cases r' with
    | freq b' => exact Table.read_write_other s.freq v fun hb => hne (hb ▸ rfl)
    | _ => rfl
  | srcAddr | srcLen | dstAddr | dstCap | inBitpos | bitEnd | outBitpos | raOffset | raLength =>
    cases r' <;> trivial
  | _ => cases h

theorem Reg.isPlain_of_mem {r : Reg}
    (h : r ∈ [Reg.srcAddr, .srcLen, .dstAddr, .dstCap, .inBitpos, .bitEnd, .outBitpos, .raOffset,
      .raLength] ∨ ∃ b, r = .freq b) : r.isPlain = true := by
  rcases h with h | ⟨b, rfl⟩
  · revert r
    decide
  · rfl

theorem State.writeReg_frame (s : State) (r : Reg) (v : Word) :
    (s.writeReg r v).mem = s.mem ∧ (s.writeReg r v).dmap = s.dmap ∧
      (s.writeReg r v).tree = s.tree := by
  cases r with
  | status => rcases s.acknowledge_cases v with ⟨-, h⟩ | ⟨-, h⟩ <;> simp [State.writeReg, h]
  | _ => exact ⟨rfl, rfl, rfl⟩

/-- Settles O52: the port writes the register at the offset, and a plain register is one field or one
entry of FREQ. -/
theorem readWriteRegistersHoldTheirWord : Obligations.ReadWriteRegistersHoldTheirWord := by
  unfold Obligations.ReadWriteRegistersHoldTheirWord
  refine ⟨fun s off v rest hidle hoff h => step_regWrite_of_idle hidle hoff h, fun s r v hr => ?_⟩
  have hplain := Reg.isPlain_of_mem hr
  exact ⟨s.readReg_writeReg_same hplain v, fun r' hne => s.readReg_writeReg_other hplain hne v,
    s.writeReg_frame r v⟩

/-! ### The registers of a busy block -/

/-- Settles O54: the port's write does nothing while BUSY, and its read is a free value but for
STATUS. -/
theorem busyBlockIgnoresRegisterWrites : Obligations.BusyBlockIgnoresRegisterWrites := by
  unfold Obligations.BusyBlockIgnoresRegisterWrites
  intro s w off rest hrun hoff
  have hbusy : (s.takeAction rest).running = some w := hrun
  refine ⟨fun v h => ?_, fun h hstatus => ?_, fun h hother => ⟨Config.busyRead s.free, ?_⟩⟩
  · rw [step_regWrite hoff h, State.portWrite_of_busy hbusy]
    rfl
  · rw [step_regRead hoff h, hstatus, State.portRead_status]
    rfl
  · rw [step_regRead hoff h, State.portRead_of_busy hbusy hother]
    rfl

end Sys2Proof.Machine

/-! PROOF. The data memory: what a command's list of byte writes does to M, the host's ports of an idle block,
and the engine's stream primitives (20_memory.md R71 to R90). -/

namespace Sys2Proof.Machine

/-! ### The byte writes of a command -/

@[simp] theorem applyWrites_nil (m : Memory) : applyWrites m [] = m := rfl

/-- After byte writes, a byte is the newest value written to its address, else its old value. -/
theorem Memory.byte_applyWrites (m : Memory) (ws : List Host.Cell) (seed a : Nat) :
    (applyWrites m ws).byte seed a =
      ((ws.find? (fun c => c.1 == a)).map Prod.snd).getD (m.byte seed a) := by
  induction ws with
  | nil => rfl
  | cons c ws ih =>
    change ((applyWrites m ws).store c.1 c.2).byte seed a = _
    rw [Memory.byte_store, ih]
    by_cases hc : a = c.1
    · simp [hc]
    · simp [hc, Ne.symm hc]

/-- The memory a command leaves is the old one after the writes of its list: those of its run where
its checks pass, none otherwise. -/
theorem exec_mem {i : Instr} {s t : State} (h : exec i s = .next t) :
    t.mem = applyWrites s.mem (commandTrail i s) := by
  cases i with
  | dictWrite f =>
    have hrun := (dictWriteRun_reached f s).memory
    rcases execDictWrite_cases f s with ⟨hv, hx⟩ | ⟨hv, _, hx⟩ | ⟨hv, _, hx⟩ <;> rw [hx] at h <;>
      cases h <;> simp [commandTrail, hv, hrun]
  | encode =>
    have hrun := (encodeRun_reached s).memory
    rcases execEncode_cases s with ⟨hv, hx⟩ | ⟨hv, ho, hx⟩ | ⟨hv, ho, _, hx⟩ | ⟨hv, ho, _, hx⟩ <;>
      rw [hx] at h <;> cases h <;> simp [commandTrail, *]
  | decode =>
    have hrun := (decodeRun_reached s).memory
    rcases execDecode_cases s with ⟨hl, hx⟩ | ⟨hl, ho, hx⟩ | ⟨hl, ho, _, hx⟩ | ⟨hl, ho, _, hx⟩ <;>
      rw [hx] at h <;> cases h <;> simp [commandTrail, *]
  | raDecode =>
    have hrun := (raRun_reached s).memory
    rcases execRaDecode_cases s with ⟨hl, hx⟩ | ⟨hl, hn, hx⟩ | ⟨hl, hn, ho, hx⟩ |
      ⟨hl, hn, ho, _, hx⟩ | ⟨hl, hn, ho, _, hx⟩ <;>
      rw [hx] at h <;> cases h <;> simp [commandTrail, *]
  | _ =>
    obtain ⟨u, e, r0, r1, hu, rfl⟩ := exec_endsAt h
    cases hu <;> rfl

theorem exec_powerOn {i : Instr} {s t : State} (h : exec i s = .next t) :
    t.powerOn = s.powerOn := by
  obtain ⟨u, e, r0, r1, hu, rfl⟩ := exec_endsAt h
  cases hu <;> rfl

/-- Settles O10: the command leaves M as its writes leave it, and the newest write to an address is
the one that counts. -/
theorem trailIsWhatTheCommandWrites : Obligations.TrailIsWhatTheCommandWrites := by
  unfold Obligations.TrailIsWhatTheCommandWrites
  intro i s t h a
  rw [State.byteAt, exec_mem h, exec_powerOn h, Memory.byte_applyWrites]
  rfl

/-- Only four commands have byte writes. -/
theorem storing_of_mem_commandTrail {i : Instr} {s : State} {c : Host.Cell}
    (h : c ∈ commandTrail i s) :
    (∃ f, i = .dictWrite f) ∨ i = .encode ∨ i = .decode ∨ i = .raDecode := by
  cases i with
  | dictWrite f => exact .inl ⟨f, rfl⟩
  | encode => exact .inr (.inl rfl)
  | decode => exact .inr (.inr (.inl rfl))
  | raDecode => exact .inr (.inr (.inr rfl))
  | _ => cases h

/-- A byte that a command changes is one that its list of byte writes names. -/
theorem exists_write_of_byteAt_ne {i : Instr} {s t : State} {a : Nat} (h : exec i s = .next t)
    (hne : t.byteAt a ≠ s.byteAt a) : ∃ c ∈ commandTrail i s, c.1 = a := by
  rw [trailIsWhatTheCommandWrites i s t h a] at hne
  cases hfind : (commandTrail i s).find? (fun c => c.1 == a) with
  | none => simp [hfind] at hne
  | some c => exact ⟨c, List.mem_of_find?_eq_some hfind, by simpa using List.find?_some hfind⟩

/-- Settles O17: a changed byte has a write in the command's list, whose writes lie in the
destination region and in M. -/
theorem storesStayInTheDestination : Obligations.StoresStayInTheDestination := by
  unfold Obligations.StoresStayInTheDestination
  intro i s t a h hne
  obtain ⟨c, hc, rfl⟩ := exists_write_of_byteAt_ne h hne
  exact ⟨storing_of_mem_commandTrail hc, commandTrail_region i s c hc⟩

/-! ### The engine's accesses of M -/

/-- Settles O56: the two ways an access answers, and the byte that the write sets. -/
theorem engineAccessIsBounded : Obligations.EngineAccessIsBounded := by
  unfold Obligations.EngineAccessIsBounded
  intro s e a v
  rcases memRead_cases s e a with ⟨ha, hread⟩ | ⟨ha, hread⟩ <;>
    rcases memWrite_cases s e a v with ⟨ha', hwrite⟩ | ⟨ha', hwrite⟩
  · exact ⟨fun _ => ⟨hread, hwrite⟩, fun _ => by omega⟩
  · omega
  · omega
  · refine ⟨fun _ => by omega, fun _ => ⟨hread, _, hwrite, ?_, fun x hx => ?_⟩⟩
    · simp [Memory.byte_store]
    · simp [Memory.byte_store, hx]

/-! ### The source and destination regions -/

theorem State.lt_srcReadable_iff (s : State) (i : Nat) : i < s.srcReadable ↔
    i < s.srcLen.toNat ∧ s.srcAddr.toNat + i < s.cfg.memBytes := by
  unfold State.srcReadable
  omega

theorem State.lt_dstWritable_iff (s : State) (k : Nat) : k < s.dstWritable ↔
    k < s.dstCap.toNat ∧ s.dstAddr.toNat + k < s.cfg.memBytes := by
  unfold State.dstWritable
  omega

/-- A readable byte of the source region, before the command has written. -/
theorem srcByte_of_readable {s : State} {i : Nat} (h : i < s.srcReadable) :
    srcByte s s.engine i = .ok (some (s.srcAt i)) := by
  obtain ⟨hlen, hmem⟩ := (s.lt_srcReadable_iff i).1 h
  rcases srcByte_cases s s.engine i with ⟨hend, _⟩ | ⟨_, hout, _⟩ | ⟨_, _, hbyte⟩
  · omega
  · omega
  · exact hbyte

theorem srcBit_of_readable {s : State} {p : Nat} (h : p / 8 < s.srcReadable) :
    srcBit s s.engine p = .ok (some (s.srcBitAt p)) := by
  rw [srcBit, srcByte_of_readable h]
  rfl

/-- Settles O57: the three answers of the source stream, each in its range of positions. -/
theorem sourceStreamReadsMsbFirst : Obligations.SourceStreamReadsMsbFirst := by
  unfold Obligations.SourceStreamReadsMsbFirst
  intro s p
  refine ⟨fun hend => ?_, fun hlen hout => ?_,
    fun h => ⟨srcByte_of_readable h, srcBit_of_readable h⟩⟩
  · rcases srcBit_cases s s.engine p with ⟨_, hbit⟩ | ⟨hlen, _⟩ | ⟨hlen, _⟩
    · exact hbit
    · omega
    · omega
  · rcases srcBit_cases s s.engine p with ⟨hend, _⟩ | ⟨_, _, hbit⟩ | ⟨_, hmem, _⟩
    · omega
    · exact hbit
    · omega

/-- Settles O58: the byte of the bit is written back with one bit position set. -/
theorem destinationBitIsOneBit : Obligations.DestinationBitIsOneBit := by
  unfold Obligations.DestinationBitIsOneBit
  intro s e q b
  have hroom := s.lt_dstWritable_iff (q / 8)
  rcases dstBit_cases s e q b with ⟨hout, hbit⟩ | ⟨hcap, hmem, hbit⟩
  · exact ⟨fun _ => hbit, fun _ => by omega⟩
  · refine ⟨fun _ => by omega, fun _ => ⟨_, hbit, fun a j hj => ?_⟩⟩
    rw [Memory.byte_store]
    by_cases ha : a = s.dstAddr.toNat + q / 8
    · simp [ha, getLsbD_setBitOfByte _ q b j hj]
    · simp [ha]

/-- Settles O59: the larger of the two start addresses is shared exactly when the test holds. -/
theorem overlapIsASharedAddress : Obligations.OverlapIsASharedAddress := by
  unfold Obligations.OverlapIsASharedAddress
  intro s
  simp only [State.overlap, Bool.and_eq_true, decide_eq_true_eq]
  constructor
  · rintro ⟨⟨⟨hlen, hcap⟩, hsrc⟩, hdst⟩
    exact ⟨max s.srcAddr.toNat s.dstAddr.toNat, by omega, by omega⟩
  · rintro ⟨a, hsrc, hdst⟩
    omega

/-! ### The host's ports of an idle block -/

theorem State.portRead_of_idle {s : State} (h : s.running = none) (r : Reg) :
    s.portRead r = { s with reply := .word (s.readReg r) } := by
  simp [State.portRead, State.busy, h]

/-- What a register reads as does not depend on the host's list and the reply. -/
theorem State.readReg_takeAction (s : State) (rest : List HostAction) (r : Reg) :
    (s.takeAction rest).readReg r = s.readReg r := by
  cases r <;> rfl

/-- Settles O53: the idle port's read gives the register's word back, and writes the reply only. -/
theorem registerReadHasNoSideEffect : Obligations.RegisterReadHasNoSideEffect := by
  unfold Obligations.RegisterReadHasNoSideEffect
  intro s off rest hidle hoff h
  rw [step_regRead hoff h, State.portRead_of_idle (by exact hidle), State.readReg_takeAction]
  rfl

/-- The step of a host that writes a byte of M to an idle block. -/
theorem step_memWrite_of_idle {s : State} {a : Nat} {v : Byte} {rest : List HostAction}
    (hidle : s.running = none) (ha : a < s.cfg.memBytes) (h : s.host = .memWrite a v :: rest) :
    step s = .next { s with mem := s.mem.store a v, host := rest, reply := .nothing } := by
  simp [step_of_cons h, State.takeAction, State.interact, State.busy, hidle, ha]

/-- The step of a host that reads a byte of M from an idle block. -/
theorem step_memRead_of_idle {s : State} {a : Nat} {rest : List HostAction}
    (hidle : s.running = none) (ha : a < s.cfg.memBytes) (h : s.host = .memRead a :: rest) :
    step s = .next { s with host := rest, reply := .byte (s.byteAt a) } := by
  simp [step_of_cons h, State.takeAction, State.interact, State.busy, State.byteAt, hidle, ha]

/-- The host's access of an address outside M is refused (log 9). -/
theorem step_memory_outside {s : State} {a : Nat} {v : Byte} {rest : List HostAction}
    (hidle : s.running = none) (ha : s.cfg.memBytes ≤ a)
    (h : s.host = .memWrite a v :: rest ∨ s.host = .memRead a :: rest) :
    step s = .refused .hostAddressOutsideM := by
  rcases h with h | h <;>
    simp [step_of_cons h, State.takeAction, State.interact, State.busy, hidle, Nat.not_lt.2 ha]

/-- The host's access of M while BUSY is a race (log 8). -/
theorem step_memory_busy {s : State} {a : Nat} {v : Byte} {rest : List HostAction}
    (hbusy : s.running ≠ none)
    (h : s.host = .memWrite a v :: rest ∨ s.host = .memRead a :: rest) :
    step s = .fault .hostMemoryRace := by
  have hisSome : s.running.isSome = true := Option.isSome_iff_ne_none.2 hbusy
  rcases h with h | h <;>
    simp [step_of_cons h, State.takeAction, State.interact, State.busy, hisSome]

/-- Settles O55: the memory port's four answers; its write is a store of one byte. -/
theorem hostMemoryPort : Obligations.HostMemoryPort := by
  unfold Obligations.HostMemoryPort
  intro s a v rest
  refine ⟨fun hidle ha h => ⟨_, step_memWrite_of_idle hidle ha h, rfl, ?_, fun x hx => ?_⟩,
    step_memRead_of_idle, step_memory_outside, step_memory_busy⟩
  · simp [State.byteAt, Memory.byte_store]
  · simp [State.byteAt, Memory.byte_store, hx]

end Sys2Proof.Machine

/-! PROOF. The command words: the fields of a word, the row they select, and which words are illegal
(30_encoding.md R100 to R103, 45_control.md R202). -/

namespace Sys2Proof

/-! ### The fields of a word -/

/-- The three fields are all 32 bits of a word (R100): none is dropped. -/
@[simp] theorem CommandFields.toWord_ofWord (w : Word) : (CommandFields.ofWord w).toWord = w := by
  apply BitVec.eq_of_getLsbD_eq
  intro j hj
  simp only [CommandFields.toWord, CommandFields.ofWord, BitVec.getLsbD_append,
    BitVec.getLsbD_extractLsb', BitVec.getLsbD_ofBool]
  rcases Nat.lt_trichotomy j 8 with h | rfl | h
  · simp [h]
  · simp
  · simp [show ¬ j < 8 by omega, show ¬ j - 8 < 1 by omega, show j - 8 - 1 < 23 by omega,
      show 9 + (j - 8 - 1) = j by omega]

/-- Every command has its own lemma in `Laws.EncodesWellFormed`; here they are for any command. -/
theorem encodesWellFormed (i : Instr) : Laws.EncodesWellFormed.Statement i := by
  cases i with
  | count => exact Laws.EncodesWellFormed.count
  | build => exact Laws.EncodesWellFormed.build
  | assign => exact Laws.EncodesWellFormed.assign
  | dictWrite f => exact Laws.EncodesWellFormed.dictWrite f
  | dictRead f => exact Laws.EncodesWellFormed.dictRead f
  | encode => exact Laws.EncodesWellFormed.encode
  | decode => exact Laws.EncodesWellFormed.decode
  | raDecode => exact Laws.EncodesWellFormed.raDecode
  | clear => exact Laws.EncodesWellFormed.clear

@[simp] theorem Instr.fields_wellFormed (i : Instr) : i.fields.wellFormed = true :=
  (encodesWellFormed i).1

@[simp] theorem CommandFields.ofWord_encode (i : Instr) :
    CommandFields.ofWord (encode i) = i.fields :=
  (encodesWellFormed i).2

/-- A word is a command's word when its fields are the command's. -/
theorem CommandFields.ofWord_eq_fields_iff (w : Word) (i : Instr) :
    CommandFields.ofWord w = i.fields ↔ w = encode i := by
  constructor
  · intro h
    calc w = (CommandFields.ofWord w).toWord := (CommandFields.toWord_ofWord w).symm
      _ = encode i := by rw [h, encode]
  · rintro rfl
    exact CommandFields.ofWord_encode i

/-! ### The row that OP and F select -/

@[simp] theorem SizeForm.bit_ofBit (f : Bool) : (SizeForm.ofBit f).bit = f := by cases f <;> rfl

@[simp] theorem SizeForm.ofBit_bit (f : SizeForm) : SizeForm.ofBit f.bit = f := by cases f <;> rfl

/-- The row of a command's OP and F is the command's (R102). -/
@[simp] theorem decodeRow_opcode_form (i : Instr) :
    decodeRow i.opcode.toNat i.form = .command i := by
  cases i with
  | dictWrite f => exact congrArg (Decoded.command ∘ Instr.dictWrite) f.ofBit_bit
  | dictRead f => exact congrArg (Decoded.command ∘ Instr.dictRead) f.ofBit_bit
  | _ => rfl

/-- A row's command has the row's OP and F: no two rows share them (R102). -/
theorem opcode_form_of_decodeRow {op : Nat} {f : Bool} {i : Instr}
    (h : decodeRow op f = .command i) : op = i.opcode.toNat ∧ f = i.form := by
  unfold decodeRow at h
  split at h
  case h_10 => split at h <;> cases h
  all_goals
    cases h
    simp [Instr.opcode, Instr.form]

theorem decodeRow_eq_command_iff (op : BitVec 8) (f : Bool) (i : Instr) :
    decodeRow op.toNat f = .command i ↔ op = i.opcode ∧ f = i.form := by
  constructor
  · intro h
    obtain ⟨hop, hf⟩ := opcode_form_of_decodeRow h
    exact ⟨BitVec.eq_of_toNat_eq hop, hf⟩
  · rintro ⟨rfl, rfl⟩
    exact decodeRow_opcode_form i

/-! ### The checks of a legal word -/

theorem CommandFields.opListed_iff (c : CommandFields) :
    c.opListed = true ↔ 1 ≤ c.op.toNat ∧ c.op.toNat ≤ 9 := by
  simp [CommandFields.opListed, BitVec.le_def]

theorem CommandFields.opListed_eq_false_iff (c : CommandFields) :
    c.opListed = false ↔ c.op = 0#8 ∨ 0x0A ≤ c.op.toNat := by
  rw [← Bool.not_eq_true, c.opListed_iff, ← BitVec.toNat_inj, BitVec.toNat_ofNat]
  omega

theorem CommandFields.reservedZero_eq_false_iff (c : CommandFields) :
    c.reservedZero = false ↔ c.zero ≠ 0#23 := by
  simp [CommandFields.reservedZero]

theorem CommandFields.formAllowed_eq_false_iff (c : CommandFields) :
    c.formAllowed = false ↔ c.f = true ∧ c.op ≠ 0x04#8 ∧ c.op ≠ 0x05#8 := by
  simp [CommandFields.formAllowed, and_assoc]

/-- The checks of a legal word, failed one by one, in the words of R103. -/
theorem CommandFields.wellFormed_eq_false_iff (c : CommandFields) :
    c.wellFormed = false ↔
      c.op = 0#8 ∨ 0x0A ≤ c.op.toNat ∨ c.zero ≠ 0#23 ∨
        (c.f = true ∧ c.op ≠ 0x04#8 ∧ c.op ≠ 0x05#8) := by
  rw [CommandFields.wellFormed, Bool.and_eq_false_iff, Bool.and_eq_false_iff,
    c.opListed_eq_false_iff, c.reservedZero_eq_false_iff, c.formAllowed_eq_false_iff, or_assoc,
    or_assoc]

/-- No row is selected where OP is in no row, or F is 1 beside an OP that takes no size form (R103). -/
theorem not_listed_or_not_allowed_of_decodeRow {c : CommandFields} {why : IllegalWord}
    (h : decodeRow c.op.toNat c.f = .illegal why) : c.opListed = false ∨ c.formAllowed = false := by
  unfold decodeRow at h
  split at h
  -- The last arm, which no row's pattern reaches; every other arm answers a command.
  case h_10 h4 h5 h1 h2 h3 h6 h7 h8 h9 =>
    cases hf : c.f with
    | true =>
      right
      rw [c.formAllowed_eq_false_iff]
      exact ⟨hf, fun hop => h4 (congrArg BitVec.toNat hop),
        fun hop => h5 (congrArg BitVec.toNat hop)⟩
    | false =>
      left
      simp only [hf, forall_const, imp_false] at h4 h5 h1 h2 h3 h6 h7 h8 h9
      rw [← Bool.not_eq_true, c.opListed_iff]
      omega
  all_goals cases h

/-! ### The decoder's two answers -/

theorem CommandFields.eq_fields_iff (c : CommandFields) (i : Instr) :
    c = i.fields ↔ c.op = i.opcode ∧ c.zero = 0#23 ∧ c.f = i.form := by
  obtain ⟨op, f, zero⟩ := c
  simp [Instr.fields, and_comm]

theorem decodeWord_of_zero {w : Word} (h : (CommandFields.ofWord w).zero = 0#23) :
    decodeWord w = decodeRow (CommandFields.ofWord w).op.toNat (CommandFields.ofWord w).f := by
  simp [decodeWord, h]

theorem decodeWord_of_reserved {w : Word} (h : (CommandFields.ofWord w).zero ≠ 0#23) :
    decodeWord w = .illegal .reservedBits := by
  simp [decodeWord, h]

/-- The decoder answers a command where the word's fields are the command's, every bit of them. -/
theorem decodeWord_eq_command_iff (w : Word) (i : Instr) :
    decodeWord w = .command i ↔ CommandFields.ofWord w = i.fields := by
  rw [CommandFields.eq_fields_iff]
  by_cases hz : (CommandFields.ofWord w).zero = 0#23
  · simp [decodeWord_of_zero hz, decodeRow_eq_command_iff, hz]
  · simp [decodeWord_of_reserved hz, hz]

/-- The decoder refuses the words whose fields fail a check of a legal word (R103). -/
theorem exists_decodeWord_eq_illegal_iff (w : Word) :
    (∃ why, decodeWord w = .illegal why) ↔ (CommandFields.ofWord w).wellFormed = false := by
  constructor
  · rintro ⟨why, h⟩
    by_cases hz : (CommandFields.ofWord w).zero = 0#23
    · rw [decodeWord_of_zero hz] at h
      rcases not_listed_or_not_allowed_of_decodeRow h with hno | hno <;>
        simp [CommandFields.wellFormed, hno]
    · simp [CommandFields.wellFormed, CommandFields.reservedZero, hz]
  · intro hbad
    cases h : decodeWord w with
    | illegal why => exact ⟨why, rfl⟩
    | command i =>
      rw [(decodeWord_eq_command_iff w i).1 h, i.fields_wellFormed] at hbad
      cases hbad

/-- Settles O1: the decoder compares the fields, and the fields are the whole word. -/
theorem decodeAgreesWithEncode : Obligations.DecodeAgreesWithEncode := by
  unfold Obligations.DecodeAgreesWithEncode
  intro w i
  rw [decodeWord_eq_command_iff, CommandFields.ofWord_eq_fields_iff]

/-- Settles O2: the same comparison, field by field; the map's words are the encoder's by computation. -/
theorem commandWordSelectsItsRow : Obligations.CommandWordSelectsItsRow := by
  unfold Obligations.CommandWordSelectsItsRow
  constructor
  · intro w i
    rw [decodeWord_eq_command_iff, CommandFields.eq_fields_iff]
    rfl
  · decide

/-! ### Rows of the opcode table -/

/-- A row of the opcode table that is a command's word reads as that command. -/
theorem decodeTableWord_encode (i : Instr) : decodeTableWord 32 (encode i).toNat = some i := by
  have hdec : decodeWord (encode i) = .command i := (decodeAgreesWithEncode _ i).2 rfl
  have hmod : (encode i).toNat % 2 ^ 32 = (encode i).toNat := Nat.mod_eq_of_lt (encode i).isLt
  simp only [decodeTableWord, hmod, (encode i).isLt, if_true, BitVec.ofNat_toNat, BitVec.setWidth_eq,
    hdec]

/-- Settles O4: seven of the words are the encoder's; each of the other four fails a check. -/
theorem tableWordsDecode : Obligations.TableWordsDecode := by
  unfold Obligations.TableWordsDecode
  refine ⟨decodeTableWord_encode .count, decodeTableWord_encode .assign,
    decodeTableWord_encode (.dictWrite .oneByte), decodeTableWord_encode (.dictRead .twoByte),
    decodeTableWord_encode .encode, decodeTableWord_encode .raDecode,
    decodeTableWord_encode .clear, ?_⟩
  decide

end Sys2Proof

namespace Sys2Proof.Machine

/-! ### The command of an illegal word -/

theorem State.runCommand_of_illegal {w : Word} {why : IllegalWord}
    (h : decodeWord w = .illegal why) (s : State) :
    s.runCommand w = .next (s.illegalCommand w) := by
  simp [State.runCommand, h]

/-- Settles O3: the decoder refuses what fails a check, and the illegal word's action is a command's end
with nothing before it. -/
theorem illegalWordWritesStatusOnly : Obligations.IllegalWordWritesStatusOnly := by
  unfold Obligations.IllegalWordWritesStatusOnly
  intro w
  constructor
  · rw [exists_decodeWord_eq_illegal_iff, CommandFields.wellFormed_eq_false_iff]
    rfl
  · intro s why h
    exact ⟨s.runCommand_of_illegal h, rfl⟩

end Sys2Proof.Machine

/-! PROOF. COUNT and BUILD (40_tree_builder.md): the table that COUNT makes, the level pass, the tree
that the passes end with, its leaves and its weight. -/

namespace Sys2Proof

theorem Table.read_ofFn {α : Type} (f : Byte → α) (b : Byte) :
    Table.read (Vector.ofFn (fun c : Fin 256 => f (BitVec.ofNat 8 c.val))) b = f b := by
  simp [Table.read]

end Sys2Proof

namespace Sys2Proof.Machine

/-! ### The end of a command in the statements' terms -/

theorem State.raise_eq_ended (s : State) (op : BitVec 8) (e : ErrCode) (r0 r1 : Nat) :
    s.raise op e r0 r1 = s.ended op e r0 r1 := rfl

theorem State.finish_eq_ended (s : State) (op : BitVec 8) (r0 r1 : Nat) :
    s.finish op r0 r1 = s.ended op .none r0 r1 := rfl

/-! ### COUNT -/

/-- The table after counting the bytes of a list (R131). -/
def tally (t : Table Nat) (bs : List Byte) : Table Nat :=
  bs.foldl (fun t c => t.write c (t.read c + 1)) t

theorem read_tally (t : Table Nat) (bs : List Byte) (b : Byte) :
    (tally t bs).read b = t.read b + bs.count b := by
  induction bs generalizing t with
  | nil => rfl
  | cons c bs ih =>
    rw [tally, List.foldl_cons, ← tally, ih, Table.read_write, List.count_cons]
    by_cases h : b = c
    · subst h
      simp only [if_true, BEq.rfl]
      omega
    · simp [h, Ne.symm h]

/-- While its bytes can be read, COUNT's loop tallies them. -/
theorem countLoop_of_readable (s : State) {n i : Nat} (t : Table Nat) (h : i + n ≤ s.srcReadable) :
    countLoop s s.engine n i t = .ok (tally t ((List.range' i n).map s.srcAt)) := by
  induction n generalizing i t with
  | zero => rfl
  | succ n ih =>
    rw [countLoop, srcByte_of_readable (by omega)]
    exact ih _ (by omega)

/-- COUNT's loop stops at the first byte that cannot be read, and names its index. -/
theorem countLoop_of_unreadable (s : State) {n i : Nat} (t : Table Nat) (hi : i ≤ s.srcReadable)
    (hshort : s.srcReadable < i + n) (hn : i + n ≤ s.srcLen.toNat) :
    countLoop s s.engine n i t = .error (.ioBounds, s.srcReadable) := by
  induction n generalizing i t with
  | zero => omega
  | succ n ih =>
    rw [countLoop]
    obtain hlt | rfl := Nat.lt_or_eq_of_le hi
    · rw [srcByte_of_readable hlt]
      exact ih _ hlt (by omega) (by omega)
    · have hout := (s.lt_srcReadable_iff s.srcReadable).not.1 (Nat.lt_irrefl _)
      rcases srcByte_cases s s.engine s.srcReadable with ⟨_, _⟩ | ⟨_, _, hbyte⟩ | ⟨_, _, _⟩
      · omega
      · rw [hbyte]
      · omega

/-- The entries of a table of counts that are not 0 are the distinct bytes counted. -/
theorem countP_entries_eq_length_dedup {t : Table Nat} {bs : List Byte}
    (h : ∀ b, t.read b = bs.count b) :
    t.entries.countP (fun e => decide (0 < e.2)) = bs.dedup.length := by
  rw [Table.entries_eq, List.countP_map, List.countP_eq_length_filter]
  refine ((List.perm_ext_iff_of_nodup (nodup_allBytes.filter _) bs.nodup_dedup).2 ?_).length_eq
  simp [h, List.count_pos_iff]

@[simp] theorem State.length_sourceBytes (s : State) : s.sourceBytes.length = s.srcLen.toNat := by
  simp [State.sourceBytes]

theorem exec_count_of_readable {s : State} (h : s.srcReadable = s.srcLen.toNat) :
    exec .count s = .next
      (({ s with freq := Vector.ofFn (fun b : Fin 256 =>
          BitVec.ofNat 32 (s.sourceBytes.count (BitVec.ofNat 8 b.val))) } : State).ended
        0x01#8 .none s.sourceBytes.dedup.length s.srcLen.toNat) := by
  have hloop : countLoop s s.engine s.srcLen.toNat 0 (Table.fill 0) =
      .ok (tally (Table.fill 0) s.sourceBytes) := by
    rw [countLoop_of_readable s _ (by omega), State.sourceBytes, List.range_eq_range']
  have hcount (b : Byte) : (tally (Table.fill 0) s.sourceBytes).read b = s.sourceBytes.count b := by
    rw [read_tally, Table.read_fill, Nat.zero_add]
  have hfreq : (tally (Table.fill 0) s.sourceBytes).map (BitVec.ofNat 32) =
      Vector.ofFn (fun b : Fin 256 =>
        BitVec.ofNat 32 (s.sourceBytes.count (BitVec.ofNat 8 b.val))) := by
    refine Table.ext_read fun b => ?_
    rw [Table.read_map, hcount,
      Table.read_ofFn (fun b => BitVec.ofNat 32 (s.sourceBytes.count b))]
  rcases execCount_cases s with ⟨_, _, herr, _⟩ | ⟨t, hok, hexec⟩
  · simp [hloop] at herr
  · obtain rfl : tally (Table.fill 0) s.sourceBytes = t := by simpa [hloop] using hok
    rw [hexec, State.finish_eq_ended, hfreq, countP_entries_eq_length_dedup hcount]

theorem exec_count_of_unreadable {s : State} (h : s.srcReadable ≠ s.srcLen.toNat) :
    exec .count s = .next (s.ended 0x01#8 .ioBounds 0 s.srcReadable) := by
  have hle : s.srcReadable ≤ s.srcLen.toNat := Nat.min_le_left _ _
  have hloop := countLoop_of_unreadable s (Table.fill 0) (n := s.srcLen.toNat) (Nat.zero_le _)
    (by omega) (by omega)
  rcases execCount_cases s with ⟨x, i, herr, hexec⟩ | ⟨_, hok, _⟩
  · obtain ⟨rfl, rfl⟩ : ErrCode.ioBounds = x ∧ s.srcReadable = i := by simpa [hloop] using herr
    rw [hexec, State.raise_eq_ended]
  · simp [hloop] at hok

/-- Settles O20: the loop tallies the whole region, or stops at its first byte outside M. -/
theorem countCountsTheSourceBytes : Obligations.CountCountsTheSourceBytes := by
  unfold Obligations.CountCountsTheSourceBytes
  exact fun s => ⟨exec_count_of_readable, exec_count_of_unreadable⟩

/-! ### The level pass by indexes -/

theorem scanByIndex_of_drop_nil {level : List CodeTree} {i : Nat} (h : level.drop i = [])
    (fuel : Nat) (next : List CodeTree) : scanByIndex level fuel i next = next := by
  have hend : level[i]? = none := by rw [← List.head?_drop, h, List.head?_nil]
  cases fuel <;> simp [scanByIndex, hend]

/-- The model's scan of the rest of a level, with `next` the last node first, is the index loop from
index `i` on, with `next` in its own order; any `fuel` that covers the rest is enough. -/
theorem scanByIndex_eq_levelScan (level rest next : List CodeTree) {fuel i : Nat}
    (hrest : level.drop i = rest) (hfuel : rest.length ≤ fuel) :
    scanByIndex level fuel i next.reverse = levelScan rest next := by
  have hcur : level[i]? = rest.head? := by rw [← hrest, List.head?_drop]
  have hright : level[i + 1]? = rest.tail.head? := by
    rw [← hrest, List.tail_drop, List.head?_drop]
  have hdrop (k : Nat) : level.drop (i + k) = rest.drop k := by rw [← hrest, List.drop_drop]
  match fuel, rest with
  | fuel, [] => rw [scanByIndex_of_drop_nil hrest, levelScan]
  | fuel + 1, [cur] =>
    have hend := scanByIndex_of_drop_nil (hdrop 1) fuel
    cases next with
    | nil => simp [scanByIndex, levelScan, hcur, hright, hend]
    | cons last done =>
      by_cases habsorb : last.weight ≤ cur.weight <;>
        simp [scanByIndex, levelScan, hcur, hright, hend, habsorb, Option.filter]
  | fuel + 1, cur :: right :: rest =>
    have hlong : rest.length + 1 ≤ fuel := by simpa using hfuel
    have hpair := scanByIndex_eq_levelScan level rest (.node cur right :: next) (hdrop 2)
      (fuel := fuel) (by omega)
    cases next with
    | nil => simpa [scanByIndex, levelScan, hcur, hright] using hpair
    | cons last done =>
      by_cases habsorb : last.weight ≤ cur.weight
      · have hone := scanByIndex_eq_levelScan level (right :: rest) (.node last cur :: done)
          (hdrop 1) (fuel := fuel) hlong
        simpa [scanByIndex, levelScan, hcur, habsorb, Option.filter] using hone
      · simpa [scanByIndex, levelScan, hcur, hright, habsorb, Option.filter] using hpair

theorem levelPass_eq_passByIndex : levelPass = passByIndex :=
  funext fun level => (scanByIndex_eq_levelScan level level [] rfl le_rfl).symm

/-- Settles O22: the list recursion and the index loop make the same choice at every node. -/
theorem levelPassIsThePseudocode : Obligations.LevelPassIsThePseudocode := by
  unfold Obligations.LevelPassIsThePseudocode
  exact congrFun levelPass_eq_passByIndex

/-! ### The order of the leaves -/

theorem leafBefore_iff (x y : Byte × Nat) :
    leafBefore x y = true ↔ x.2 < y.2 ∨ (x.2 = y.2 ∧ x.1 < y.1) := by
  simp [leafBefore]

theorem leafBefore_trans {x y z : Byte × Nat} (hxy : leafBefore x y = true)
    (hyz : leafBefore y z = true) : leafBefore x z = true := by
  rw [leafBefore_iff] at *
  bv_omega

/-- Leaves of different byte values never tie (R135). -/
theorem leafBefore_of_not {x y : Byte × Nat} (hne : x.1 ≠ y.1) (h : ¬ leafBefore y x = true) :
    leafBefore x y = true := by
  rw [leafBefore_iff] at *
  bv_omega

theorem pairwise_insertLeaf {x : Byte × Nat} {l : List (Byte × Nat)} (hx : ∀ y ∈ l, x.1 ≠ y.1)
    (hl : l.Pairwise (fun y z => leafBefore y z = true)) :
    (insertLeaf x l).Pairwise (fun y z => leafBefore y z = true) := by
  induction l with
  | nil => simp [insertLeaf]
  | cons y ys ih =>
    obtain ⟨hy, hys⟩ := List.pairwise_cons.1 hl
    obtain ⟨hxy, hxys⟩ := List.forall_mem_cons.1 hx
    unfold insertLeaf
    split
    · next hbefore =>
      refine List.pairwise_cons.2 ⟨fun z hz => ?_, ih hxys hys⟩
      obtain rfl | hz := List.mem_cons.1 ((perm_insertLeaf x ys).mem_iff.1 hz)
      · exact hbefore
      · exact hy z hz
    · next hafter =>
      have hfirst := leafBefore_of_not hxy hafter
      exact List.pairwise_cons.2
        ⟨List.forall_mem_cons.2 ⟨hfirst, fun z hz => leafBefore_trans hfirst (hy z hz)⟩, hl⟩

theorem pairwise_sortLeaves {l : List (Byte × Nat)} (h : (l.map Prod.fst).Nodup) :
    (sortLeaves l).Pairwise (fun x y => leafBefore x y = true) := by
  induction l with
  | nil => exact .nil
  | cons x l ih =>
    obtain ⟨hx, hl⟩ := List.nodup_cons.1 h
    refine pairwise_insertLeaf (fun y hy heq => hx ?_) (ih hl)
    rw [heq]
    exact List.mem_map_of_mem ((perm_sortLeaves l).mem_iff.1 hy)

/-! ### The leaves in the statements' terms -/

theorem leavesOf_eq_present (s : State) : leavesOf s.freq = s.present := by
  rw [leavesOf_eq, List.filter_map, State.present]
  congr 2
  funext b
  rw [Bool.eq_iff_iff]
  simp [BitVec.toNat_eq, Nat.pos_iff_ne_zero]

theorem perm_sortLeaves_present (s : State) : (sortLeaves (leavesOf s.freq)).Perm s.present :=
  leavesOf_eq_present s ▸ perm_sortLeaves _

/-! ### The passes that BUILD makes -/

/-- A pass over more than one node removes at least one, so passes are at most the nodes removed
(R140). -/
theorem length_iterate_levelPass_le {level : List CodeTree} {k : Nat}
    (h : ∀ j < k, 1 < (levelPass^[j] level).length) :
    (levelPass^[k] level).length + k ≤ level.length := by
  induction k with
  | zero => exact le_rfl
  | succ k ih =>
    have hrest := ih fun j hj => h j (by omega)
    have hpass := length_levelPass_lt (h k (by omega))
    rw [Function.iterate_succ_apply']
    omega

theorem buildLevels_iterates (fuel : Nat) (level : List CodeTree) (levels : Nat) :
    ∃ k, buildLevels fuel level levels = (levelPass^[k] level, levels + k) ∧
      ∀ j < k, 1 < (levelPass^[j] level).length := by
  induction fuel generalizing level levels with
  | zero => exact ⟨0, rfl, by simp⟩
  | succ fuel ih =>
    unfold buildLevels
    split
    · next hlong =>
      obtain ⟨k, hk, hmore⟩ := ih (levelPass level) (levels + 1)
      refine ⟨k + 1, by rw [hk, Function.iterate_succ_apply, Nat.add_assoc, Nat.add_comm 1],
        fun j hj => ?_⟩
      cases j with
      | zero => exact hlong
      | succ j => exact hmore j (by omega)
    · exact ⟨0, rfl, by simp⟩

/-- The level that BUILD starts from: the sorted leaves (R134, R135). -/
def leafLevel (freq : Table Word) : List CodeTree :=
  (sortLeaves (leavesOf freq)).map (fun l => CodeTree.leaf l.1 l.2)

@[simp] theorem length_leafLevel (freq : Table Word) :
    (leafLevel freq).length = (sortLeaves (leavesOf freq)).length := by simp [leafLevel]

theorem buildTree_of_nil {freq : Table Word} {levels : Nat}
    (h : buildLevels (leafLevel freq).length (leafLevel freq) 0 = ([], levels)) :
    buildTree freq = (.emptyTree, levels) := by
  rw [leafLevel] at h
  simp only [buildTree, h]

theorem buildTree_of_cons {freq : Table Word} {t : CodeTree} {ts : List CodeTree} {levels : Nat}
    (h : buildLevels (leafLevel freq).length (leafLevel freq) 0 = (t :: ts, levels)) :
    buildTree freq = (.built t, levels) := by
  rw [leafLevel] at h
  simp only [buildTree, h]

/-- The two ways BUILD can end: no leaves, or one node left after `k` passes, each made on more than
one node (R134, R142). -/
theorem buildTree_cases (freq : Table Word) :
    (leafLevel freq = [] ∧ buildTree freq = (.emptyTree, 0)) ∨
    ∃ t k, levelPass^[k] (leafLevel freq) = [t] ∧
      (∀ j < k, 1 < (levelPass^[j] (leafLevel freq)).length) ∧ buildTree freq = (.built t, k) := by
  obtain ⟨k, hk, hmore⟩ := buildLevels_iterates (leafLevel freq).length (leafLevel freq) 0
  have hone := length_buildLevels_le_one (level := leafLevel freq) 0 (Nat.le_succ _)
  rw [hk] at hone
  rw [Nat.zero_add] at hk
  match hend : levelPass^[k] (leafLevel freq) with
  | [] =>
    rw [hend] at hk
    have hbuild := buildTree_of_nil hk
    have hleaves : [] = sortLeaves (leavesOf freq) := by
      simpa [hbuild, TreeReg.leaves] using leaves_buildTree freq
    have hnil : leafLevel freq = [] := by rw [leafLevel, ← hleaves, List.map_nil]
    have hk0 := length_iterate_levelPass_le hmore
    simp only [hnil, List.length_nil, Nat.le_zero, Nat.add_eq_zero_iff] at hk0
    exact .inl ⟨hnil, by rw [hbuild, hk0.2]⟩
  | [t] => exact .inr ⟨t, k, hend, hmore, buildTree_of_cons (hend ▸ hk)⟩
  | _ :: _ :: _ => simp [hend] at hone

/-- BUILD makes at most one pass fewer than it has leaves (R140). -/
theorem levels_buildTree_le (freq : Table Word) :
    (buildTree freq).2 ≤ (buildTree freq).1.leaves.length - 1 := by
  rcases buildTree_cases freq with ⟨_, hbuild⟩ | ⟨t, k, hend, hmore, hbuild⟩
  · rw [hbuild]
    exact Nat.zero_le _
  · have hpasses := length_iterate_levelPass_le hmore
    rw [hend, List.length_singleton, length_leafLevel, ← leaves_buildTree] at hpasses
    rw [hbuild] at hpasses ⊢
    omega

theorem exec_build_eq_ended (s : State) :
    exec .build s = .next (({ s with
      code := Table.fill none
      codesValid := false
      tree := (buildTree s.freq).1
      nleaves := BitVec.ofNat 9 (sortLeaves (leavesOf s.freq)).length
      rootWeight := BitVec.ofNat 40 (buildTree s.freq).1.weight } : State).ended
        0x02#8 .none (sortLeaves (leavesOf s.freq)).length (buildTree s.freq).2) := by
  rw [execBuild_eq, State.finish_eq_ended, (perm_sortLeaves _).length_eq]

/-- Settles O21: the passes of the pseudocode, iterated from the sorted leaves until one node is
left. -/
theorem buildMakesTheLevelPasses : Obligations.BuildMakesTheLevelPasses := by
  unfold Obligations.BuildMakesTheLevelPasses
  intro s
  have hle : (sortLeaves (leavesOf s.freq)).length ≤ 256 :=
    (perm_sortLeaves _).length_eq.trans_le (length_leavesOf_le s.freq)
  refine ⟨sortLeaves (leavesOf s.freq), _, _, perm_sortLeaves_present s, ?_, exec_build_eq_ended s,
    hle, weight_buildTree_lt s.freq, ?_⟩
  · simpa only [leafBefore_iff] using pairwise_sortLeaves (nodup_leavesOf s.freq)
  rw [← leafLevel, ← levelPass_eq_passByIndex]
  rcases buildTree_cases s.freq with ⟨hnil, hbuild⟩ | ⟨t, k, hend, hmore, hbuild⟩
  · rw [leafLevel, List.map_eq_nil_iff] at hnil
    simp [hnil, hbuild]
  · have hpasses := length_iterate_levelPass_le hmore
    rw [hend, List.length_singleton, length_leafLevel] at hpasses
    rw [hbuild]
    refine ⟨fun hnil => ?_, fun l hl => ?_, fun _ => ⟨t, rfl, hend, hmore⟩⟩
    · simp [hnil] at hpasses
    · obtain rfl : k = 0 := by simpa [hl] using hpasses
      obtain rfl : CodeTree.leaf l.1 l.2 = t := by simpa [leafLevel, hl] using hend
      exact ⟨rfl, rfl⟩

/-! ### The size of a tree -/

theorem CodeTree.internals_add_one (t : CodeTree) : t.internals + 1 = t.leaves.length := by
  induction t with
  | leaf b w => rfl
  | node l r ihl ihr =>
    rw [CodeTree.internals, CodeTree.leaves, List.length_append]
    omega

/-- Settles O23: each pass removes a node; a tree of `n` leaves has `n - 1` internal nodes, whatever
the passes that made it. -/
theorem buildTerminates : Obligations.BuildTerminates := by
  unfold Obligations.BuildTerminates
  refine ⟨fun level h => Nat.le_sub_one_of_lt (length_levelPass_lt h), fun s t tr ht htr => ?_⟩
  rw [execBuild_eq] at ht
  cases ht
  have hbuilt : (buildTree s.freq).1 = .built tr := htr
  have hleaves : tr.leaves.length ≤ 256 := by
    have := (perm_leaves_buildTree s.freq).length_eq
    rw [hbuilt] at this
    exact this.trans_le (length_leavesOf_le s.freq)
  have hlevels := levels_buildTree_le s.freq
  rw [hbuilt] at hlevels
  have hinternals := tr.internals_add_one
  have hresult : (BitVec.ofNat 32 (buildTree s.freq).2).toNat ≤ (buildTree s.freq).2 :=
    Nat.mod_le _ _
  exact ⟨hresult.trans hlevels, by omega, by omega⟩

/-! ### The sum of FREQ -/

theorem State.sum_present (s : State) : (s.present.map Prod.snd).sum = s.freqTotal := by
  rw [State.present, State.freqTotal, List.map_map]
  induction allBytes with
  | nil => rfl
  | cons b bs ih =>
    by_cases h : s.freq.read b = 0#32
    · simpa [h] using ih -- an entry of 0 adds nothing
    · simpa [h] using ih

theorem weight_buildTree (s : State) : (buildTree s.freq).1.weight = s.freqTotal := by
  rw [TreeReg.weight_eq_sum_leaves, leaves_buildTree,
    ((perm_sortLeaves_present s).map Prod.snd).sum_eq, s.sum_present]

theorem toNat_rootWeight_of_build {s t : State} (h : exec .build s = .next t) :
    t.rootWeight.toNat = s.freqTotal := by
  rw [execBuild_eq] at h
  cases h
  obtain ⟨-, -, hweight⟩ := treePart_buildTree s.freq
  exact hweight.trans (weight_buildTree s)

/-- Counting a list of bytes byte value by byte value counts all of it. -/
theorem sum_count_allBytes (bs : List Byte) :
    (allBytes.map (fun b => bs.count b)).sum = bs.length := by
  have hcard := Multiset.sum_count_eq_card (s := allBytes.toFinset) (m := (bs : Multiset Byte))
    (fun b _ => List.mem_toFinset.2 (mem_allBytes b))
  rw [List.sum_toFinset _ nodup_allBytes] at hcard
  simpa only [Multiset.coe_count, Multiset.coe_card] using hcard

/-- After a COUNT without error each FREQ entry is exact: no count is too large for its 32 bits. -/
theorem toNat_read_freq_of_count {s u : State} (h : exec .count s = .next u) (hok : u.error = .none)
    (b : Byte) : (u.freq.read b).toNat = s.sourceBytes.count b := by
  by_cases hread : s.srcReadable = s.srcLen.toNat
  · rw [exec_count_of_readable hread] at h
    obtain rfl := Host.Outcome.next.inj h
    have hle := s.sourceBytes.count_le_length (a := b)
    have hlt := s.srcLen.isLt
    rw [s.length_sourceBytes] at hle
    rw [State.ended, Table.read_ofFn (fun b => BitVec.ofNat 32 (s.sourceBytes.count b)),
      BitVec.toNat_ofNat, Nat.mod_eq_of_lt (by omega)]
  · rw [exec_count_of_unreadable hread] at h
    obtain rfl := Host.Outcome.next.inj h
    cases hok

theorem freqTotal_of_count {s u : State} (h : exec .count s = .next u) (hok : u.error = .none) :
    u.freqTotal = s.srcLen.toNat := by
  simp only [State.freqTotal, toNat_read_freq_of_count h hok]
  rw [sum_count_allBytes, s.length_sourceBytes]

/-- Settles O24: the tree's leaves are BUILD's input in another order, and a tree weighs what its
leaves weigh. -/
theorem rootWeightIsTheSumOfFreq : Obligations.RootWeightIsTheSumOfFreq := by
  unfold Obligations.RootWeightIsTheSumOfFreq
  refine ⟨fun s t h => ?_, fun s u t hcount hok hbuild => ?_⟩
  · have hweight := toNat_rootWeight_of_build h
    rw [execBuild_eq] at h
    cases h
    have hperm : (buildTree s.freq).1.leaves.Perm s.present :=
      leavesOf_eq_present s ▸ perm_leaves_buildTree s.freq
    refine ⟨hperm, (hperm.map Prod.fst).nodup_iff.2 ?_, hweight⟩
    exact leavesOf_eq_present s ▸ nodup_leavesOf s.freq
  · rw [toNat_rootWeight_of_build hbuild, freqTotal_of_count hcount hok]

end Sys2Proof.Machine

/-! PROOF. ASSIGN (41_code_assigner.md): the path to each leaf of a tree, the walk that packs it into a
Code, the table of all Codes, and what the paths of a whole tree have in common. -/

namespace Sys2Proof.Machine

/-! ### The bits of a Code -/

@[simp] theorem Code.length_bits (c : Code) : c.bits.length = c.len := by simp [Code.bits]

/-- One more bit goes to the end of the bits (43_stream_codec.md R182), while the data has room. -/
theorem Code.bits_append {c : Code} (hdata : c.data.toNat < 2 ^ c.len) (hlen : c.len < 8)
    (b : Bool) : (c.append b).bits = c.bits ++ [b] := by
  have hold : ∀ j ∈ List.range c.len, (c.append b).data.getLsbD j = c.data.getLsbD j := by
    intro j hj
    simp [Code.append, List.mem_range.1 hj]
  have hnew : (c.append b).data.getLsbD c.len = b := by
    have htop : c.data[c.len] = false := Nat.testBit_lt_two_pow hdata
    cases b <;> simp [Code.append, htop, hlen]
  have hlen : (c.append b).len = c.len + 1 := rfl
  rw [Code.bits, hlen, List.range_succ, List.map_append, List.map_congr_left hold,
    List.map_singleton, hnew, Code.bits]

/-- The number that a path packs to: step `j` is bit `j` (00_scope.md R11). -/
def packBits (path : List Bool) : Nat := (path.zipIdx.map (fun e => e.1.toNat * 2 ^ e.2)).sum

theorem codeOfPath_eq (path : List Bool) :
    codeOfPath path = { len := path.length, data := BitVec.ofNat 8 (packBits path) } := rfl

@[simp] theorem codeOfPath_len (path : List Bool) : (codeOfPath path).len = path.length := rfl

theorem packBits_concat (path : List Bool) (b : Bool) :
    packBits (path ++ [b]) = b.toNat <<< path.length + packBits path := by
  simp [packBits, List.zipIdx_append, Nat.shiftLeft_eq, Nat.add_comm]

theorem packBits_lt (path : List Bool) : packBits path < 2 ^ path.length := by
  induction path using List.reverseRecOn with
  | nil => decide
  | append_singleton path b ih =>
    have hb : b.toNat <<< path.length ≤ 1 <<< path.length := by cases b <;> simp
    rw [packBits_concat, List.length_append, List.length_singleton, Nat.pow_succ]
    rw [Nat.one_shiftLeft] at hb
    omega

/-- The Code of a longer path is the accumulator's next value. -/
theorem codeOfPath_concat (path : List Bool) (b : Bool) :
    codeOfPath (path ++ [b]) = (codeOfPath path).append b := by
  have hshift : BitVec.ofNat 8 (b.toNat <<< path.length) = BitVec.ofNat 8 b.toNat <<< path.length :=
    BitVec.eq_of_toNat_eq (by simp [Nat.shiftLeft_eq])
  rw [codeOfPath_eq, packBits_concat, Nat.shiftLeft_add_eq_or_of_lt (packBits_lt path),
    Nat.or_comm, BitVec.ofNat_or, hshift, List.length_append, List.length_singleton]
  rfl

theorem codeOfPath_data_lt (path : List Bool) :
    (codeOfPath path).data.toNat < 2 ^ path.length :=
  (Nat.mod_le _ _).trans_lt (packBits_lt path)

/-- A path of 8 steps at most can be read off its Code. -/
theorem bits_codeOfPath {path : List Bool} (h : path.length ≤ 8) :
    (codeOfPath path).bits = path := by
  induction path using List.reverseRecOn with
  | nil => rfl
  | append_singleton path b ih =>
    rw [List.length_append, List.length_singleton] at h
    rw [codeOfPath_concat, Code.bits_append (codeOfPath_data_lt path) h, ih (by omega)]

/-! ### Paths to leaves -/

theorem CodeTree.has_iff_mem_leaves (t : CodeTree) (b : Byte) :
    t.has b = true ↔ b ∈ t.leaves.map Prod.fst := by
  induction t with
  | leaf c w => simp [CodeTree.has, CodeTree.leaves, Eq.comm (a := b)]
  | node l r ihl ihr =>
    simp only [CodeTree.has, CodeTree.leaves, Bool.or_eq_true, ihl, ihr, List.map_append,
      List.mem_append]

/-- The leaves of distinct byte values lie each on one side of a node (10_state.md R46). -/
theorem CodeTree.nodup_node {l r : CodeTree} (h : ((CodeTree.node l r).leaves.map Prod.fst).Nodup) :
    (l.leaves.map Prod.fst).Nodup ∧ (r.leaves.map Prod.fst).Nodup ∧
      ∀ b, l.has b = true → r.has b = false := by
  rw [CodeTree.leaves, List.map_append, List.nodup_append'] at h
  obtain ⟨hl, hr, hdisjoint⟩ := h
  refine ⟨hl, hr, fun b hlb => ?_⟩
  rw [← Bool.not_eq_true, r.has_iff_mem_leaves]
  exact hdisjoint ((l.has_iff_mem_leaves b).1 hlb)

@[simp] theorem CodeTree.leadsTo_leaf (c : Byte) (w : Nat) (path : List Bool) (b : Byte) :
    (CodeTree.leaf c w).leadsTo path b ↔ path = [] ∧ c = b := by
  cases path <;> simp [CodeTree.leadsTo, CodeTree.follow]

@[simp] theorem CodeTree.not_leadsTo_node_nil (l r : CodeTree) (b : Byte) :
    ¬ (CodeTree.node l r).leadsTo [] b := by
  simp [CodeTree.leadsTo, CodeTree.follow]

@[simp] theorem CodeTree.leadsTo_node_cons (l r : CodeTree) (x : Bool) (path : List Bool)
    (b : Byte) : (CodeTree.node l r).leadsTo (x :: path) b ↔ (if x then r else l).leadsTo path b := by
  cases x <;> simp [CodeTree.leadsTo, CodeTree.follow]

/-- The path that the walk of R152 takes to the leaf of `b`: left where the left child has `b`, else
right. -/
def CodeTree.pathTo : CodeTree → Byte → List Bool
  | .leaf _ _, _ => []
  | .node l r, b => if l.has b then false :: l.pathTo b else true :: r.pathTo b

theorem CodeTree.pathTo_node_left {l : CodeTree} {b : Byte} (h : l.has b = true) (r : CodeTree) :
    (CodeTree.node l r).pathTo b = false :: l.pathTo b := by
  simp [CodeTree.pathTo, h]

theorem CodeTree.pathTo_node_right {l : CodeTree} {b : Byte} (h : l.has b = false) (r : CodeTree) :
    (CodeTree.node l r).pathTo b = true :: r.pathTo b := by
  simp [CodeTree.pathTo, h]

/-- In a tree whose leaves are distinct the walk's path is the only one to a leaf. -/
theorem CodeTree.leadsTo_iff {t : CodeTree} (h : (t.leaves.map Prod.fst).Nodup) (path : List Bool)
    (b : Byte) : t.leadsTo path b ↔ t.has b = true ∧ path = t.pathTo b := by
  induction t generalizing path with
  | leaf c w => simp [CodeTree.has, CodeTree.pathTo, and_comm]
  | node l r ihl ihr =>
    obtain ⟨hl, hr, hside⟩ := CodeTree.nodup_node h
    cases hlb : l.has b with
    | true =>
      have hrb := hside b hlb
      rcases path with _ | ⟨_ | _, path⟩ <;>
        simp [CodeTree.pathTo, CodeTree.has, ihl hl, ihr hr, hlb, hrb]
    | false =>
      rcases path with _ | ⟨_ | _, path⟩ <;>
        simp [CodeTree.pathTo, CodeTree.has, ihl hl, ihr hr, hlb]

theorem CodeTree.length_pathTo_le (t : CodeTree) (b : Byte) : (t.pathTo b).length ≤ t.depth := by
  induction t with
  | leaf c w => exact Nat.zero_le _
  | node l r ihl ihr =>
    unfold CodeTree.pathTo
    split <;> simp only [List.length_cons, CodeTree.depth] <;> omega

/-- The depth is the length of a path to some leaf. -/
theorem CodeTree.exists_deepest (t : CodeTree) :
    ∃ path b, t.leadsTo path b ∧ path.length = t.depth := by
  induction t with
  | leaf c w => exact ⟨[], c, by simp, rfl⟩
  | node l r ihl ihr =>
    rcases le_total l.depth r.depth with hle | hle
    · obtain ⟨path, b, hleads, hlen⟩ := ihr
      exact ⟨true :: path, b, by simpa using hleads, by simp [CodeTree.depth, hlen, hle]⟩
    · obtain ⟨path, b, hleads, hlen⟩ := ihl
      exact ⟨false :: path, b, by simpa using hleads, by simp [CodeTree.depth, hlen, hle]⟩

/-! ### The walk -/

/-- The walk from a node that `path` leads to packs that path and the one from the node on; more than
8 steps are too long (R152). -/
theorem codeOf_eq (t : CodeTree) (b : Byte) {path : List Bool} (hpath : path.length ≤ 8) :
    codeOf t b path.length (codeOfPath path).data = if (path ++ t.pathTo b).length ≤ 8
      then some (codeOfPath (path ++ t.pathTo b)) else none := by
  induction t generalizing path with
  | leaf a w =>
    rw [codeOf, CodeTree.pathTo, List.append_nil, if_pos hpath]
    rfl
  | node l r ihl ihr =>
    rw [codeOf, show Config.maxCodeLen = 8 from rfl]
    by_cases hfull : path.length = 8
    · have hlong : 0 < ((CodeTree.node l r).pathTo b).length := by
        unfold CodeTree.pathTo
        split <;> simp
      rw [if_pos hfull, if_neg (by rw [List.length_append]; omega)]
    · have hstep (x : Bool) : (path ++ [x]).length ≤ 8 := by
        rw [List.length_append, List.length_singleton]
        omega
      rw [if_neg hfull]
      cases hlb : l.has b with
      | true => simpa [codeOfPath_concat, CodeTree.pathTo, hlb, Code.append] using ihl (hstep false)
      | false => simpa [codeOfPath_concat, CodeTree.pathTo, hlb, Code.append] using ihr (hstep true)

/-- The walk from the root (R152). -/
theorem codeOf_root (t : CodeTree) (b : Byte) :
    codeOf t b 0 0#8 =
      if (t.pathTo b).length ≤ 8 then some (codeOfPath (t.pathTo b)) else none :=
  codeOf_eq t b (path := []) (Nat.zero_le 8)

/-! ### The loop over the byte values -/

/-- The walk to the leaf of `b` is too long (R152). -/
def CodeTree.tooDeep (t : CodeTree) (b : Byte) : Bool :=
  t.has b && decide (8 < (t.pathTo b).length)

theorem CodeTree.tooDeep_iff {t : CodeTree} (h : (t.leaves.map Prod.fst).Nodup) (b : Byte) :
    t.tooDeep b = true ↔ ∃ path : List Bool, 8 < path.length ∧ t.leadsTo path b := by
  simp [CodeTree.tooDeep, CodeTree.leadsTo_iff h, and_comm]

theorem CodeTree.tooDeep_eq_false {t : CodeTree} (h : t.depth ≤ 8) (b : Byte) :
    t.tooDeep b = false := by
  have := t.length_pathTo_le b
  simp [CodeTree.tooDeep, show ¬ 8 < (t.pathTo b).length by omega]

/-- The entry of CODE that the walk gives byte value `b` (R151). -/
def CodeTree.codeAt (t : CodeTree) (b : Byte) : Option Code :=
  if t.has b then some (codeOfPath (t.pathTo b)) else none

theorem CodeTree.codeAt_eq_some_iff {t : CodeTree} {b : Byte} {k : Code} :
    t.codeAt b = some k ↔ t.has b = true ∧ codeOfPath (t.pathTo b) = k := by
  simp [CodeTree.codeAt]

theorem CodeTree.codeAt_isSome (t : CodeTree) (b : Byte) : (t.codeAt b).isSome = t.has b := by
  cases h : t.has b <;> simp [CodeTree.codeAt, h]

/-- The Code of a leaf leads to it. -/
theorem CodeTree.data_lt_and_leadsTo_of_codeAt {t : CodeTree} (hnodup : (t.leaves.map Prod.fst).Nodup)
    (hdepth : t.depth ≤ 8) {b : Byte} {k : Code} (h : t.codeAt b = some k) :
    k.data.toNat < 2 ^ k.len ∧ t.leadsTo k.bits b := by
  obtain ⟨hhas, rfl⟩ := CodeTree.codeAt_eq_some_iff.1 h
  have hshort := (t.length_pathTo_le b).trans hdepth
  exact ⟨codeOfPath_data_lt _, (CodeTree.leadsTo_iff hnodup _ b).2 ⟨hhas, bits_codeOfPath hshort⟩⟩

theorem assignLoop_cons_of_tooDeep {t : CodeTree} {b : Byte} (h : t.tooDeep b = true)
    (bs : List Byte) (c : Table (Option Code)) : assignLoop t (b :: bs) c = .error b := by
  obtain ⟨hhas, hlong⟩ : t.has b = true ∧ 8 < (t.pathTo b).length := by
    simpa [CodeTree.tooDeep] using h
  rw [assignLoop, if_pos hhas, codeOf_root, if_neg (by omega)]

theorem assignLoop_cons_of_fits {t : CodeTree} {b : Byte} (h : t.tooDeep b = false)
    (bs : List Byte) (c : Table (Option Code)) : assignLoop t (b :: bs) c =
      assignLoop t bs (if t.has b then c.write b (t.codeAt b) else c) := by
  rw [assignLoop]
  split
  · next hhas =>
    have hfits : (t.pathTo b).length ≤ 8 := by simpa [CodeTree.tooDeep, hhas] using h
    rw [codeOf_root, if_pos hfits, CodeTree.codeAt, if_pos hhas]
  · rfl

/-- The loop stops at the first byte value whose leaf is too deep. -/
theorem assignLoop_of_find? {t : CodeTree} {bs : List Byte} {b : Byte}
    (h : bs.find? t.tooDeep = some b) (c : Table (Option Code)) :
    assignLoop t bs c = .error b := by
  induction bs generalizing c with
  | nil => cases h
  | cons x bs ih =>
    cases hx : t.tooDeep x with
    | true =>
      obtain rfl : x = b := by simpa [hx] using h
      exact assignLoop_cons_of_tooDeep hx bs c
    | false =>
      rw [assignLoop_cons_of_fits hx]
      exact ih (by simpa [hx] using h) _

/-- Where no leaf is too deep, the loop gives every byte value it visits its entry. -/
theorem assignLoop_of_fits {t : CodeTree} (h : ∀ b, t.tooDeep b = false) (bs : List Byte)
    (c : Table (Option Code)) : ∃ c', assignLoop t bs c = .ok c' ∧
      ∀ b, c'.read b = if b ∈ bs ∧ t.has b = true then t.codeAt b else c.read b := by
  induction bs generalizing c with
  | nil => exact ⟨c, rfl, by simp⟩
  | cons x bs ih =>
    obtain ⟨c', hloop, hread⟩ := ih (if t.has x then c.write x (t.codeAt x) else c)
    refine ⟨c', by rw [assignLoop_cons_of_fits (h x), hloop], fun b => ?_⟩
    rw [hread]
    by_cases hb : b = x
    · subst hb
      by_cases hhas : t.has b = true <;> simp [hhas]
    · by_cases hhas : t.has x = true <;> simp [hb, hhas, Table.read_write]

theorem pairwise_allBytes : allBytes.Pairwise (fun b c => b.toNat < c.toNat) := by
  refine List.pairwise_map.2 (List.pairwise_lt_range.imp_of_mem fun {i j} hi hj hlt => ?_)
  rw [List.mem_range] at hi hj
  simp only [BitVec.toNat_ofNat]
  omega

/-- A search of the byte values in ascending order finds the lowest. -/
theorem toNat_le_of_find?_allBytes {p : Byte → Bool} {b c : Byte}
    (h : allBytes.find? p = some b) (hc : p c = true) : b.toNat ≤ c.toNat := by
  obtain ⟨-, below, above, hsplit, hbelow⟩ := List.find?_eq_some_iff_append.1 h
  have horder := pairwise_allBytes
  have hmem := mem_allBytes c
  rw [hsplit] at horder hmem
  obtain ⟨-, hrest, -⟩ := List.pairwise_append.1 horder
  obtain ⟨habove, -⟩ := List.pairwise_cons.1 hrest
  rcases List.mem_append.1 hmem with hc' | hc'
  · simpa [hc] using hbelow c hc'
  · obtain rfl | hc' := List.mem_cons.1 hc'
    · exact le_rfl
    · exact (habove c hc').le

theorem codesOfTree_node_of_shallow {l r : CodeTree} (h : (CodeTree.node l r).depth ≤ 8) :
    ∃ c, codesOfTree (.node l r) = .ok c ∧ ∀ b, c.read b = (CodeTree.node l r).codeAt b := by
  obtain ⟨c, hloop, hread⟩ :=
    assignLoop_of_fits (CodeTree.tooDeep_eq_false h) allBytes (Table.fill none)
  refine ⟨c, hloop, fun b => ?_⟩
  rw [hread, Table.read_fill]
  simp [CodeTree.codeAt]

theorem codesOfTree_node_of_deep {l r : CodeTree}
    (hnodup : ((CodeTree.node l r).leaves.map Prod.fst).Nodup)
    (h : 8 < (CodeTree.node l r).depth) :
    ∃ b, codesOfTree (.node l r) = .error b ∧ (CodeTree.node l r).tooDeep b = true ∧
      ∀ c, (CodeTree.node l r).tooDeep c = true → b.toNat ≤ c.toNat := by
  obtain ⟨path, deepest, hleads, hlen⟩ := (CodeTree.node l r).exists_deepest
  have hdeep := (CodeTree.tooDeep_iff hnodup deepest).2 ⟨path, by omega, hleads⟩
  obtain ⟨b, hfind⟩ := Option.isSome_iff_exists.1
    (List.find?_isSome.2 ⟨deepest, mem_allBytes deepest, hdeep⟩)
  exact ⟨b, assignLoop_of_find? hfind _, List.find?_some hfind,
    fun c hc => toNat_le_of_find?_allBytes hfind hc⟩

/-! ### The number of Codes and the longest one -/

/-- RESULT0 counts the byte values with a Code. -/
theorem validCodes_eq_length {c : Table (Option Code)} {bs : List Byte} (hnodup : bs.Nodup)
    (h : ∀ b, (c.read b).isSome = true ↔ b ∈ bs) : validCodes c = bs.length := by
  rw [validCodes, Table.entries_eq, List.countP_map, List.countP_eq_length_filter]
  refine ((List.perm_ext_iff_of_nodup (nodup_allBytes.filter _) hnodup).2 fun b => ?_).length_eq
  simp [h]

theorem foldl_max_le_iff (l : List Nat) (m n : Nat) :
    l.foldl max m ≤ n ↔ m ≤ n ∧ ∀ x ∈ l, x ≤ n := by
  induction l generalizing m with
  | nil => simp
  | cons x l ih => simp [ih, and_assoc]

theorem maxCodeLen_eq_foldl_max (c : Table (Option Code)) :
    maxCodeLen c = (allBytes.map (fun b => (c.read b).elim 0 Code.len)).foldl max 0 := by
  rw [maxCodeLen, Table.entries_eq, List.foldl_map, List.foldl_map]
  congr 1
  funext n b
  cases c.read b <;> simp

/-- MAXLEN is the least bound of the lengths. -/
theorem maxCodeLen_le_iff (c : Table (Option Code)) (n : Nat) :
    maxCodeLen c ≤ n ↔ ∀ b k, c.read b = some k → k.len ≤ n := by
  rw [maxCodeLen_eq_foldl_max, foldl_max_le_iff]
  simp only [Nat.zero_le, true_and, List.forall_mem_map, mem_allBytes, true_imp_iff]
  refine forall_congr' fun b => ?_
  cases c.read b <;> simp

theorem maxCodeLen_eq {c : Table (Option Code)} {n : Nat}
    (hle : ∀ b k, c.read b = some k → k.len ≤ n)
    (hreach : n = 0 ∨ ∃ b k, c.read b = some k ∧ k.len = n) : maxCodeLen c = n := by
  refine le_antisymm ((maxCodeLen_le_iff c n).2 hle) ?_
  rcases hreach with rfl | ⟨b, k, hk, rfl⟩
  · exact Nat.zero_le _
  · exact (maxCodeLen_le_iff c _).1 le_rfl b k hk

/-! ### The command's end -/

theorem exec_assign_of_noTree {s : State} (h : s.tree = .noTree) :
    exec .assign s = .next (s.ended 0x03#8 .noTree 0 0) := by
  simp [exec, execAssign, h, Instr.opcode, State.raise_eq_ended]

theorem exec_assign_of_ok {s : State} {t : CodeTree} {c : Table (Option Code)}
    (h : s.tree = .built t) (hc : codesOfTree t = .ok c) :
    exec .assign s = .next (s.assigned c) := by
  simp [exec, execAssign, h, hc]

theorem exec_assign_of_error {s : State} {t : CodeTree} {b : Byte}
    (h : s.tree = .built t) (hb : codesOfTree t = .error b) :
    exec .assign s = .next
      (({ s with code := Table.fill none, codesValid := false, maxlen := 0#4 } : State).ended
        0x03#8 .codeTooLong b.toNat 9) := by
  simp [exec, execAssign, h, hb, Instr.opcode, Config.maxCodeLen, State.raise_eq_ended]

theorem State.assigned_eq_ended (s : State) {c : Table (Option Code)} {n m : Nat}
    (hn : validCodes c = n) (hm : maxCodeLen c = m) :
    s.assigned c =
      ({ s with code := c, codesValid := true, maxlen := BitVec.ofNat 4 m } : State).ended
        0x03#8 .none n m := by
  subst hn hm
  rfl

theorem exec_assign_of_emptyTree {s : State} (h : s.tree = .emptyTree) :
    exec .assign s = .next
      (({ s with code := Table.fill none, codesValid := true, maxlen := 0#4 } : State).ended
        0x03#8 .none 0 0) := by
  have hcount : validCodes (Table.fill none) = 0 :=
    validCodes_eq_length List.nodup_nil fun b => by simp
  have hmax : maxCodeLen (Table.fill none) = 0 :=
    maxCodeLen_eq (fun b k hk => by simp at hk) (.inl rfl)
  have hexec : exec .assign s = .next (s.assigned (Table.fill none)) := by
    simp [exec, execAssign, h]
  rw [hexec, s.assigned_eq_ended hcount hmax]

/-- The code table of the trivial dictionary: the Code (1, 0) for `b` alone (R153). -/
def trivialCodes (b : Byte) : Table (Option Code) :=
  (Table.fill none).write b (some { len := 1, data := 0#8 })

theorem read_trivialCodes (b x : Byte) :
    (trivialCodes b).read x = if x = b then some { len := 1, data := 0#8 } else none := by
  rw [trivialCodes, Table.read_write, Table.read_fill]

theorem exec_assign_of_leaf {s : State} {b : Byte} {w : Nat} (h : s.tree = .built (.leaf b w)) :
    exec .assign s = .next
      (({ s with code := trivialCodes b, codesValid := true, maxlen := 1#4 } : State).ended
        0x03#8 .none 1 1) := by
  have hcount : validCodes (trivialCodes b) = 1 :=
    validCodes_eq_length (List.nodup_singleton b) fun x => by simp [read_trivialCodes]
  have hmax : maxCodeLen (trivialCodes b) = 1 := by
    refine maxCodeLen_eq (fun x k hk => ?_) (.inr ⟨b, _, Table.read_write_same _ b _, rfl⟩)
    obtain ⟨-, rfl⟩ : x = b ∧ _ = k := by simpa [read_trivialCodes] using hk
    exact le_rfl
  rw [exec_assign_of_ok (c := trivialCodes b) h rfl, s.assigned_eq_ended hcount hmax]

/-- What ASSIGN does on a tree of depth 8 at most: the walk's Code for every leaf (R151). -/
theorem exec_assign_of_shallow {s : State} {l r : CodeTree} (h : s.tree = .built (.node l r))
    (hnodup : ((CodeTree.node l r).leaves.map Prod.fst).Nodup)
    (hdepth : (CodeTree.node l r).depth ≤ 8) :
    ∃ c, (∀ b, c.read b = (CodeTree.node l r).codeAt b) ∧ exec .assign s = .next
      (({ s with code := c, codesValid := true
                 maxlen := BitVec.ofNat 4 (CodeTree.node l r).depth } : State).ended
        0x03#8 .none (CodeTree.node l r).leaves.length (CodeTree.node l r).depth) := by
  obtain ⟨c, hcodes, hread⟩ := codesOfTree_node_of_shallow hdepth
  have hcount := validCodes_eq_length hnodup fun b => by
    rw [hread, CodeTree.codeAt_isSome, CodeTree.has_iff_mem_leaves]
  have hmax : maxCodeLen c = (CodeTree.node l r).depth := by
    refine maxCodeLen_eq (fun b k hk => ?_) (.inr ?_)
    · rw [hread, CodeTree.codeAt_eq_some_iff] at hk
      obtain ⟨-, rfl⟩ := hk
      exact CodeTree.length_pathTo_le _ b
    · obtain ⟨path, b, hleads, hlen⟩ := (CodeTree.node l r).exists_deepest
      obtain ⟨hhas, rfl⟩ := (CodeTree.leadsTo_iff hnodup path b).1 hleads
      exact ⟨b, _, by rw [hread, CodeTree.codeAt_eq_some_iff]; exact ⟨hhas, rfl⟩, hlen⟩
  rw [List.length_map] at hcount
  exact ⟨c, hread, by rw [exec_assign_of_ok h hcodes, s.assigned_eq_ended hcount hmax]⟩

/-- Settles O25: the loop gives every leaf its path, unless it meets a leaf that is too deep, and the
first such is the lowest. -/
theorem assignGivesEachLeafItsPath : Obligations.AssignGivesEachLeafItsPath := by
  unfold Obligations.AssignGivesEachLeafItsPath
  intro s
  refine ⟨exec_assign_of_noTree, exec_assign_of_emptyTree, fun b w => exec_assign_of_leaf,
    fun l r h hnodup => ⟨fun hshallow => ?_, fun hdeep => ?_⟩⟩
  · obtain ⟨c, hread, hexec⟩ := exec_assign_of_shallow h hnodup hshallow
    refine ⟨c, hexec, fun b => ?_, fun b k hk => ?_⟩
    · rw [hread, CodeTree.codeAt_isSome, CodeTree.has_iff_mem_leaves]
    · exact CodeTree.data_lt_and_leadsTo_of_codeAt hnodup hshallow (hread b ▸ hk)
  · obtain ⟨b, hcodes, hb, hlowest⟩ := codesOfTree_node_of_deep hnodup hdeep
    refine ⟨b, exec_assign_of_error h hcodes, (CodeTree.tooDeep_iff hnodup b).1 hb,
      fun c path hlong hleads => hlowest c ?_⟩
    exact (CodeTree.tooDeep_iff hnodup c).2 ⟨path, hlong, hleads⟩

/-! ### What the paths of a tree have in common -/

/-- No path to a leaf goes on to another (R155). -/
theorem CodeTree.eq_of_leadsTo_append {t : CodeTree} {path more : List Bool} {b c : Byte}
    (hb : t.leadsTo path b) (hc : t.leadsTo (path ++ more) c) : b = c := by
  induction t generalizing path with
  | leaf a w =>
    obtain ⟨-, rfl⟩ := (CodeTree.leadsTo_leaf ..).1 hb
    exact ((CodeTree.leadsTo_leaf ..).1 hc).2
  | node l r ihl ihr =>
    match path with
    | [] => exact absurd hb (CodeTree.not_leadsTo_node_nil l r b)
    | false :: path =>
      exact ihl ((CodeTree.leadsTo_node_cons ..).1 hb) ((CodeTree.leadsTo_node_cons ..).1 hc)
    | true :: path =>
      exact ihr ((CodeTree.leadsTo_node_cons ..).1 hb) ((CodeTree.leadsTo_node_cons ..).1 hc)

/-- A full tree fills the code space: its leaves share `2 ^ n`, half of it on each side of a node
(R155). -/
theorem CodeTree.sum_two_pow_pathTo {t : CodeTree} (hnodup : (t.leaves.map Prod.fst).Nodup)
    {n : Nat} (h : t.depth ≤ n) :
    ((t.leaves.map Prod.fst).map (fun b => 2 ^ (n - (t.pathTo b).length))).sum = 2 ^ n := by
  induction t generalizing n with
  | leaf a w => simp [CodeTree.leaves, CodeTree.pathTo]
  | node l r ihl ihr =>
    obtain ⟨hl, hr, hside⟩ := CodeTree.nodup_node hnodup
    obtain ⟨m, rfl⟩ : ∃ m, n = m + 1 := ⟨n - 1, by rw [CodeTree.depth] at h; omega⟩
    rw [CodeTree.depth, Nat.add_le_add_iff_right, max_le_iff] at h
    obtain ⟨hlm, hrm⟩ := h
    have hleft : ∀ b ∈ l.leaves.map Prod.fst,
        2 ^ (m + 1 - ((CodeTree.node l r).pathTo b).length) = 2 ^ (m - (l.pathTo b).length) := by
      intro b hb
      rw [CodeTree.pathTo_node_left ((l.has_iff_mem_leaves b).2 hb), List.length_cons,
        Nat.add_sub_add_right]
    have hright : ∀ b ∈ r.leaves.map Prod.fst,
        2 ^ (m + 1 - ((CodeTree.node l r).pathTo b).length) = 2 ^ (m - (r.pathTo b).length) := by
      intro b hb
      rw [CodeTree.pathTo_node_right, List.length_cons, Nat.add_sub_add_right]
      rw [← r.has_iff_mem_leaves] at hb
      exact Bool.eq_false_iff.2 fun hlb => by simp [hside b hlb] at hb
    rw [CodeTree.leaves, List.map_append, List.map_append, List.sum_append,
      List.map_congr_left hleft, List.map_congr_left hright, ihl hl hlm, ihr hr hrm,
      Nat.pow_succ, Nat.mul_two]

/-! ### Sums over byte values -/

/-- A sum over the bytes of a list is a sum over the byte values, each as often as it occurs. -/
theorem sum_map_eq_sum_count_allBytes (bs : List Byte) (f : Byte → Nat) :
    (bs.map f).sum = (allBytes.map (fun b => bs.count b * f b)).sum := by
  have hsub : bs.toFinset ⊆ allBytes.toFinset := fun b _ => List.mem_toFinset.2 (mem_allBytes b)
  rw [← List.sum_toFinset _ nodup_allBytes, Finset.sum_list_map_count]
  simp only [smul_eq_mul]
  exact Finset.sum_subset hsub fun b _ hb => by
    rw [List.count_eq_zero_of_not_mem (mt List.mem_toFinset.2 hb), Nat.zero_mul]

/-- A sum over the byte values is one over those of a list, if the others add nothing. -/
theorem sum_allBytes_eq_sum_map {bs : List Byte} (hnodup : bs.Nodup) {f : Byte → Nat}
    (h : ∀ b, b ∉ bs → f b = 0) : (allBytes.map f).sum = (bs.map f).sum := by
  rw [sum_map_eq_sum_count_allBytes bs]
  refine congrArg List.sum (List.map_congr_left fun b _ => ?_)
  by_cases hb : b ∈ bs
  · rw [List.count_eq_one_of_mem hnodup hb, Nat.one_mul]
  · rw [h b hb, Nat.mul_zero]

/-- The payload has the bits of each byte's Code. -/
theorem length_payload (c : Table (Option Code)) (bs : List Byte) :
    (payload c bs).length = (bs.map (fun b => (c.read b).elim 0 Code.len)).sum := by
  rw [payload, List.length_flatMap]
  refine congrArg List.sum (List.map_congr_left fun b _ => ?_)
  cases c.read b <;> simp

/-- An ASSIGN that ends without error had no leaf too deep, and gave every leaf the walk's Code. -/
theorem codes_of_assign {s t : State} {l r : CodeTree} (hs : Inv s)
    (h : s.tree = .built (.node l r)) (ht : exec .assign s = .next t) (hok : t.error = .none) :
    (CodeTree.node l r).depth ≤ 8 ∧
      ∀ b, t.code.read b = (CodeTree.node l r).codeAt b := by
  obtain ⟨hnodup, -⟩ := hs.treeWellFormed _ h
  by_cases hdepth : (CodeTree.node l r).depth ≤ 8
  · obtain ⟨c, hread, hexec⟩ := exec_assign_of_shallow h hnodup hdepth
    obtain rfl := Host.Outcome.next.inj (hexec.symm.trans ht)
    exact ⟨hdepth, hread⟩
  · obtain ⟨b, hcodes, -⟩ := codesOfTree_node_of_deep hnodup (Nat.lt_of_not_le hdepth)
    obtain rfl := Host.Outcome.next.inj ((exec_assign_of_error h hcodes).symm.trans ht)
    cases hok

/-- Settles O26: the Codes are the paths to the leaves of a full tree. -/
theorem assignedCodesArePrefixFree : Obligations.AssignedCodesArePrefixFree := by
  unfold Obligations.AssignedCodesArePrefixFree
  intro s t l r hs htree ht hok
  obtain ⟨hnodup, -⟩ := hs.treeWellFormed _ htree
  obtain ⟨hdepth, hread⟩ := codes_of_assign hs htree ht hok
  refine ⟨fun b hb => ?_, fun b c kb kc hkb hkc hne hprefix => ?_, ?_, fun bs hfreq => ?_⟩
  · have hcode : t.code.read b = some (codeOfPath ((CodeTree.node l r).pathTo b)) := by
      rw [hread, CodeTree.codeAt, if_pos ((CodeTree.has_iff_mem_leaves _ b).2 hb)]
    exact ⟨_, hcode, (Code.matchable_iff _).1 ((hs.exec ht).codeMatchable b _ hcode)⟩
  · obtain ⟨more, hmore⟩ := hprefix
    rw [hread] at hkb hkc
    obtain ⟨-, hleadsb⟩ := CodeTree.data_lt_and_leadsTo_of_codeAt hnodup hdepth hkb
    obtain ⟨-, hleadsc⟩ := CodeTree.data_lt_and_leadsTo_of_codeAt hnodup hdepth hkc
    exact hne (CodeTree.eq_of_leadsTo_append hleadsb (hmore ▸ hleadsc))
  · rw [← CodeTree.sum_two_pow_pathTo hnodup hdepth, sum_allBytes_eq_sum_map hnodup]
    · refine congrArg List.sum (List.map_congr_left fun b hb => ?_)
      rw [hread, CodeTree.codeAt, if_pos ((CodeTree.has_iff_mem_leaves _ b).2 hb)]
      rfl
    · intro b hb
      rw [hread, CodeTree.codeAt, if_neg (mt (CodeTree.has_iff_mem_leaves _ b).1 hb)]
  · rw [length_payload, sum_map_eq_sum_count_allBytes]
    refine congrArg List.sum (List.map_congr_left fun b _ => ?_)
    rw [hfreq]
    cases t.code.read b <;> rfl

end Sys2Proof.Machine

/-! PROOF. DICT_WRITE and DICT_READ (42_dictionary_codec.md): the bytes of a header as they are written and
as they are read, the tables that its entries load, and the agreement of the two commands. -/

namespace Sys2Proof.Machine

/-! ### The bytes of a header -/

theorem codeEntries_eq (c : Table (Option Code)) :
    codeEntries c = allBytes.filterMap (fun b => (c.read b).map (fun k => (k, b))) := by
  simp [codeEntries, Table.entries_eq, List.filterMap_map]

@[simp] theorem mem_codeEntries {c : Table (Option Code)} {k : Code} {b : Byte} :
    (k, b) ∈ codeEntries c ↔ c.read b = some k := by
  simp [codeEntries_eq]

@[simp] theorem length_codeEntries (c : Table (Option Code)) :
    (codeEntries c).length = codeCount c := by
  have hsome : (fun b => ((c.read b).map (fun k => (k, b))).isSome) =
      fun b => (c.read b).isSome := by simp
  rw [codeEntries_eq, List.length_filterMap_eq_countP, hsome, List.countP_eq_length_filter, codeCount]

theorem codeCount_le (c : Table (Option Code)) : codeCount c ≤ 256 :=
  (List.length_filter_le _ _).trans_eq length_allBytes

/-- The entries of the byte values that have a Code, whichever way they are listed. -/
theorem flatMap_filter_isSome {c : Table (Option Code)} {g : Byte → List Byte}
    (hg : ∀ b k, c.read b = some k → g b = entryBytes (k, b)) (bs : List Byte) :
    (bs.filter (fun b => (c.read b).isSome)).flatMap g =
      (bs.filterMap (fun b => (c.read b).map (fun k => (k, b)))).flatMap entryBytes := by
  induction bs with
  | nil => rfl
  | cons b bs ih =>
    cases hb : c.read b with
    | none => simpa [hb] using ih
    | some k => simp [hb, ih, hg b k hb]

/-- The header as the statements write it is the one that DICT_WRITE writes (R161, R162). -/
theorem headerOf_eq (f : SizeForm) (c : Table (Option Code)) :
    headerOf f c = headerBytes f (codeEntries c) := by
  unfold headerOf headerBytes
  rw [length_codeEntries, codeEntries_eq]
  refine congrArg₂ _ ?_ (flatMap_filter_isSome (fun b k hk => ?_) allBytes)
  · cases f <;> simp only [sizeField, codeCount, List.length_eq_zero_iff]
  · rw [hk]
    rfl

/-! ### DICT_WRITE -/

/-- Every byte of `m'` is as in `m`, but for the bytes `bs` from address `a0` on: what
`State.storesBytes` says of two states. -/
def Memory.storesBytes (m m' : Memory) (a0 : Nat) (bs : List Byte) : Prop :=
  ∀ seed a, m'.byte seed a =
    if a0 ≤ a ∧ a < a0 + bs.length then bs.getD (a - a0) 0#8 else m.byte seed a

theorem Memory.storesBytes_nil (m : Memory) (a0 : Nat) : m.storesBytes m a0 [] := by
  intro seed a
  rw [if_neg (by simp)]

/-- A byte written and then the bytes after it. -/
theorem Memory.storesBytes_cons {m m' : Memory} {a0 : Nat} {v : Byte} {vs : List Byte}
    (h : (m.store a0 v).storesBytes m' (a0 + 1) vs) : m.storesBytes m' a0 (v :: vs) := by
  intro seed a
  rw [h, Memory.byte_store, List.length_cons]
  obtain hlt | rfl | hgt := Nat.lt_trichotomy a a0
  · rw [if_neg (by omega), if_neg (by omega), if_neg (by omega)]
  · simp
  · have hrange : (a0 + 1 ≤ a ∧ a < a0 + 1 + vs.length) ↔ (a0 ≤ a ∧ a < a0 + (vs.length + 1)) := by
      omega
    have hindex : a - a0 = a - (a0 + 1) + 1 := by omega
    simp only [hrange, hindex, List.getD_cons_succ, if_neg (Nat.ne_of_gt hgt)]

/-- A loop of byte writes gets as far as the destination is writable, and ends with IO_BOUNDS where
that is not all of the bytes (20_memory.md R79). -/
theorem exists_writeBytes_eq (s : State) (vs : List Byte) (e : Engine) {k : Nat}
    (hk : k ≤ s.dstWritable) : ∃ e', writeBytes s vs e k =
        { eng := e', k := k + (vs.take (s.dstWritable - k)).length
          err := if vs.length ≤ s.dstWritable - k then .none else .ioBounds } ∧
      e.mem.storesBytes e'.mem (s.dstAddr.toNat + k) (vs.take (s.dstWritable - k)) := by
  induction vs generalizing e k with
  | nil => exact ⟨e, by simp [writeBytes], by simpa using e.mem.storesBytes_nil _⟩
  | cons v vs ih =>
    have hroom := s.lt_dstWritable_iff k
    rcases dstByte_cases s e k v with ⟨hout, hwrite⟩ | ⟨hcap, hmem, hwrite⟩
    · have hfull : s.dstWritable - k = 0 := by omega
      exact ⟨e, by simp [writeBytes, hwrite, hfull], by simpa [hfull] using e.mem.storesBytes_nil _⟩
    · obtain ⟨n, hn⟩ : ∃ n, s.dstWritable - k = n + 1 := ⟨s.dstWritable - k - 1, by omega⟩
      obtain ⟨e', hrun, hstores⟩ := ih
        { mem := e.mem.store (s.dstAddr.toNat + k) v, trail := (s.dstAddr.toNat + k, v) :: e.trail }
        (k := k + 1) (by omega)
      have hrest : s.dstWritable - (k + 1) = n := by omega
      rw [hrest] at hrun hstores
      refine ⟨e', ?_, ?_⟩
      · simp only [writeBytes, hwrite, hrun, hn, List.take_succ_cons, List.length_cons,
          Nat.add_le_add_iff_right, Nat.add_assoc, Nat.add_comm 1]
      · rw [hn, List.take_succ_cons]
        exact Memory.storesBytes_cons hstores

/-- DICT_WRITE's run writes the part of the header that the destination has room for. -/
theorem exists_dictWriteRun_eq (f : SizeForm) (s : State) :
    ∃ e, dictWriteRun f s =
        { eng := e, k := ((headerOf f s.code).take s.dstWritable).length
          err := if (headerOf f s.code).length ≤ s.dstWritable then .none else .ioBounds } ∧
      s.mem.storesBytes e.mem s.dstAddr.toNat ((headerOf f s.code).take s.dstWritable) := by
  have h := exists_writeBytes_eq s (headerOf f s.code) s.engine (Nat.zero_le _)
  rw [headerOf_eq] at h ⊢
  simpa [dictWriteRun, State.engine] using h

theorem exec_dictWrite_of_noCodes {f : SizeForm} {s : State} (h : s.codesValid = false) :
    exec (.dictWrite f) s = .next (s.ended 0x04#8 .noCodes 0 0) := by
  simp [exec, execDictWrite, h, Instr.opcode, State.raise_eq_ended]

/-- A header that fits (R162, R163). -/
theorem exec_dictWrite_of_fits {f : SizeForm} {s : State} (hv : s.codesValid = true)
    (h : (headerOf f s.code).length ≤ s.dstWritable) :
    ∃ m, s.mem.storesBytes m s.dstAddr.toNat (headerOf f s.code) ∧
      exec (.dictWrite f) s = .next
        (({ s with mem := m, outBitpos := BitVec.ofNat 32 (8 * (headerOf f s.code).length) } :
          State).ended 0x04#8 .none (headerOf f s.code).length (codeCount s.code)) := by
  obtain ⟨e, hrun, hstores⟩ := exists_dictWriteRun_eq f s
  rw [List.take_of_length_le h] at hrun hstores
  refine ⟨e.mem, hstores, ?_⟩
  simp [exec, execDictWrite, hv, hrun, h, Instr.opcode, State.finish_eq_ended]

/-- A header that does not fit: its bytes up to the first outside stay written (R162). -/
theorem exec_dictWrite_of_overflow {f : SizeForm} {s : State} (hv : s.codesValid = true)
    (h : s.dstWritable < (headerOf f s.code).length) :
    ∃ m, s.mem.storesBytes m s.dstAddr.toNat ((headerOf f s.code).take s.dstWritable) ∧
      exec (.dictWrite f) s = .next (({ s with mem := m } : State).ended
        0x04#8 .ioBounds s.dstWritable (codeCount s.code)) := by
  obtain ⟨e, hrun, hstores⟩ := exists_dictWriteRun_eq f s
  rw [List.length_take_of_le h.le] at hrun
  refine ⟨e.mem, hstores, ?_⟩
  simp [exec, execDictWrite, hv, hrun, Nat.not_le.2 h, Instr.opcode, State.raise_eq_ended]

/-- Settles O27: the loop writes the header up to the end of the writable destination. -/
theorem dictWriteWritesTheHeader : Obligations.DictWriteWritesTheHeader := by
  unfold Obligations.DictWriteWritesTheHeader
  refine fun f s => ⟨exec_dictWrite_of_noCodes, fun hv => ⟨fun hfits => ?_, fun hover => ?_⟩⟩
  · obtain ⟨m, hstores, hexec⟩ := exec_dictWrite_of_fits hv hfits
    exact ⟨_, hexec, rfl, hstores s.powerOn⟩
  · obtain ⟨m, hstores, hexec⟩ := exec_dictWrite_of_overflow hv hover
    exact ⟨_, hexec, rfl, hstores s.powerOn⟩

/-! ### The bytes that DICT_READ reads -/

/-- Why a header ends that cannot be read further: at the end of the region, or else at the end of M
(R165). -/
def State.headerEnd (s : State) : ErrCode :=
  if s.srcReadable = s.srcLen.toNat then .malformedHeader else .ioBounds

theorem State.headerEnd_cases (s : State) :
    s.headerEnd = .malformedHeader ∨ s.headerEnd = .ioBounds := by
  unfold State.headerEnd
  split
  · exact .inl rfl
  · exact .inr rfl

theorem headerByte_of_readable {s : State} {pos : Nat} (h : pos < s.srcReadable) (count : Nat) :
    headerByte s count pos = .ok (s.srcAt pos) := by
  rw [headerByte, srcByte_of_readable h]

/-- The first byte that cannot be read ends the header (R165). -/
theorem headerByte_of_end {s : State} {pos : Nat} (h : pos = s.srcReadable) (count : Nat) :
    headerByte s count pos =
      .error { err := s.headerEnd, count := count, pos := s.srcReadable } := by
  subst h
  have hout := (s.lt_srcReadable_iff _).not.1 (Nat.lt_irrefl _)
  have hle : s.srcReadable ≤ s.srcLen.toNat := Nat.min_le_left _ _
  rcases srcByte_cases s s.engine s.srcReadable with ⟨hend, hbyte⟩ | ⟨hlen, _, hbyte⟩ | ⟨_, _, _⟩
  · rw [headerByte, hbyte, State.headerEnd, if_pos (by omega)]
  · rw [headerByte, hbyte, State.headerEnd, if_neg (by omega)]
  · omega

/-! ### The size field -/

theorem readSize_oneByte_of_empty {s : State} (h : s.srcLen = 0#32) :
    readSize .oneByte s = .ok (0, 0) := by
  simp [readSize, h]

theorem readSize_oneByte_of_readable {s : State} (h : 0 < s.srcReadable) :
    readSize .oneByte s = .ok ((s.srcAt 0).toNat + 1, 1) := by
  have hlen : s.srcLen ≠ 0#32 := by
    rintro hzero
    simp [State.srcReadable, hzero] at h
  simp [readSize, hlen, headerByte_of_readable h]

theorem readSize_oneByte_of_unreadable {s : State} (hlen : s.srcLen ≠ 0#32)
    (h : s.srcReadable = 0) :
    readSize .oneByte s = .error { err := s.headerEnd, count := 0, pos := s.srcReadable } := by
  simp [readSize, hlen, headerByte_of_end h.symm]

theorem readSize_twoByte_of_readable {s : State} (h : 2 ≤ s.srcReadable) :
    readSize .twoByte s = .ok (256 * (s.srcAt 0).toNat + (s.srcAt 1).toNat, 2) := by
  simp [readSize, headerByte_of_readable (show 0 < s.srcReadable by omega),
    headerByte_of_readable (show 1 < s.srcReadable by omega)]

theorem readSize_twoByte_of_unreadable {s : State} (h : s.srcReadable < 2) :
    readSize .twoByte s = .error { err := s.headerEnd, count := 0, pos := s.srcReadable } := by
  obtain h | h : 0 = s.srcReadable ∨ 1 = s.srcReadable := by omega
  · simp [readSize, headerByte_of_end h]
  · simp [readSize, headerByte_of_readable (show 0 < s.srcReadable by omega), headerByte_of_end h]

/-- Everything the reading of a size field can answer (R165). -/
theorem readSize_cases (f : SizeForm) (s : State) :
    (∃ count pos, readSize f s = .ok (count, pos) ∧ pos ≤ s.srcReadable) ∨
    readSize f s = .error { err := s.headerEnd, count := 0, pos := s.srcReadable } := by
  cases f with
  | oneByte =>
    by_cases hlen : s.srcLen = 0#32
    · exact .inl ⟨0, 0, readSize_oneByte_of_empty hlen, Nat.zero_le _⟩
    · obtain h | h := Nat.eq_zero_or_pos s.srcReadable
      · exact .inr (readSize_oneByte_of_unreadable hlen h)
      · exact .inl ⟨_, 1, readSize_oneByte_of_readable h, h⟩
  | twoByte =>
    obtain h | h := Nat.lt_or_ge s.srcReadable 2
    · exact .inr (readSize_twoByte_of_unreadable h)
    · exact .inl ⟨_, 2, readSize_twoByte_of_readable h, h⟩

/-! ### The entries -/

/-- The entry whose first byte has index `pos` (30_encoding.md R111). -/
def State.entryAt (s : State) (pos : Nat) : HeaderEntry :=
  { len := s.srcAt pos, data := s.srcAt (pos + 1), val := s.srcAt (pos + 2) }

theorem readEntry_of_readable {s : State} {pos : Nat} (h : pos + 3 ≤ s.srcReadable) (count : Nat) :
    readEntry s count pos = .ok (s.entryAt pos) := by
  simp [readEntry, State.entryAt, headerByte_of_readable (show pos < s.srcReadable by omega),
    headerByte_of_readable (show pos + 1 < s.srcReadable by omega),
    headerByte_of_readable (show pos + 2 < s.srcReadable by omega)]

/-- An entry is cut off at its first, its second or its third byte. -/
theorem readEntry_of_short {s : State} {pos : Nat} (hpos : pos ≤ s.srcReadable)
    (hshort : s.srcReadable < pos + 3) (count : Nat) : readEntry s count pos =
      .error { err := s.headerEnd, count := count, pos := s.srcReadable } := by
  obtain h | h | h : pos = s.srcReadable ∨ pos + 1 = s.srcReadable ∨ pos + 2 = s.srcReadable := by
    omega
  · simp [readEntry, headerByte_of_end h]
  · simp [readEntry, headerByte_of_readable (show pos < s.srcReadable by omega),
      headerByte_of_end h]
  · simp [readEntry, headerByte_of_readable (show pos < s.srcReadable by omega),
      headerByte_of_readable (show pos + 1 < s.srcReadable by omega), headerByte_of_end h]

theorem readEntries_of_readable {s : State} {n pos : Nat} (h : pos + 3 * n ≤ s.srcReadable)
    (count : Nat) :
    readEntries s count n pos = .ok ((List.range' pos n 3).map s.entryAt) := by
  induction n generalizing pos with
  | zero => rfl
  | succ n ih =>
    rw [readEntries, readEntry_of_readable (by omega), ih (by omega)]
    rfl

theorem readEntries_of_short {s : State} {n pos : Nat} (hpos : pos ≤ s.srcReadable)
    (hshort : s.srcReadable < pos + 3 * n) (count : Nat) : readEntries s count n pos =
      .error { err := s.headerEnd, count := count, pos := s.srcReadable } := by
  induction n generalizing pos with
  | zero => omega
  | succ n ih =>
    rw [readEntries]
    by_cases hentry : pos + 3 ≤ s.srcReadable
    · rw [readEntry_of_readable hentry, ih hentry (by omega)]
    · rw [readEntry_of_short hpos (by omega)]

/-! ### The whole header -/

theorem readHeader_of_noSize {f : SizeForm} {s : State} {x : HeaderError}
    (h : readSize f s = .error x) : readHeader f s = .error x := by
  rw [readHeader, h]

theorem readHeader_of_readable {f : SizeForm} {s : State} {count pos : Nat}
    (hsize : readSize f s = .ok (count, pos)) (h : pos + 3 * count ≤ s.srcReadable) :
    readHeader f s = .ok ((List.range' pos count 3).map s.entryAt, pos + 3 * count) := by
  simp [readHeader, hsize, readEntries_of_readable h]

theorem readHeader_of_short {f : SizeForm} {s : State} {count pos : Nat}
    (hsize : readSize f s = .ok (count, pos)) (hpos : pos ≤ s.srcReadable)
    (hshort : s.srcReadable < pos + 3 * count) : readHeader f s =
      .error { err := s.headerEnd, count := count, pos := s.srcReadable } := by
  simp [readHeader, hsize, readEntries_of_short hpos hshort]

/-- A header is read whole, or it ends at the first byte that cannot be read (R165). -/
theorem readHeader_cases (f : SizeForm) (s : State) :
    (∃ es pos, readHeader f s = .ok (es, pos)) ∨
    ∃ count, readHeader f s = .error { err := s.headerEnd, count := count, pos := s.srcReadable } := by
  rcases readSize_cases f s with ⟨count, pos, hsize, hpos⟩ | hsize
  · obtain h | h := Nat.lt_or_ge s.srcReadable (pos + 3 * count)
    · exact .inr ⟨count, readHeader_of_short hsize hpos h⟩
    · exact .inl ⟨_, _, readHeader_of_readable hsize h⟩
  · exact .inr ⟨0, readHeader_of_noSize hsize⟩

/-! ### DICT_READ's end -/

/-- The result words of a command are its two numbers cut to 32 bits. -/
theorem State.ended_toNat_ofNat (s : State) (op : BitVec 8) (e : ErrCode) (r0 r1 : Nat) :
    s.ended op e (BitVec.ofNat 32 r0).toNat (BitVec.ofNat 32 r1).toNat = s.ended op e r0 r1 := by
  simp only [State.ended, BitVec.ofNat_toNat, BitVec.setWidth_eq]

theorem exec_dictRead_of_ok {f : SizeForm} {s : State} {es : List HeaderEntry} {pos : Nat}
    (h : readHeader f s = .ok (es, pos)) : exec (.dictRead f) s = .next
      ((s.commitDictionary es pos).ended 0x05#8 .none es.length pos) := by
  simp [exec, execDictRead, h, Instr.opcode, State.finish_eq_ended]

theorem exec_dictRead_of_error {f : SizeForm} {s : State} {e : ErrCode} {count pos : Nat}
    (h : readHeader f s = .error { err := e, count := count, pos := pos }) :
    exec (.dictRead f) s = .next (s.ended 0x05#8 e count pos) := by
  simp [exec, execDictRead, h, Instr.opcode, State.raise_eq_ended]

/-- Settles O29: the size field or an entry is cut off at the first byte that cannot be read. -/
theorem dictReadStopsWhereTheHeaderEnds : Obligations.DictReadStopsWhereTheHeaderEnds := by
  unfold Obligations.DictReadStopsWhereTheHeaderEnds
  refine fun s => ⟨fun hlen hnone => ?_, fun hsome hshort => ?_, fun hnone => ?_,
    fun hsome hshort => ?_⟩
  · have hwhy : s.headerEnd = .ioBounds := by
      refine if_neg fun hall => hlen (BitVec.eq_of_toNat_eq ?_)
      exact hall.symm.trans hnone
    have hsize := readSize_oneByte_of_unreadable hlen hnone
    rw [hwhy, hnone] at hsize
    exact exec_dictRead_of_error (readHeader_of_noSize hsize)
  · exact exec_dictRead_of_error
      (readHeader_of_short (readSize_oneByte_of_readable hsome) hsome hshort)
  · exact exec_dictRead_of_error (readHeader_of_noSize (readSize_twoByte_of_unreadable hnone))
  · exact exec_dictRead_of_error
      (readHeader_of_short (readSize_twoByte_of_readable hsome) hsome hshort)

/-- Settles O30: the only error is the header's end, and it writes nothing before the command's end. -/
theorem dictReadFailsAtomically : Obligations.DictReadFailsAtomically := by
  unfold Obligations.DictReadFailsAtomically
  intro f s t ht herr
  rcases readHeader_cases f s with ⟨es, pos, hread⟩ | ⟨count, hread⟩
  · obtain rfl := Host.Outcome.next.inj ((exec_dictRead_of_ok hread).symm.trans ht)
    exact absurd rfl herr
  · obtain rfl := Host.Outcome.next.inj ((exec_dictRead_of_error hread).symm.trans ht)
    exact ⟨s.headerEnd_cases, (s.ended_toNat_ofNat ..).symm⟩

/-- Settles O31: with nothing to read the empty header loads the empty tables; the other sources are
headers cut off at the end of the region. -/
theorem dictReadOfAnEmptyBlob : Obligations.DictReadOfAnEmptyBlob := by
  unfold Obligations.DictReadOfAnEmptyBlob
  intro s
  obtain ⟨-, hone, htwo, -⟩ := dictReadStopsWhereTheHeaderEnds s
  refine ⟨fun hlen => ?_, fun hlen hall => ?_, fun hlen hall => ?_⟩
  · have hread := readHeader_of_readable (readSize_oneByte_of_empty hlen) (Nat.zero_le _)
    refine ⟨_, exec_dictRead_of_ok hread, ?_, fun k => DecodeMap.read_empty k⟩
    rw [State.commitDictionary]
    rfl
  · have hexec := htwo (by omega)
    rwa [if_pos hall, hall] at hexec
  · have hexec := hone (by omega) (by omega)
    rwa [if_pos (by rw [hall, hlen]; rfl), hall] at hexec

/-! ### Two reads of the same bytes -/

/-- The answer of the source stream before the command has written (20_memory.md R77). -/
theorem srcByte_engine_eq (s : State) (i : Nat) : srcByte s s.engine i =
    if s.srcLen.toNat ≤ i then .ok none
    else if i < s.srcReadable then .ok (some (s.srcAt i)) else .error .ioBounds := by
  have hread := s.lt_srcReadable_iff i
  rcases srcByte_cases s s.engine i with ⟨hend, h⟩ | ⟨hlen, hout, h⟩ | ⟨hlen, hmem, h⟩
  · rw [h, if_pos hend]
  · rw [h, if_neg (by omega), if_neg (by omega)]
  · rw [h, if_neg (by omega), if_pos (hread.2 ⟨hlen, hmem⟩)]
    rfl

theorem State.getElem?_sourceBytes {s : State} {i : Nat} (h : i < s.srcLen.toNat) :
    s.sourceBytes[i]? = some (s.srcAt i) := by
  simp [State.sourceBytes, h]

/-- Two states have the same source: the same bytes, as far in M. -/
structure SameSource (s s' : State) : Prop where
  srcLen : s'.srcLen = s.srcLen
  srcReadable : s'.srcReadable = s.srcReadable
  sourceBytes : s'.sourceBytes = s.sourceBytes

section
variable {s s' : State} (h : SameSource s s')
include h

theorem SameSource.srcAt_eq {i : Nat} (hi : i < s.srcLen.toNat) : s'.srcAt i = s.srcAt i := by
  have hbyte := State.getElem?_sourceBytes (s := s') (h.srcLen ▸ hi)
  rw [h.sourceBytes, State.getElem?_sourceBytes hi] at hbyte
  exact (Option.some.inj hbyte).symm

theorem SameSource.headerByte_eq (count pos : Nat) :
    headerByte s' count pos = headerByte s count pos := by
  have hbyte : srcByte s' s'.engine pos = srcByte s s.engine pos := by
    rw [srcByte_engine_eq, srcByte_engine_eq, h.srcLen, h.srcReadable]
    split
    · rfl
    · next hlen => rw [h.srcAt_eq (Nat.lt_of_not_le hlen)]
  rw [headerByte, headerByte, hbyte]

theorem SameSource.readSize_eq (f : SizeForm) : readSize f s' = readSize f s := by
  cases f <;> simp only [readSize, h.srcLen, h.headerByte_eq]

theorem SameSource.readEntries_eq (count n pos : Nat) :
    readEntries s' count n pos = readEntries s count n pos := by
  induction n generalizing pos with
  | zero => rfl
  | succ n ih => simp only [readEntries, readEntry, h.headerByte_eq, ih]

theorem SameSource.readHeader_eq (f : SizeForm) : readHeader f s' = readHeader f s := by
  simp only [readHeader, h.readSize_eq, h.readEntries_eq]

end

/-- Settles O32: the headers read are equal, and so are the tables they load. -/
theorem dictReadIsIdempotent : Obligations.DictReadIsIdempotent := by
  unfold Obligations.DictReadIsIdempotent
  intro f s s' t t' hlen hreadable hbytes ht ht'
  have hsame := SameSource.readHeader_eq ⟨hlen, hreadable, hbytes⟩ f
  rcases readHeader_cases f s with ⟨es, pos, hread⟩ | ⟨count, hread⟩
  · obtain rfl := Host.Outcome.next.inj ((exec_dictRead_of_ok hread).symm.trans ht)
    obtain rfl := Host.Outcome.next.inj
      ((exec_dictRead_of_ok (hsame.trans hread)).symm.trans ht')
    exact ⟨rfl, fun _ => ⟨rfl, rfl, rfl⟩⟩
  · obtain rfl := Host.Outcome.next.inj ((exec_dictRead_of_error hread).symm.trans ht)
    obtain rfl := Host.Outcome.next.inj
      ((exec_dictRead_of_error (hsame.trans hread)).symm.trans ht')
    refine ⟨rfl, fun hok => ?_⟩
    rcases s.headerEnd_cases with hend | hend <;> cases hend.symm.trans hok

/-! ### A header in the source region -/

/-- The bytes `bs` stand in the source region from index `pos` on, all of them in M. -/
def State.sourceHolds (s : State) (pos : Nat) (bs : List Byte) : Prop :=
  pos + bs.length ≤ s.srcReadable ∧ (List.range' pos bs.length).map s.srcAt = bs

theorem State.sourceHolds_cons {s : State} {pos : Nat} {b : Byte} {bs : List Byte}
    (h : s.sourceHolds pos (b :: bs)) : s.srcAt pos = b ∧ s.sourceHolds (pos + 1) bs := by
  obtain ⟨hlen, hbytes⟩ := h
  rw [List.length_cons, List.range'_succ, List.map_cons, List.cons_eq_cons] at hbytes
  rw [List.length_cons] at hlen
  exact ⟨hbytes.1, by omega, hbytes.2⟩

theorem State.sourceHolds_append {s : State} {pos : Nat} {bs cs : List Byte}
    (h : s.sourceHolds pos (bs ++ cs)) :
    s.sourceHolds pos bs ∧ s.sourceHolds (pos + bs.length) cs := by
  obtain ⟨hlen, hbytes⟩ := h
  rw [List.length_append] at hlen hbytes
  rw [← List.range'_append_1, List.map_append] at hbytes
  obtain ⟨hbs, hcs⟩ := List.append_inj hbytes (by simp)
  exact ⟨⟨by omega, hbs⟩, by omega, hcs⟩

/-- The three bytes of an entry as a header holds it (30_encoding.md R111). -/
def HeaderEntry.bytes (e : HeaderEntry) : List Byte := [e.len, e.data, e.val]

theorem rawHeader_eq (f : SizeForm) (es : List HeaderEntry) :
    rawHeader f es = sizeField f es.length ++ es.flatMap HeaderEntry.bytes := by
  unfold rawHeader HeaderEntry.bytes
  cases f <;> simp [sizeField]

theorem length_flatMap_bytes (es : List HeaderEntry) :
    (es.flatMap HeaderEntry.bytes).length = 3 * es.length := by
  simp [HeaderEntry.bytes, List.length_flatMap, Nat.mul_comm]

/-- A size field is read back as its count (30_encoding.md R110). -/
theorem readSize_of_sourceHolds {f : SizeForm} {s : State} {count : Nat}
    (hcap : count ≤ formCapacity f) (hempty : f = .oneByte → count = 0 → s.srcLen = 0#32)
    (h : s.sourceHolds 0 (sizeField f count)) :
    readSize f s = .ok (count, (sizeField f count).length) := by
  cases f with
  | oneByte =>
    by_cases hzero : count = 0
    · rw [readSize_oneByte_of_empty (hempty rfl hzero), sizeField, if_pos hzero, hzero]
      rfl
    · simp only [sizeField, if_neg hzero] at h ⊢
      have hlen : 0 + 1 ≤ s.srcReadable := h.1
      obtain ⟨hbyte, -⟩ := State.sourceHolds_cons h
      rw [readSize_oneByte_of_readable hlen, hbyte]
      simp only [formCapacity] at hcap
      simp only [BitVec.toNat_ofNat, List.length_singleton]
      congr 2
      omega
  | twoByte =>
    simp only [sizeField] at h ⊢
    have hlen : 0 + 2 ≤ s.srcReadable := h.1
    obtain ⟨hhigh, hrest⟩ := State.sourceHolds_cons h
    obtain ⟨hlow, -⟩ := State.sourceHolds_cons hrest
    rw [readSize_twoByte_of_readable hlen, hhigh, hlow]
    simp only [formCapacity] at hcap
    simp only [BitVec.toNat_ofNat, List.length_cons, List.length_nil]
    congr 2
    omega

theorem entries_of_sourceHolds {s : State} {es : List HeaderEntry} {pos : Nat}
    (h : s.sourceHolds pos (es.flatMap HeaderEntry.bytes)) :
    (List.range' pos es.length 3).map s.entryAt = es := by
  induction es generalizing pos with
  | nil => rfl
  | cons e es ih =>
    obtain ⟨hentry, hrest⟩ := State.sourceHolds_append h
    obtain ⟨hlen, hentry⟩ := State.sourceHolds_cons hentry
    obtain ⟨hdata, hentry⟩ := State.sourceHolds_cons hentry
    obtain ⟨hval, -⟩ := State.sourceHolds_cons hentry
    have hes : (List.range' (pos + 3) es.length 3).map s.entryAt = es := ih hrest
    rw [List.length_cons, List.range'_succ, List.map_cons, hes, State.entryAt, hlen, hdata, hval]

/-- A whole header is read as the entries it was made of. -/
theorem readHeader_of_sourceHolds {f : SizeForm} {s : State} {es : List HeaderEntry}
    (hcap : es.length ≤ formCapacity f) (hempty : f = .oneByte → es = [] → s.srcLen = 0#32)
    (h : s.sourceHolds 0 (rawHeader f es)) :
    readHeader f s = .ok (es, (rawHeader f es).length) := by
  have hlen := h.1
  rw [rawHeader_eq] at h hlen ⊢
  obtain ⟨hfield, hentries⟩ := State.sourceHolds_append h
  have hsize := readSize_of_sourceHolds hcap
    (fun hf hzero => hempty hf (List.length_eq_zero_iff.1 hzero)) hfield
  rw [Nat.zero_add] at hlen hentries
  rw [List.length_append, length_flatMap_bytes] at hlen ⊢
  rw [readHeader_of_readable hsize hlen, entries_of_sourceHolds hentries]

/-! ### The tables that a header loads -/

theorem commitEntries_concat (es : List HeaderEntry) (e : HeaderEntry) :
    commitEntries (es ++ [e]) = commitEntry (commitEntries es) e := by
  simp [commitEntries]

theorem HeaderEntry.code_eq_iff (e : HeaderEntry) (k : Code) :
    e.code = k ↔ e.len.toNat = k.len ∧ e.data = k.data := by
  cases k
  simp [HeaderEntry.code]

/-- DMAP holds the last matchable entry of each Code (R167, R168). -/
theorem read_commitEntries_dmap (es : List HeaderEntry) (k : Code) :
    (commitEntries es).1.read k =
      (es.reverse.find? (fun e => decide (e.code = k ∧ k.matchable = true))).map
        HeaderEntry.val := by
  induction es using List.reverseRecOn with
  | nil => exact DecodeMap.read_empty k
  | append_singleton es e ih =>
    rw [commitEntries_concat, commitEntry, List.reverse_concat, List.find?_cons]
    by_cases hk : e.code = k
    · subst hk
      by_cases hm : e.code.matchable = true
      · simp [hm, DecodeMap.read_write]
      · simp [hm, ih]
    · have hne : ¬ k = e.code := Ne.symm hk
      split <;> simp [hk, hne, DecodeMap.read_write, ih]

/-- CODE holds the last matchable entry of each byte value (R167, R168). -/
theorem read_commitEntries_code (es : List HeaderEntry) (b : Byte) :
    (commitEntries es).2.read b =
      (es.reverse.find? (fun e => decide (e.val = b ∧ e.code.matchable = true))).map
        HeaderEntry.code := by
  induction es using List.reverseRecOn with
  | nil => exact Table.read_fill none b
  | append_singleton es e ih =>
    rw [commitEntries_concat, commitEntry, List.reverse_concat, List.find?_cons]
    by_cases hm : e.code.matchable = true
    · by_cases hb : e.val = b
      · simp [hm, hb]
      · have hne : ¬ b = e.val := Ne.symm hb
        simp [hm, hb, hne, Table.read_write, ih]
    · simp [hm, ih]

/-- MAXLEN is 0 or the length of some Code. -/
theorem maxCodeLen_reached (c : Table (Option Code)) :
    maxCodeLen c = 0 ∨ ∃ b k, c.read b = some k ∧ k.len = maxCodeLen c := by
  by_contra hnone
  obtain ⟨hpos, hother⟩ := not_or.1 hnone
  have hle : maxCodeLen c ≤ maxCodeLen c - 1 := (maxCodeLen_le_iff c _).2 fun b k hk => by
    have hbound := (maxCodeLen_le_iff c _).1 le_rfl b k hk
    have hne : k.len ≠ maxCodeLen c := fun hlen => hother ⟨b, k, hk, hlen⟩
    omega
  omega

theorem toNat_maxlen_commitDictionary (s : State) (es : List HeaderEntry) (pos : Nat) :
    (s.commitDictionary es pos).maxlen.toNat = maxCodeLen (commitEntries es).2 := by
  obtain ⟨-, -, -, hmax⟩ := codesPart_of_allMatchable (allMatchable_commitEntries es)
  exact hmax rfl

/-- Settles O28: the header is read as its entries, and the tables hold the last of each. -/
theorem dictReadLoadsTheHeader : Obligations.DictReadLoadsTheHeader := by
  unfold Obligations.DictReadLoadsTheHeader
  intro f s es hcap hempty hlen hbytes
  have hholds : s.sourceHolds 0 (rawHeader f es) := by
    refine ⟨by omega, ?_⟩
    have hle : s.srcReadable ≤ s.srcLen.toNat := Nat.min_le_left _ _
    rwa [State.sourceBytes, ← List.map_take, List.take_range, Nat.min_eq_left (by omega),
      List.range_eq_range'] at hbytes
  have hmaxlen := toNat_maxlen_commitDictionary s es (rawHeader f es).length
  refine ⟨_, exec_dictRead_of_ok (readHeader_of_sourceHolds hcap hempty hholds), rfl,
    fun k => ?_, fun b => ?_, fun b k hk => ?_, ?_⟩
  · refine (read_commitEntries_dmap es k).trans
      (congrArg (Option.map _) (congrArg₂ List.find? (funext fun e => ?_) rfl))
    simp only [HeaderEntry.code_eq_iff, Code.matchable_iff, and_assoc]
  · refine (read_commitEntries_code es b).trans
      (congrArg (Option.map _) (congrArg₂ List.find? (funext fun e => ?_) rfl))
    simp only [HeaderEntry.code, Code.matchable_iff]
  · exact ((maxCodeLen_le_iff _ _).1 le_rfl b k hk).trans_eq hmaxlen.symm
  · rcases maxCodeLen_reached (commitEntries es).2 with hzero | ⟨b, k, hk, hlen⟩
    · exact .inl (BitVec.eq_of_toNat_eq (hmaxlen.trans hzero))
    · exact .inr ⟨b, k, hk, hlen.trans hmaxlen.symm⟩

/-! ### The header of a code table, read back -/

/-- The entry of a Code and its byte value as a header holds it (R161). -/
def HeaderEntry.ofCode (k : Code) (b : Byte) : HeaderEntry :=
  { len := BitVec.ofNat 8 k.len, data := k.data, val := b }

/-- The length of a matchable Code fits in its byte. -/
theorem HeaderEntry.code_ofCode {k : Code} (h : k.matchable = true) (b : Byte) :
    (HeaderEntry.ofCode k b).code = k := by
  obtain ⟨-, hle, -⟩ := (Code.matchable_iff k).1 h
  refine (HeaderEntry.code_eq_iff _ k).2 ⟨?_, rfl⟩
  rw [HeaderEntry.ofCode, BitVec.toNat_ofNat]
  omega

/-- The entries of a code table as its header holds them. -/
def headerEntries (c : Table (Option Code)) : List HeaderEntry :=
  (codeEntries c).map (fun e => .ofCode e.1 e.2)

theorem length_headerEntries (c : Table (Option Code)) : (headerEntries c).length = codeCount c := by
  rw [headerEntries, List.length_map, length_codeEntries]

theorem rawHeader_headerEntries (f : SizeForm) (c : Table (Option Code)) :
    rawHeader f (headerEntries c) = headerOf f c := by
  have hbytes : (headerEntries c).flatMap HeaderEntry.bytes = (codeEntries c).flatMap entryBytes := by
    rw [headerEntries, List.flatMap_map]
    rfl
  rw [rawHeader_eq, hbytes, length_headerEntries, headerOf_eq, headerBytes, length_codeEntries]

/-- A source region that is the header of a code table is read as the entries of that table. -/
theorem readHeader_of_headerOf {f : SizeForm} {s : State} {c : Table (Option Code)}
    (hlen : s.srcLen.toNat = (headerOf f c).length) (h : s.sourceHolds 0 (headerOf f c)) :
    readHeader f s = .ok (headerEntries c, (headerOf f c).length) := by
  have hcap : (headerEntries c).length ≤ formCapacity f := by
    have := codeCount_le c
    rw [length_headerEntries]
    cases f <;> simp only [formCapacity] <;> omega
  rw [← rawHeader_headerEntries] at hlen h ⊢
  refine readHeader_of_sourceHolds hcap (fun hf hnil => BitVec.eq_of_toNat_eq ?_) h
  subst hf
  rw [hlen, hnil]
  rfl

section
variable {c : Table (Option Code)} (hc : allMatchable c)
include hc

theorem read_of_mem_headerEntries {e : HeaderEntry} (h : e ∈ headerEntries c) :
    c.read e.val = some e.code := by
  obtain ⟨⟨k, b⟩, hmem, rfl⟩ := List.mem_map.1 h
  have hk := mem_codeEntries.1 hmem
  rwa [HeaderEntry.code_ofCode (hc b k hk)]

theorem exists_headerEntry_iff (b : Byte) (k : Code) :
    (∃ e ∈ headerEntries c, e.val = b ∧ e.code = k) ↔ c.read b = some k := by
  constructor
  · rintro ⟨e, he, rfl, rfl⟩
    exact read_of_mem_headerEntries hc he
  · intro hk
    exact ⟨_, List.mem_map.2 ⟨_, mem_codeEntries.2 hk, rfl⟩, rfl,
      HeaderEntry.code_ofCode (hc b k hk) b⟩

end

/-- A search finds what its members have in common. -/
theorem map_find?_eq_some_iff {α β : Type} {l : List α} {p : α → Bool} {g : α → β}
    (h : ∀ x ∈ l, ∀ y ∈ l, p x = true → p y = true → g x = g y) (z : β) :
    (l.find? p).map g = some z ↔ ∃ x ∈ l, p x = true ∧ g x = z := by
  rw [Option.map_eq_some_iff]
  constructor
  · rintro ⟨x, hx, rfl⟩
    exact ⟨x, List.mem_of_find?_eq_some hx, List.find?_some hx, rfl⟩
  · rintro ⟨x, hx, hpx, rfl⟩
    obtain ⟨y, hy⟩ := Option.isSome_iff_exists.1 (List.find?_isSome.2 ⟨x, hx, hpx⟩)
    exact ⟨y, hy, h y (List.mem_of_find?_eq_some hy) x hx (List.find?_some hy) hpx⟩

/-- The header of a code table loads that table. -/
theorem commitEntries_headerEntries_code {c : Table (Option Code)} (hc : allMatchable c) :
    (commitEntries (headerEntries c)).2 = c := by
  refine Table.ext_read fun b => Option.ext fun k => ?_
  rw [read_commitEntries_code, map_find?_eq_some_iff, ← exists_headerEntry_iff hc b k]
  · refine exists_congr fun e => ?_
    rw [List.mem_reverse]
    refine and_congr_right fun he => ?_
    have hm : e.code.matchable = true := hc _ _ (read_of_mem_headerEntries hc he)
    rw [decide_eq_true_iff, and_iff_left hm]
  · intro x hx y hy hxb hyb
    obtain ⟨rfl, -⟩ := of_decide_eq_true hxb
    obtain ⟨hval, -⟩ := of_decide_eq_true hyb
    have hcode := read_of_mem_headerEntries hc (List.mem_reverse.1 hy)
    rw [hval, read_of_mem_headerEntries hc (List.mem_reverse.1 hx)] at hcode
    exact Option.some.inj hcode

/-- The header of a code table with a different Code for every byte value loads its inverse. -/
theorem read_commitEntries_headerEntries_dmap {c : Table (Option Code)} (hc : allMatchable c)
    (hinj : ∀ b b' k, c.read b = some k → c.read b' = some k → b = b') (k : Code) (b : Byte) :
    (commitEntries (headerEntries c)).1.read k = some b ↔ c.read b = some k := by
  rw [read_commitEntries_dmap, map_find?_eq_some_iff, ← exists_headerEntry_iff hc b k]
  · refine exists_congr fun e => ?_
    rw [List.mem_reverse]
    refine and_congr_right fun he => ?_
    have hm : e.code.matchable = true := hc _ _ (read_of_mem_headerEntries hc he)
    rw [decide_eq_true_iff, and_comm (b := e.val = b)]
    exact and_congr_right fun _ => ⟨And.left, fun hk => ⟨hk, hk ▸ hm⟩⟩
  · intro x hx y hy hxk hyk
    obtain ⟨hxk, -⟩ := of_decide_eq_true hxk
    obtain ⟨hyk, -⟩ := of_decide_eq_true hyk
    exact hinj _ _ k (hxk ▸ read_of_mem_headerEntries hc (List.mem_reverse.1 hx))
      (hyk ▸ read_of_mem_headerEntries hc (List.mem_reverse.1 hy))

/-! ### What ASSIGN gave, DICT_WRITE wrote and DICT_READ reads -/

/-- An ASSIGN without error gives no Code to two byte values (R155). -/
theorem eq_of_assigned_code {s c : State} (hs : Inv s) (hexec : exec .assign s = .next c)
    (hok : c.error = .none) (b b' : Byte) (k : Code) (hb : c.code.read b = some k)
    (hb' : c.code.read b' = some k) : b = b' := by
  cases htree : s.tree with
  | noTree =>
    obtain rfl := Host.Outcome.next.inj ((exec_assign_of_noTree htree).symm.trans hexec)
    cases hok
  | emptyTree =>
    obtain rfl := Host.Outcome.next.inj ((exec_assign_of_emptyTree htree).symm.trans hexec)
    cases (Table.read_fill none b).symm.trans hb
  | built t =>
    cases t with
    | leaf a w =>
      obtain rfl := Host.Outcome.next.inj ((exec_assign_of_leaf htree).symm.trans hexec)
      have honly : ∀ x, (trivialCodes a).read x = some k → x = a := by
        intro x hx
        by_contra hne
        rw [read_trivialCodes, if_neg hne] at hx
        cases hx
      exact (honly b hb).trans (honly b' hb').symm
    | node l r =>
      obtain ⟨-, hprefix, -⟩ := assignedCodesArePrefixFree s c l r hs htree hexec hok
      by_contra hne
      exact hprefix b b' k k hb hb' hne List.prefix_rfl

/-- A DICT_WRITE without error found its codes valid and its whole header writable. -/
theorem dictWrite_eq_of_ok {f : SizeForm} {s d : State} (h : exec (.dictWrite f) s = .next d)
    (hok : d.error = .none) : (headerOf f s.code).length ≤ s.dstWritable ∧
      ∃ m, s.mem.storesBytes m s.dstAddr.toNat (headerOf f s.code) ∧
        d = ({ s with mem := m, outBitpos := BitVec.ofNat 32 (8 * (headerOf f s.code).length) } :
          State).ended 0x04#8 .none (headerOf f s.code).length (codeCount s.code) := by
  by_cases hv : s.codesValid = true
  · obtain hover | hfits := Nat.lt_or_ge s.dstWritable (headerOf f s.code).length
    · obtain ⟨m, -, hexec⟩ := exec_dictWrite_of_overflow hv hover
      obtain rfl := Host.Outcome.next.inj (hexec.symm.trans h)
      cases hok
    · obtain ⟨m, hstores, hexec⟩ := exec_dictWrite_of_fits hv hfits
      exact ⟨hfits, m, hstores, (Host.Outcome.next.inj (hexec.symm.trans h)).symm⟩
  · have hexec := exec_dictWrite_of_noCodes (f := f) (Bool.eq_false_iff.2 hv)
    obtain rfl := Host.Outcome.next.inj (hexec.symm.trans h)
    cases hok

/-- Bytes that a command has stored at the source address stand in the source region. -/
theorem sourceHolds_of_storesBytes {s : State} {m : Memory} {bs : List Byte}
    (h : m.storesBytes s.mem s.srcAddr.toNat bs) (hlen : bs.length ≤ s.srcReadable) :
    s.sourceHolds 0 bs := by
  refine ⟨by omega, List.ext_getElem (by simp) fun i _ hi => ?_⟩
  have hbyte := h s.powerOn (s.srcAddr.toNat + i)
  rw [if_pos (by omega), Nat.add_sub_cancel_left] at hbyte
  simpa [State.srcAt, State.byteAt, hi] using hbyte

/-- Settles O33: DICT_READ reads the written header as the entries of the ASSIGN's codes, which load
that table and, as no two byte values share a Code, its inverse. -/
theorem headerWrittenIsHeaderRead : Obligations.HeaderWrittenIsHeaderRead := by
  unfold Obligations.HeaderWrittenIsHeaderRead
  intro f s c d a n hs hassign hc hwrite hd
  have hcodes : allMatchable c.code := (hs.exec hassign).codeMatchable
  obtain ⟨hfits, m, hstores, rfl⟩ := dictWrite_eq_of_ok hwrite hd
  have hle : (headerOf f c.code).length ≤ min n.toNat (c.cfg.memBytes - a.toNat) := hfits
  have hlen : (BitVec.ofNat 32 (headerOf f c.code).length).toNat = (headerOf f c.code).length := by
    have := n.isLt
    rw [BitVec.toNat_ofNat]
    omega
  refine ⟨_, exec_dictRead_of_ok (readHeader_of_headerOf hlen
    (sourceHolds_of_storesBytes hstores ?_)), rfl, ?_, rfl,
    commitEntries_headerEntries_code hcodes,
    read_commitEntries_headerEntries_dmap hcodes (eq_of_assigned_code hs hassign hc)⟩
  · show _ ≤ min (BitVec.ofNat 32 (headerOf f c.code).length).toNat (c.cfg.memBytes - a.toNat)
    omega
  · exact congrArg (BitVec.ofNat 32) (length_headerEntries c.code)

end Sys2Proof.Machine

/-! PROOF. ENCODE (43_stream_codec.md R175 to R179): the bits that it stores, the payload of
the first source bytes, and the ways its loop ends. -/

namespace Sys2Proof.Machine

/-! ### The source while a command writes -/

/-- A command's writes lie in the destination region, so they leave a source region apart from
it. -/
theorem Engine.ReachedFrom.byte_source {s : State} {e : Engine} (h : e.ReachedFrom s)
    (hapart : ¬ s.regionsMeet) {i : Nat} (hi : i < s.srcLen.toNat) :
    e.mem.byte s.powerOn (s.srcAddr.toNat + i) = s.srcAt i := by
  have hnone : e.trail.find? (fun c => c.1 == s.srcAddr.toNat + i) = none := by
    refine List.find?_eq_none.2 fun c hc heq => hapart ⟨c.1, ?_, ?_⟩
    · simp only [beq_iff_eq] at heq
      omega
    · obtain ⟨hlow, hhigh, -⟩ := h.region c hc
      exact ⟨hlow, hhigh⟩
  rw [h.memory, Memory.byte_applyWrites, hnone]
  rfl

theorem srcByte_of_reached {s : State} {e : Engine} (h : e.ReachedFrom s)
    (hapart : ¬ s.regionsMeet) (i : Nat) : srcByte s e i = srcByte s s.engine i := by
  rw [srcByte_engine_eq]
  have hread := s.lt_srcReadable_iff i
  rcases srcByte_cases s e i with ⟨hend, hbyte⟩ | ⟨hlen, hout, hbyte⟩ | ⟨hlen, hmem, hbyte⟩
  · rw [hbyte, if_pos hend]
  · rw [hbyte, if_neg (by omega), if_neg (by omega)]
  · rw [hbyte, if_neg (by omega), if_pos (hread.2 ⟨hlen, hmem⟩), h.byte_source hapart hlen]

/-! ### The bits that a command stores -/

/-- Every bit of `m'` is as in `m`, but for the bits `bs` at bit positions `q` on from address `a0`:
what `State.storesBits` says of two states with power-on content `seed`. -/
def Memory.storesBits (m m' : Memory) (seed a0 q : Nat) (bs : List Bool) : Prop :=
  ∀ a j, j < 8 → (m'.byte seed a).getLsbD (7 - j) =
    if a0 ≤ a ∧ q ≤ 8 * (a - a0) + j ∧ 8 * (a - a0) + j < q + bs.length then
      bs.getD (8 * (a - a0) + j - q) false
    else (m.byte seed a).getLsbD (7 - j)

theorem Memory.storesBits_nil (m : Memory) (seed a0 q : Nat) : m.storesBits m seed a0 q [] := by
  intro a j _
  rw [if_neg fun hin => by simp at hin; omega]

/-- Bits written and then the bits after them. -/
theorem Memory.storesBits_append {m m' m'' : Memory} {seed a0 q : Nat} {bs cs : List Bool}
    (hbs : m.storesBits m' seed a0 q bs) (hcs : m'.storesBits m'' seed a0 (q + bs.length) cs) :
    m.storesBits m'' seed a0 q (bs ++ cs) := by
  intro a j hj
  rw [hcs a j hj, hbs a j hj, List.length_append]
  by_cases hold : 8 * (a - a0) + j < q + bs.length
  · rw [if_neg (by omega)]
    by_cases hin : a0 ≤ a ∧ q ≤ 8 * (a - a0) + j
    · rw [if_pos ⟨hin.1, hin.2, hold⟩, if_pos (by omega), List.getD_append _ _ _ _ (by omega)]
    · rw [if_neg (by tauto), if_neg (by tauto)]
  · by_cases hin : a0 ≤ a ∧ 8 * (a - a0) + j < q + bs.length + cs.length
    · rw [if_pos (by omega), if_pos (by omega), List.getD_append_right _ _ _ _ (by omega),
        Nat.sub_sub]
    · rw [if_neg (by omega), if_neg (by omega), if_neg (by omega)]

/-- The engine `e'` is `e` after storing the bits `bs` at destination bit positions `q` on. -/
structure Engine.BitsStored (s : State) (e : Engine) (q : Nat) (bs : List Bool) (e' : Engine) :
    Prop where
  bits : e.mem.storesBits e'.mem s.powerOn s.dstAddr.toNat q bs
  reached : e.ReachedFrom s → e'.ReachedFrom s
  unchanged : bs = [] → e' = e

theorem Engine.BitsStored.nil (s : State) (e : Engine) (q : Nat) : e.BitsStored s q [] e :=
  ⟨e.mem.storesBits_nil _ _ _, id, fun _ => rfl⟩

theorem Engine.BitsStored.append {s : State} {e e' e'' : Engine} {q : Nat} {bs cs : List Bool}
    (hbs : e.BitsStored s q bs e') (hcs : e'.BitsStored s (q + bs.length) cs e'') :
    e.BitsStored s q (bs ++ cs) e'' := by
  refine ⟨Memory.storesBits_append hbs.bits hcs.bits, hcs.reached ∘ hbs.reached, fun h => ?_⟩
  obtain ⟨hnil, hnil'⟩ := List.append_eq_nil_iff.1 h
  rw [hcs.unchanged hnil', hbs.unchanged hnil]

/-- Everything the engine's bit write can answer (20_memory.md R80). -/
theorem dstBit_fits_cases (s : State) (e : Engine) (q : Nat) (b : Bool) :
    (8 * s.dstWritable - q = 0 ∧ dstBit s e q b = .error .ioBounds) ∨
    (q < 8 * s.dstWritable ∧ ∃ e', dstBit s e q b = .ok e' ∧ e.BitsStored s q [b] e') := by
  obtain ⟨hfull, hroom⟩ := destinationBitIsOneBit s e q b
  obtain h | h := Nat.lt_or_ge (q / 8) s.dstWritable
  · obtain ⟨e', hbit, hmem⟩ := hroom h
    refine .inr ⟨by omega, e', hbit, fun a j hj => ?_, fun he => dstBit_reached he hbit, by simp⟩
    rw [hmem a (7 - j) (by omega), List.length_singleton]
    by_cases hpos : a = s.dstAddr.toNat + q / 8 ∧ j = q % 8
    · obtain ⟨rfl, rfl⟩ := hpos
      have hzero : 8 * (s.dstAddr.toNat + q / 8 - s.dstAddr.toNat) + q % 8 - q = 0 := by omega
      rw [if_pos ⟨rfl, rfl⟩, if_pos (by omega), hzero, List.getD_cons_zero]
    · rw [if_neg (by omega), if_neg (by omega)]
  · exact .inl ⟨by omega, hfull h⟩

/-- A loop of bit writes gets as far as the destination is writable, and ends with IO_BOUNDS where
that is not all of the bits (R176, R177). -/
theorem exists_putBits_eq (s : State) (bs : List Bool) (r : EncodeRun) : ∃ e, putBits s bs r =
      { eng := e
        q := r.q + (bs.take (8 * s.dstWritable - r.q)).length
        nbits := r.nbits + (bs.take (8 * s.dstWritable - r.q)).length
        i := r.i
        err := if bs.length ≤ 8 * s.dstWritable - r.q then r.err else .ioBounds } ∧
    r.eng.BitsStored s r.q (bs.take (8 * s.dstWritable - r.q)) e := by
  induction bs generalizing r with
  | nil =>
    rw [List.take_nil]
    exact ⟨r.eng, by simp [putBits], .nil s r.eng r.q⟩
  | cons b bs ih =>
    rcases dstBit_fits_cases s r.eng r.q b with ⟨hfull, hbit⟩ | ⟨hroom, e', hbit, hstored⟩
    · rw [hfull, List.take_zero]
      exact ⟨r.eng, by simp [putBits, hbit], .nil s r.eng r.q⟩
    · obtain ⟨n, hn⟩ : ∃ n, 8 * s.dstWritable - r.q = n + 1 :=
        Nat.exists_eq_add_one_of_ne_zero (by omega)
      obtain ⟨e, hput, hrest⟩ := ih { r with eng := e', q := r.q + 1, nbits := r.nbits + 1 }
      have hn' : 8 * s.dstWritable - (r.q + 1) = n := by omega
      simp only [hn'] at hput hrest
      rw [hn, List.take_succ_cons]
      refine ⟨e, ?_, hstored.append hrest⟩
      simp only [putBits, hbit, hput, List.length_cons, Nat.add_le_add_iff_right, Nat.add_assoc,
        Nat.add_comm 1]

/-- All of the bits where they fit. -/
theorem exists_putBits_of_fits {s : State} {bs : List Bool} {r : EncodeRun}
    (h : bs.length ≤ 8 * s.dstWritable - r.q) : ∃ e, putBits s bs r =
      { r with eng := e, q := r.q + bs.length, nbits := r.nbits + bs.length } ∧
    r.eng.BitsStored s r.q bs e := by
  obtain ⟨e, hput, hstored⟩ := exists_putBits_eq s bs r
  rw [if_pos h, List.take_of_length_le h] at hput
  exact ⟨e, hput, List.take_of_length_le h ▸ hstored⟩

/-! ### The payload of the source bytes -/

theorem payload_cons {c : Table (Option Code)} {b : Byte} {k : Code} (h : c.read b = some k)
    (bs : List Byte) : payload c (b :: bs) = k.bits ++ payload c bs := by
  rw [payload, List.flatMap_cons, h]
  rfl

@[simp] theorem payload_append (c : Table (Option Code)) (bs cs : List Byte) :
    payload c (bs ++ cs) = payload c bs ++ payload c cs := List.flatMap_append

theorem payload_singleton {c : Table (Option Code)} {b : Byte} {k : Code} (h : c.read b = some k) :
    payload c [b] = k.bits := by
  rw [payload_cons h]
  exact List.append_nil _

@[simp] theorem allCoded_cons (c : Table (Option Code)) (b : Byte) (bs : List Byte) :
    allCoded c (b :: bs) = true ↔ (∃ k, c.read b = some k) ∧ allCoded c bs = true := by
  simp [allCoded, Option.isSome_iff_exists]

@[simp] theorem allCoded_append (c : Table (Option Code)) (bs cs : List Byte) :
    allCoded c (bs ++ cs) = true ↔ allCoded c bs = true ∧ allCoded c cs = true := by
  simp [allCoded, Bool.and_eq_true]

theorem State.take_sourceBytes {s : State} {i : Nat} (h : i ≤ s.srcReadable) :
    s.sourceBytes.take i = (List.range' 0 i).map s.srcAt := by
  have hle : s.srcReadable ≤ s.srcLen.toNat := Nat.min_le_left _ _
  rw [State.sourceBytes, ← List.map_take, List.take_range, Nat.min_eq_left (by omega),
    List.range_eq_range']

theorem State.take_succ_sourceBytes {s : State} {i : Nat} (h : i < s.srcReadable) :
    s.sourceBytes.take (i + 1) = s.sourceBytes.take i ++ [s.srcAt i] := by
  rw [State.take_sourceBytes h, State.take_sourceBytes (Nat.le_of_lt h), List.range'_concat,
    List.map_append]
  simp

/-! ### The loop over the source bytes -/

/-- ENCODE's loop at a source byte that can be read and has a Code. -/
theorem encodeLoop_succ_of_coded {s : State} (hapart : ¬ s.regionsMeet) (n : Nat) {r : EncodeRun}
    (hr : r.eng.ReachedFrom s) (hread : r.i < s.srcReadable) {c : Code}
    (hc : s.code.read (s.srcAt r.i) = some c) : encodeLoop s (n + 1) r =
      if (putBits s c.bits r).err = .none then
        encodeLoop s n { putBits s c.bits r with i := (putBits s c.bits r).i + 1 }
      else putBits s c.bits r := by
  rw [encodeLoop, srcByte_of_reached hr hapart, srcByte_of_readable hread]
  simp only [hc]

/-- ENCODE's loop at a source byte with no Code (R178). -/
theorem encodeLoop_succ_of_uncoded {s : State} (hapart : ¬ s.regionsMeet) (n : Nat) {r : EncodeRun}
    (hr : r.eng.ReachedFrom s) (hread : r.i < s.srcReadable)
    (hc : s.code.read (s.srcAt r.i) = none) :
    encodeLoop s (n + 1) r = { r with err := .symbolUncoded } := by
  rw [encodeLoop, srcByte_of_reached hr hapart, srcByte_of_readable hread]
  simp only [hc]

/-- ENCODE's loop at the first source byte outside M. -/
theorem encodeLoop_succ_of_unreadable {s : State} (hapart : ¬ s.regionsMeet) (n : Nat)
    {r : EncodeRun} (hr : r.eng.ReachedFrom s) (hi : r.i = s.srcReadable)
    (hlen : r.i < s.srcLen.toNat) : encodeLoop s (n + 1) r = { r with err := .ioBounds } := by
  rw [encodeLoop, srcByte_of_reached hr hapart, srcByte_engine_eq, if_neg (by omega),
    if_neg (by omega)]

/-- While its bytes can be read, have Codes and their bits fit, ENCODE's loop stores their
payload. -/
theorem exists_encodeLoop_of_fits {s : State} (hapart : ¬ s.regionsMeet) {k : Nat} (m : Nat)
    {r : EncodeRun} (hr : r.eng.ReachedFrom s) (hok : r.err = .none)
    (hread : r.i + k ≤ s.srcReadable) {bits : List Bool}
    (hbits : payload s.code ((List.range' r.i k).map s.srcAt) = bits)
    (hcoded : allCoded s.code ((List.range' r.i k).map s.srcAt) = true)
    (hfit : bits.length ≤ 8 * s.dstWritable - r.q) :
    ∃ e, encodeLoop s (m + k) r = encodeLoop s m { r with
        eng := e, q := r.q + bits.length, nbits := r.nbits + bits.length, i := r.i + k } ∧
      r.eng.BitsStored s r.q bits e := by
  induction k generalizing r bits with
  | zero =>
    subst hbits
    exact ⟨r.eng, rfl, .nil s r.eng r.q⟩
  | succ k ih =>
    rw [List.range'_succ, List.map_cons, allCoded_cons] at hcoded
    obtain ⟨⟨c, hc⟩, hcoded⟩ := hcoded
    rw [List.range'_succ, List.map_cons, payload_cons hc] at hbits
    subst hbits
    rw [List.length_append] at hfit
    obtain ⟨e, hput, hstored⟩ := exists_putBits_of_fits (r := r)
      (show c.bits.length ≤ 8 * s.dstWritable - r.q by omega)
    obtain ⟨e', hloop, hrest⟩ := ih (r := { r with
        eng := e, q := r.q + c.bits.length, nbits := r.nbits + c.bits.length, i := r.i + 1 })
      (hstored.reached hr) hok (by simp only; omega) rfl hcoded (by simp only; omega)
    refine ⟨e', ?_, hstored.append hrest⟩
    rw [← Nat.add_assoc, encodeLoop_succ_of_coded hapart _ hr (by omega) hc]
    simp only [hput, hok, if_true, List.length_append] at hloop ⊢
    rw [hloop]
    simp only [Nat.add_assoc, Nat.add_comm 1]

/-- ENCODE's run when its loop has stored the `n` payload bits of the first `i` source bytes. -/
def State.encodeAt (s : State) (e : Engine) (n i : Nat) : EncodeRun :=
  { eng := e, q := s.outBitpos.toNat + n, nbits := n, i := i, err := .none }

/-- The loop gets over the first source bytes that can be read, have Codes and fit. -/
theorem exists_encodeLoop_start {s : State} (hapart : ¬ s.regionsMeet) {i : Nat}
    (hread : i ≤ s.srcReadable) {bits : List Bool}
    (hbits : payload s.code (s.sourceBytes.take i) = bits)
    (hcoded : allCoded s.code (s.sourceBytes.take i) = true)
    (hfit : bits.length ≤ 8 * s.dstWritable - s.outBitpos.toNat) :
    ∃ e, encodeLoop s s.srcLen.toNat s.encodeStart =
        encodeLoop s (s.srcLen.toNat - i) (s.encodeAt e bits.length i) ∧
      e.ReachedFrom s ∧ s.engine.BitsStored s s.outBitpos.toNat bits e := by
  have hle : s.srcReadable ≤ s.srcLen.toNat := Nat.min_le_left _ _
  rw [State.take_sourceBytes hread] at hbits hcoded
  obtain ⟨e, hloop, hstored⟩ := exists_encodeLoop_of_fits hapart (s.srcLen.toNat - i)
    (r := s.encodeStart) s.engine_reached rfl (by simpa [State.encodeStart] using hread)
    hbits hcoded hfit
  rw [Nat.sub_add_cancel (by omega)] at hloop
  refine ⟨e, ?_, hstored.reached s.engine_reached, hstored⟩
  simpa [State.encodeStart, State.encodeAt] using hloop

/-! ### The padding -/

/-- The padding stores 0 bits up to the next byte boundary, where they fit (R179). -/
theorem exists_padLoop_eq (s : State) {n d : Nat} {r : EncodeRun}
    (hd : r.q + d = 8 * ((r.q + 7) / 8)) (hn : d ≤ n) (hfit : d = 0 ∨ r.q < 8 * s.dstWritable) :
    ∃ e, padLoop s n r = { r with eng := e, q := r.q + d } ∧
      r.eng.BitsStored s r.q (List.replicate d false) e := by
  induction d generalizing n r with
  | zero =>
    refine ⟨r.eng, ?_, .nil s r.eng r.q⟩
    cases n with
    | zero => rfl
    | succ n =>
      rw [padLoop, if_pos (by omega)]
      rfl
  | succ d ih =>
    obtain ⟨n, rfl⟩ : ∃ m, n = m + 1 := ⟨n - 1, by omega⟩
    rcases dstBit_fits_cases s r.eng r.q false with ⟨hfull, -⟩ | ⟨-, e', hbit, hstored⟩
    · omega
    · obtain ⟨e, hpad, hrest⟩ := ih (n := n) (r := { r with eng := e', q := r.q + 1 })
        (by simp only; omega) (by omega) (by simp only; omega)
      refine ⟨e, ?_, hstored.append hrest⟩
      rw [padLoop, if_neg (by omega)]
      simp only [hbit, hpad, Nat.add_assoc, Nat.add_comm 1]

theorem padLoop_of_full {s : State} {n : Nat} {r : EncodeRun} (hq : r.q % 8 ≠ 0)
    (hfull : 8 * s.dstWritable ≤ r.q) : padLoop s (n + 1) r = { r with err := .ioBounds } := by
  rcases dstBit_fits_cases s r.eng r.q false with ⟨-, hbit⟩ | ⟨hroom, -⟩
  · simp only [padLoop, if_neg hq, hbit]
  · omega

/-! ### The command's end -/

theorem State.overlap_eq_false {s : State} (h : ¬ s.regionsMeet) : s.overlap = false :=
  Bool.eq_false_iff.2 (mt (overlapIsASharedAddress s).1 h)

theorem encodeRun_of_loop_ok {s : State} {r : EncodeRun}
    (h : encodeLoop s s.srcLen.toNat s.encodeStart = r) (hok : r.err = .none) :
    encodeRun s = padLoop s 7 r := by
  simp [encodeRun, h, hok]

theorem encodeRun_of_loop_error {s : State} {r : EncodeRun}
    (h : encodeLoop s s.srcLen.toNat s.encodeStart = r) (herr : r.err ≠ .none) :
    encodeRun s = r := by
  simp [encodeRun, h, herr]

section
variable {s : State} (hv : s.codesValid = true) (hapart : ¬ s.regionsMeet)
include hv hapart

/-- ENCODE without an error in its loop and its padding (R177). -/
theorem exec_encode_of_ok {r : EncodeRun} (hrun : encodeRun s = r) (hok : r.err = .none) :
    exec .encode s = .next
      (({ s with mem := r.eng.mem, outBitpos := BitVec.ofNat 32 r.q } : State).ended
        0x06#8 .none r.nbits (r.q / 8)) := by
  simp [exec, execEncode, hv, State.overlap_eq_false hapart, hrun, hok, Instr.opcode,
    State.finish_eq_ended]

/-- ENCODE with an error in its loop or its padding: OUT_BITPOS is kept (R177). -/
theorem exec_encode_of_error {r : EncodeRun} (hrun : encodeRun s = r) (herr : r.err ≠ .none) :
    exec .encode s = .next
      (({ s with mem := r.eng.mem } : State).ended 0x06#8 r.err r.nbits r.i) := by
  simp [exec, execEncode, hv, State.overlap_eq_false hapart, hrun, herr, Instr.opcode,
    State.raise_eq_ended]

end

/-- Settles O34: the loop stores the payload of the whole source, and the padding fits because it
stays in the payload's last byte or is empty. -/
theorem encodeWritesThePayload : Obligations.EncodeWritesThePayload := by
  unfold Obligations.EncodeWritesThePayload
  intro s hlegal hv hapart hread hcoded bits q stop hfit
  have hwritable : s.dstWritable ≤ s.cfg.memBytes := by
    unfold State.dstWritable
    omega
  have hq : q < 2 ^ 32 := s.outBitpos.isLt
  have hall : s.sourceBytes.take s.srcLen.toNat = s.sourceBytes :=
    List.take_of_length_le (by simp)
  obtain ⟨e, hloop, -, hstored⟩ := exists_encodeLoop_start hapart (i := s.srcLen.toNat) hread.ge
    (bits := bits) (by rw [hall]) (by rwa [hall]) (by show _ ≤ _ - q; omega)
  rw [Nat.sub_self] at hloop
  obtain ⟨e', hpad, hzeros⟩ := exists_padLoop_eq s (n := 7) (d := stop - (q + bits.length))
    (r := s.encodeAt e bits.length s.srcLen.toNat)
    (by show q + bits.length + _ = 8 * ((q + bits.length + 7) / 8); omega) (by omega)
    (by show _ ∨ q + bits.length < _; omega)
  have hend : q + bits.length + (stop - (q + bits.length)) = stop := by omega
  have hexec := exec_encode_of_ok hv hapart ((encodeRun_of_loop_ok hloop rfl).trans hpad) rfl
  rw [show (s.encodeAt e bits.length s.srcLen.toNat).q = q + bits.length from rfl, hend] at hexec
  exact ⟨by omega, _, hexec, rfl, (hstored.append hzeros).bits⟩

/-- Settles O35: the loop gets to the byte and finds no Code. -/
theorem encodeStopsAtAnUncodedByte : Obligations.EncodeStopsAtAnUncodedByte := by
  unfold Obligations.EncodeStopsAtAnUncodedByte
  intro s i hv hapart hread hcoded hnone bits hfit
  have hle : s.srcReadable ≤ s.srcLen.toNat := Nat.min_le_left _ _
  have hlen : bits.length ≤ 8 * s.dstWritable - s.outBitpos.toNat := by
    rcases hfit with hnil | hfit
    · exact hnil ▸ Nat.zero_le _
    · omega
  obtain ⟨e, hloop, hreached, hstored⟩ := exists_encodeLoop_start hapart hread.le rfl hcoded hlen
  obtain ⟨n, hn⟩ : ∃ n, s.srcLen.toNat - i = n + 1 := Nat.exists_eq_add_one_of_ne_zero (by omega)
  rw [hn, encodeLoop_succ_of_uncoded hapart n hreached hread hnone] at hloop
  have hexec := exec_encode_of_error hv hapart (encodeRun_of_loop_error hloop (by simp)) (by simp)
  exact ⟨_, hexec, rfl, hstored.bits⟩

section
variable {s : State} (hv : s.codesValid = true) (hapart : ¬ s.regionsMeet)
include hv hapart

/-- The bits of a Code that do not all fit (R177). -/
theorem exec_encode_of_overflow {i : Nat} (hread : i < s.srcReadable)
    (hcoded : allCoded s.code (s.sourceBytes.take (i + 1)) = true)
    (hfit : (payload s.code (s.sourceBytes.take i)).length ≤ 8 * s.dstWritable - s.outBitpos.toNat)
    (hover : 8 * s.dstWritable - s.outBitpos.toNat <
      (payload s.code (s.sourceBytes.take (i + 1))).length) :
    ∃ t, exec .encode s = .next t ∧
      t = ({ s with mem := t.mem } : State).ended 0x06#8 .ioBounds
        (8 * s.dstWritable - s.outBitpos.toNat) i ∧
      s.storesBits t s.dstAddr.toNat s.outBitpos.toNat
        ((payload s.code (s.sourceBytes.take (i + 1))).take
          (8 * s.dstWritable - s.outBitpos.toNat)) := by
  have hle : s.srcReadable ≤ s.srcLen.toNat := Nat.min_le_left _ _
  rw [State.take_succ_sourceBytes hread, allCoded_append, allCoded_cons] at hcoded
  obtain ⟨hcoded, ⟨c, hc⟩, -⟩ := hcoded
  rw [State.take_succ_sourceBytes hread, payload_append, payload_singleton hc] at hover ⊢
  obtain ⟨e, hloop, hreached, hstored⟩ := exists_encodeLoop_start hapart hread.le rfl hcoded hfit
  obtain ⟨n, hn⟩ : ∃ n, s.srcLen.toNat - i = n + 1 := Nat.exists_eq_add_one_of_ne_zero (by omega)
  generalize payload s.code (s.sourceBytes.take i) = bits at hfit hover hloop hstored ⊢
  obtain ⟨e', hput, hstored'⟩ := exists_putBits_eq s c.bits (s.encodeAt e bits.length i)
  have hroom : 8 * s.dstWritable - (s.encodeAt e bits.length i).q =
      8 * s.dstWritable - s.outBitpos.toNat - bits.length := Nat.sub_add_eq ..
  rw [List.length_append] at hover
  rw [hroom, if_neg (by omega), List.length_take_of_le (by omega)] at hput
  rw [hroom] at hstored'
  rw [hn, encodeLoop_succ_of_coded hapart n hreached hread hc, hput, if_neg (by simp)] at hloop
  have hexec := exec_encode_of_error hv hapart (encodeRun_of_loop_error hloop (by simp)) (by simp)
  have hbits : bits.length + (8 * s.dstWritable - s.outBitpos.toNat - bits.length) =
      8 * s.dstWritable - s.outBitpos.toNat := by omega
  refine ⟨_, hexec, ?_, ?_⟩
  · simp only [State.encodeAt, hbits]
    rfl
  · rw [List.take_append, List.take_of_length_le hfit]
    exact (hstored.append hstored').bits

/-- A source byte that lies outside M (R177). -/
theorem exec_encode_of_unreadable (hshort : s.srcReadable < s.srcLen.toNat)
    (hcoded : allCoded s.code (s.sourceBytes.take s.srcReadable) = true)
    (hfit : (payload s.code (s.sourceBytes.take s.srcReadable)).length ≤
      8 * s.dstWritable - s.outBitpos.toNat) :
    ∃ t, exec .encode s = .next t ∧
      t = ({ s with mem := t.mem } : State).ended 0x06#8 .ioBounds
        (payload s.code (s.sourceBytes.take s.srcReadable)).length s.srcReadable ∧
      s.storesBits t s.dstAddr.toNat s.outBitpos.toNat
        (payload s.code (s.sourceBytes.take s.srcReadable)) := by
  obtain ⟨e, hloop, hreached, hstored⟩ := exists_encodeLoop_start hapart le_rfl rfl hcoded hfit
  obtain ⟨n, hn⟩ : ∃ n, s.srcLen.toNat - s.srcReadable = n + 1 :=
    Nat.exists_eq_add_one_of_ne_zero (by omega)
  rw [hn, encodeLoop_succ_of_unreadable hapart n hreached rfl hshort] at hloop
  have hexec := exec_encode_of_error hv hapart (encodeRun_of_loop_error hloop (by simp)) (by simp)
  exact ⟨_, hexec, rfl, hstored.bits⟩

/-- Padding of an empty payload that does not fit (R177, R179). -/
theorem exec_encode_of_pad_overflow (hread : s.srcReadable = s.srcLen.toNat)
    (hcoded : allCoded s.code s.sourceBytes = true) (hnil : payload s.code s.sourceBytes = [])
    (hpos : s.outBitpos.toNat % 8 ≠ 0) (hfull : 8 * s.dstWritable ≤ s.outBitpos.toNat) :
    exec .encode s = .next (s.ended 0x06#8 .ioBounds 0 s.srcLen.toNat) := by
  have hall : s.sourceBytes.take s.srcLen.toNat = s.sourceBytes :=
    List.take_of_length_le (by simp)
  obtain ⟨e, hloop, -, hstored⟩ := exists_encodeLoop_start hapart (i := s.srcLen.toNat) hread.ge
    (bits := []) (by rwa [hall]) (by rwa [hall]) (Nat.zero_le _)
  obtain rfl := hstored.unchanged rfl
  rw [Nat.sub_self] at hloop
  have hpad := padLoop_of_full (n := 6) (r := s.encodeAt s.engine 0 s.srcLen.toNat) hpos hfull
  exact exec_encode_of_error hv hapart ((encodeRun_of_loop_ok hloop rfl).trans hpad) (by simp)

end

/-- Settles O36: a bit of a Code, a byte of the source or a bit of the padding is out of bounds. -/
theorem encodeStopsAtTheBounds : Obligations.EncodeStopsAtTheBounds := by
  unfold Obligations.EncodeStopsAtTheBounds
  intro s hv hapart
  exact ⟨fun i => exec_encode_of_overflow hv hapart, exec_encode_of_unreadable hv hapart,
    exec_encode_of_pad_overflow hv hapart⟩

end Sys2Proof.Machine

/-! PROOF. DECODE (43_stream_codec.md R180 to R185): the symbols of a list of bits, the bits read
one after another, and the ways the loop ends. -/

namespace Sys2Proof.Machine

/-! ### The first symbol of a list of bits -/

theorem read_codeOfPath_of_unmatchable (d : DecodeMap) {path : List Bool}
    (h : path.length = 0 ∨ 8 < path.length) : d.read (codeOfPath path) = none := by
  refine Option.eq_none_iff_forall_ne_some.2 fun v hv => ?_
  obtain ⟨hpos, hle, -⟩ := (Code.matchable_iff _).1 (DecodeMap.matchable_of_read hv)
  rw [codeOfPath_len] at hpos hle
  omega

/-- What the search of `symbolAt` tests at length `n`. -/
def symbolTest (d : DecodeMap) (bits : List Bool) (n : Nat) : Option (Nat × Byte) :=
  if n ≤ bits.length then (d.read (codeOfPath (bits.take n))).map (fun v => (n, v)) else none

theorem symbolAt_eq_findSome? (d : DecodeMap) (bits : List Bool) :
    symbolAt d bits = (List.range' 1 8).findSome? (symbolTest d bits) := rfl

theorem symbolTest_eq_some_iff {d : DecodeMap} {bits : List Bool} {n m : Nat} {v : Byte} :
    symbolTest d bits m = some (n, v) ↔
      m = n ∧ n ≤ bits.length ∧ d.read (codeOfPath (bits.take n)) = some v := by
  unfold symbolTest
  split
  · next hle =>
    simp only [Option.map_eq_some_iff, Prod.mk.injEq]
    constructor
    · rintro ⟨_, hread, rfl, rfl⟩
      exact ⟨rfl, hle, hread⟩
    · rintro ⟨rfl, -, hread⟩
      exact ⟨v, hread, rfl, rfl⟩
  · next hlong =>
    refine ⟨nofun, ?_⟩
    rintro ⟨rfl, hle, -⟩
    exact absurd hle hlong

theorem symbolTest_eq_none_iff {d : DecodeMap} {bits : List Bool} {n : Nat} :
    symbolTest d bits n = none ↔ (n ≤ bits.length → d.read (codeOfPath (bits.take n)) = none) := by
  simp [symbolTest]

/-- Nothing matches: no first bits are in DMAP, however many (R183). -/
theorem symbolAt_eq_none_iff {d : DecodeMap} {bits : List Bool} :
    symbolAt d bits = none ↔ ∀ n ≤ bits.length, d.read (codeOfPath (bits.take n)) = none := by
  rw [symbolAt_eq_findSome?, List.findSome?_eq_none_iff]
  simp only [symbolTest_eq_none_iff, List.mem_range'_1]
  refine ⟨fun h n hn => ?_, fun h n _ hn => h n hn⟩
  by_cases hlen : 1 ≤ n ∧ n < 1 + 8
  · exact h n hlen hn
  · refine read_codeOfPath_of_unmatchable d ?_
    rw [List.length_take_of_le hn]
    omega

/-- The first symbol is the shortest start of the bits that is in DMAP (R183). -/
theorem symbolAt_eq_some_iff {d : DecodeMap} {bits : List Bool} {n : Nat} {v : Byte} :
    symbolAt d bits = some (n, v) ↔ n ≤ bits.length ∧ d.read (codeOfPath (bits.take n)) = some v ∧
      ∀ j < n, d.read (codeOfPath (bits.take j)) = none := by
  rw [symbolAt_eq_findSome?]
  constructor
  · intro h
    obtain ⟨before, m, after, hsplit, htest, hbefore⟩ := List.findSome?_eq_some_iff.1 h
    obtain ⟨rfl, hle, hread⟩ := symbolTest_eq_some_iff.1 htest
    refine ⟨hle, hread, fun j hj => ?_⟩
    have horder := List.pairwise_lt_range' (s := 1) (n := 8) (step := 1)
    have hmem := List.mem_range'_1 (m := j) (s := 1) (n := 8)
    have hlast := List.mem_range'_1 (m := m) (s := 1) (n := 8)
    rw [hsplit] at horder hmem hlast
    obtain ⟨-, hafter, -⟩ := List.pairwise_append.1 horder
    by_cases hj0 : j = 0
    · exact read_codeOfPath_of_unmatchable d (.inl (by simp [hj0]))
    · have hm := hlast.1 (by simp)
      rcases List.mem_append.1 (hmem.2 (by omega)) with hj' | hj'
      · exact symbolTest_eq_none_iff.1 (hbefore j hj') (by omega)
      · obtain rfl | hj' := List.mem_cons.1 hj'
        · omega
        · have := (List.pairwise_cons.1 hafter).1 j hj'
          omega
  · rintro ⟨hle, hread, hshorter⟩
    have hcode := (Code.matchable_iff _).1 (DecodeMap.matchable_of_read hread)
    rw [codeOfPath_len, List.length_take_of_le hle] at hcode
    obtain ⟨hpos, hlen, -⟩ := hcode
    have hsplit : List.range' 1 8 = List.range' 1 (n - 1) ++ n :: List.range' (n + 1) (8 - n) := by
      rw [← List.range'_succ, show 8 = n - 1 + (8 - n + 1) by omega, ← List.range'_append_1]
      congr 2 <;> omega
    have hbefore : (List.range' 1 (n - 1)).findSome? (symbolTest d bits) = none := by
      refine List.findSome?_eq_none_iff.2 fun j hj => symbolTest_eq_none_iff.2 fun _ => ?_
      rw [List.mem_range'_1] at hj
      exact hshorter j (by omega)
    rw [hsplit, List.findSome?_append, hbefore, Option.none_or, List.findSome?_cons,
      symbolTest_eq_some_iff.2 ⟨rfl, hle, hread⟩]

/-! ### The first symbols of a list of bits -/

theorem takeSymbols_succ_eq_some_iff {d : DecodeMap} {n : Nat} {bits : List Bool} {out : List Byte}
    {used : Nat} : takeSymbols d (n + 1) bits = some (out, used) ↔
      ∃ len v vs rest, symbolAt d bits = some (len, v) ∧
        takeSymbols d n (bits.drop len) = some (vs, rest) ∧ out = v :: vs ∧ used = len + rest := by
  constructor
  · intro h
    rw [takeSymbols] at h
    split at h
    · cases h
    · next len v hsym =>
      split at h
      · cases h
      · next vs rest hrest =>
        cases h
        exact ⟨len, v, vs, rest, hsym, hrest, rfl, rfl⟩
  · rintro ⟨len, v, vs, rest, hsym, hrest, rfl, rfl⟩
    simp only [takeSymbols, hsym, hrest]

/-- `n` symbols are `n` bytes, and take no more bits than there are. -/
theorem length_of_takeSymbols {d : DecodeMap} {n : Nat} {bits : List Bool} {out : List Byte}
    {used : Nat} (h : takeSymbols d n bits = some (out, used)) :
    out.length = n ∧ used ≤ bits.length := by
  induction n generalizing bits out used with
  | zero =>
    cases h
    exact ⟨rfl, Nat.zero_le _⟩
  | succ n ih =>
    obtain ⟨len, v, vs, rest, hsym, hrest, rfl, rfl⟩ := takeSymbols_succ_eq_some_iff.1 h
    obtain ⟨hle, -⟩ := symbolAt_eq_some_iff.1 hsym
    obtain ⟨hlen, hused⟩ := ih hrest
    rw [List.length_drop] at hused
    exact ⟨congrArg (· + 1) hlen, by omega⟩

/-- The last of `n + 1` symbols is the first of the bits after the `n` before it. -/
theorem exists_last_of_takeSymbols {d : DecodeMap} {n : Nat} {bits : List Bool} {out : List Byte}
    {used : Nat} (h : takeSymbols d (n + 1) bits = some (out, used)) :
    ∃ vs front len v, takeSymbols d n bits = some (vs, front) ∧
      symbolAt d (bits.drop front) = some (len, v) ∧ out = vs ++ [v] ∧ used = front + len := by
  induction n generalizing bits out used with
  | zero =>
    obtain ⟨len, v, vs, rest, hsym, hnone, rfl, rfl⟩ := takeSymbols_succ_eq_some_iff.1 h
    cases hnone
    exact ⟨[], 0, len, v, rfl, hsym, rfl, Nat.add_comm _ _⟩
  | succ n ih =>
    obtain ⟨len, v, vs, rest, hsym, hrest, rfl, rfl⟩ := takeSymbols_succ_eq_some_iff.1 h
    obtain ⟨ws, front, len', w, hfront, hlast, rfl, rfl⟩ := ih hrest
    rw [List.drop_drop] at hlast
    exact ⟨v :: ws, len + front, len', w,
      takeSymbols_succ_eq_some_iff.2 ⟨len, v, ws, front, hsym, hfront, rfl, rfl⟩, hlast, rfl,
      (Nat.add_assoc ..).symm⟩

/-! ### One bit -/

section
variable {s : State} {r : DecodeRun} {b : Bool}

theorem decodeBit_p (s : State) (b : Bool) (r : DecodeRun) : (decodeBit s b r).p = r.p + 1 := by
  unfold decodeBit
  dsimp only
  split
  · split <;> rfl
  · split <;> rfl

/-- A bit after which the accumulator matches: its byte is output (R182). -/
theorem decodeBit_of_match {v : Byte} {e : Engine} (h : s.dmap.read (r.acc.append b) = some v)
    (hd : dstByte s r.eng r.k v = .ok e) : decodeBit s b r =
      { r with eng := e, p := r.p + 1, k := r.k + 1, acc := Code.empty } := by
  simp only [decodeBit, h, hd]

/-- A match whose byte does not fit. -/
theorem decodeBit_of_full {v : Byte} {x : ErrCode} (h : s.dmap.read (r.acc.append b) = some v)
    (hd : dstByte s r.eng r.k v = .error x) : decodeBit s b r =
      { r with p := r.p + 1, acc := r.acc.append b, err := x } := by
  simp only [decodeBit, h, hd]

/-- A bit after which nothing matches. -/
theorem decodeBit_of_none (h : s.dmap.read (r.acc.append b) = none) (hlen : r.acc.len + 1 ≠ 8) :
    decodeBit s b r = { r with p := r.p + 1, acc := r.acc.append b } := by
  simp only [decodeBit, h]
  exact if_neg hlen

/-- The eighth bit that matches nothing (R185). -/
theorem decodeBit_of_overlong (h : s.dmap.read (r.acc.append b) = none)
    (hlen : r.acc.len + 1 = 8) : decodeBit s b r =
      { r with p := r.p + 1, acc := r.acc.append b, err := .decodeOverlong } := by
  simp only [decodeBit, h]
  exact if_pos hlen

end

/-! ### A list of bits -/

/-- The run after the bits of a list, up to the first error. -/
def decodeBits (s : State) : List Bool → DecodeRun → DecodeRun
  | [], r => r
  | b :: bs, r =>
    if (decodeBit s b r).err = .none then decodeBits s bs (decodeBit s b r) else decodeBit s b r

theorem decodeBits_reached {s : State} {r : DecodeRun} (bs : List Bool) (h : r.eng.ReachedFrom s) :
    (decodeBits s bs r).eng.ReachedFrom s := by
  induction bs generalizing r with
  | nil => exact h
  | cons b bs ih =>
    rw [decodeBits]
    split
    · exact ih (decodeBit_reached s b r h)
    · exact decodeBit_reached s b r h

theorem decodeBits_append_of_ok {s : State} {bs : List Bool} {r : DecodeRun}
    (h : (decodeBits s bs r).err = .none) (cs : List Bool) :
    decodeBits s (bs ++ cs) r = decodeBits s cs (decodeBits s bs r) := by
  induction bs generalizing r with
  | nil => rfl
  | cons b bs ih =>
    rw [decodeBits] at h
    rw [List.cons_append, decodeBits, decodeBits]
    split at h
    · next hbit =>
      rw [if_pos hbit, if_pos hbit]
      exact ih h
    · next hbit => exact absurd h hbit

/-- Bits after which the accumulator never matches and stays short of 8 bits are collected in it. -/
theorem decodeBits_of_unmatched {s : State} {path more : List Bool} {r : DecodeRun}
    (hacc : r.acc = codeOfPath path) (hok : r.err = .none)
    (hnone : ∀ n ≤ more.length, s.dmap.read (codeOfPath (path ++ more.take n)) = none)
    (hlen : path.length + more.length < 8) : decodeBits s more r =
      { r with p := r.p + more.length, acc := codeOfPath (path ++ more) } := by
  induction more generalizing path r with
  | nil => simp [decodeBits, ← hacc]
  | cons b more ih =>
    rw [List.length_cons] at hnone hlen
    have happend : r.acc.append b = codeOfPath (path ++ [b]) := by rw [hacc, codeOfPath_concat]
    have hfirst := decodeBit_of_none (r := r) (b := b) (s := s)
      (by rw [happend]; exact hnone 1 (by omega)) (by rw [hacc, codeOfPath_len]; omega)
    rw [happend] at hfirst
    have hrest := ih (path := path ++ [b])
      (r := { r with p := r.p + 1, acc := codeOfPath (path ++ [b]) }) rfl hok (fun n hn => ?_)
      (by rw [List.length_append, List.length_singleton]; omega)
    · rw [decodeBits, hfirst, if_pos hok, hrest]
      simp only [List.append_assoc, List.singleton_append, List.length_cons, Nat.add_assoc,
        Nat.add_comm 1]
    · rw [List.append_assoc, List.singleton_append, ← List.take_succ_cons]
      exact hnone (n + 1) (by omega)

/-- A run between two symbols: the accumulator is empty. -/
def DecodeRun.between (e : Engine) (p k : Nat) : DecodeRun :=
  { eng := e, p := p, k := k, acc := Code.empty, err := .none }

section
variable {s : State} {bits : List Bool} (e : Engine) (p k : Nat)

/-- Fewer than 8 bits that match nothing stay in the accumulator (R184). -/
theorem decodeBits_of_trailing (hsym : symbolAt s.dmap bits = none) (hlen : bits.length < 8) :
    decodeBits s bits (.between e p k) =
      { eng := e, p := p + bits.length, k := k, acc := codeOfPath bits, err := .none } :=
  decodeBits_of_unmatched (path := []) rfl rfl (symbolAt_eq_none_iff.1 hsym)
    (by rwa [List.length_nil, Nat.zero_add])

/-- Where the first `n` bits match nothing, one more bit decides. -/
theorem decodeBits_take_succ {n : Nat} (hn : n < bits.length) (h8 : n < 8)
    (hnone : ∀ j ≤ n, s.dmap.read (codeOfPath (bits.take j)) = none) :
    decodeBits s (bits.take (n + 1)) (.between e p k) = decodeBit s bits[n]
      { eng := e, p := p + n, k := k, acc := codeOfPath (bits.take n), err := .none } := by
  have hlen : (bits.take n).length = n := List.length_take_of_le hn.le
  have hfront : symbolAt s.dmap (bits.take n) = none := symbolAt_eq_none_iff.2 fun j hj => by
    rw [hlen] at hj
    rw [List.take_take, Nat.min_eq_left hj]
    exact hnone j hj
  have htrail := decodeBits_of_trailing e p k hfront (hlen.trans_lt h8)
  rw [hlen] at htrail
  rw [List.take_succ_eq_append_getElem hn, decodeBits_append_of_ok (by rw [htrail]), htrail,
    decodeBits, decodeBits, ite_self]

/-- Eight bits that match nothing (R185). -/
theorem decodeBits_of_overlong (hsym : symbolAt s.dmap bits = none) (hlen : 8 ≤ bits.length) :
    decodeBits s (bits.take 8) (.between e p k) =
      { eng := e, p := p + 8, k := k, acc := codeOfPath (bits.take 8)
        err := .decodeOverlong } := by
  have hnone := symbolAt_eq_none_iff.1 hsym
  have happend : (codeOfPath (bits.take 7)).append bits[7] = codeOfPath (bits.take 8) := by
    rw [← codeOfPath_concat, ← List.take_succ_eq_append_getElem]
  rw [decodeBits_take_succ e p k (n := 7) (by omega) (by omega) (fun j hj => hnone j (by omega)),
    decodeBit_of_overlong, happend]
  · rw [happend]
    exact hnone 8 hlen
  · rw [codeOfPath_len, List.length_take_of_le (by omega)]

section
variable {len : Nat} {v : Byte} (hsym : symbolAt s.dmap bits = some (len, v))
include hsym

/-- The bits of a first symbol are undecided up to its last one, which makes the match. -/
theorem exists_last_bit_of_symbol : ∃ n b, len = n + 1 ∧
    s.dmap.read ((codeOfPath (bits.take n)).append b) = some v ∧
    (codeOfPath (bits.take n)).append b = codeOfPath (bits.take len) ∧
    decodeBits s (bits.take len) (.between e p k) = decodeBit s b
      { eng := e, p := p + n, k := k, acc := codeOfPath (bits.take n), err := .none } := by
  obtain ⟨hle, hread, hshorter⟩ := symbolAt_eq_some_iff.1 hsym
  obtain ⟨hpos, h8, -⟩ := (Code.matchable_iff _).1 (DecodeMap.matchable_of_read hread)
  rw [codeOfPath_len, List.length_take_of_le hle] at hpos h8
  obtain ⟨n, rfl⟩ : ∃ n, len = n + 1 := ⟨len - 1, by omega⟩
  have happend : (codeOfPath (bits.take n)).append bits[n] = codeOfPath (bits.take (n + 1)) := by
    rw [← codeOfPath_concat, ← List.take_succ_eq_append_getElem]
  exact ⟨n, bits[n], rfl, happend ▸ hread, happend,
    decodeBits_take_succ e p k hle h8 fun j hj => hshorter j (by omega)⟩

/-- The bits of a first symbol output its byte, where that fits. -/
theorem exists_decodeBits_of_symbol (hk : k < s.dstWritable) :
    ∃ e', dstByte s e k v = .ok e' ∧
      decodeBits s (bits.take len) (.between e p k) = .between e' (p + len) (k + 1) := by
  obtain ⟨n, b, rfl, hread, -, hbits⟩ := exists_last_bit_of_symbol e p k hsym
  have hroom := s.lt_dstWritable_iff k
  rcases dstByte_cases s e k v with ⟨hout, -⟩ | ⟨-, -, hd⟩
  · omega
  · exact ⟨_, hd, hbits.trans (decodeBit_of_match hread hd)⟩

/-- The bits of a first symbol end with IO_BOUNDS where its byte does not fit. -/
theorem decodeBits_of_full (hk : s.dstWritable ≤ k) :
    decodeBits s (bits.take len) (.between e p k) =
      { eng := e, p := p + len, k := k, acc := codeOfPath (bits.take len), err := .ioBounds } := by
  obtain ⟨n, b, rfl, hread, happend, hbits⟩ := exists_last_bit_of_symbol e p k hsym
  have hroom := s.lt_dstWritable_iff k
  rcases dstByte_cases s e k v with ⟨-, hd⟩ | ⟨_, _, -⟩
  · rw [hbits, ← happend]
    exact decodeBit_of_full hread hd
  · omega

end

end

/-- The bits of `n` symbols output their bytes, where these fit (R182). -/
theorem exists_decodeBits_of_symbols {s : State} {n : Nat} {bits : List Bool} {out : List Byte}
    {used : Nat} (h : takeSymbols s.dmap n bits = some (out, used)) (e : Engine) (p : Nat) {k : Nat}
    (hfit : k + n ≤ s.dstWritable) :
    ∃ e', decodeBits s (bits.take used) (.between e p k) = .between e' (p + used) (k + n) ∧
      e.mem.storesBytes e'.mem (s.dstAddr.toNat + k) out := by
  induction n generalizing bits out used e p k with
  | zero =>
    cases h
    exact ⟨e, rfl, e.mem.storesBytes_nil _⟩
  | succ n ih =>
    obtain ⟨len, v, vs, rest, hsym, hrest, rfl, rfl⟩ := takeSymbols_succ_eq_some_iff.1 h
    obtain ⟨e', hd, hfirst⟩ := exists_decodeBits_of_symbol e p k hsym (by omega)
    obtain ⟨e'', hmore, hstores⟩ := ih hrest e' (p + len) (k := k + 1) (by omega)
    refine ⟨e'', ?_, ?_⟩
    · rw [List.take_add, decodeBits_append_of_ok (by rw [hfirst]; rfl), hfirst, hmore,
        Nat.add_assoc, Nat.add_assoc, Nat.add_comm 1]
    · rcases dstByte_cases s e k v with ⟨_, hfull⟩ | ⟨_, _, hwrite⟩
      · cases hfull.symm.trans hd
      · cases hwrite.symm.trans hd
        exact Memory.storesBytes_cons hstores

/-! ### The bits of the source -/

theorem State.srcBits_of_le {s : State} {p stop : Nat} (h : stop ≤ p) : s.srcBits p stop = [] := by
  rw [State.srcBits, Nat.sub_eq_zero_of_le h]
  rfl

theorem State.srcBits_of_lt {s : State} {p stop : Nat} (h : p < stop) :
    s.srcBits p stop = s.srcBitAt p :: s.srcBits (p + 1) stop := by
  obtain ⟨n, hn⟩ : ∃ n, stop - p = n + 1 := Nat.exists_eq_add_one_of_ne_zero (by omega)
  have hn' : stop - (p + 1) = n := by omega
  simp [State.srcBits, hn, hn', List.range_succ_eq_map, Function.comp_def, Nat.add_assoc,
    Nat.add_comm 1]

@[simp] theorem State.length_srcBits (s : State) (p stop : Nat) :
    (s.srcBits p stop).length = stop - p := by
  simp [State.srcBits]

theorem State.take_srcBits {s : State} {p stop n : Nat} (h : n ≤ stop - p) :
    (s.srcBits p stop).take n = s.srcBits p (p + n) := by
  rw [State.srcBits, ← List.map_take, List.take_range, State.srcBits]
  congr 2
  omega

theorem srcBit_of_reached {s : State} {e : Engine} (h : e.ReachedFrom s)
    (hapart : ¬ s.regionsMeet) (p : Nat) : srcBit s e p = srcBit s s.engine p := by
  rw [srcBit, srcBit, srcByte_of_reached h hapart]

/-! ### DECODE's loop -/

/-- While its bits can be read, DECODE's loop decodes them one after another, up to an error. -/
theorem decodeLoop_add {s : State} (hapart : ¬ s.regionsMeet) {c : Nat} (m : Nat) {r : DecodeRun}
    (hr : r.eng.ReachedFrom s) (hok : r.err = .none) (hread : c = 0 ∨ r.p + c ≤ 8 * s.srcReadable) :
    decodeLoop s (m + c) r =
      if (decodeBits s (s.srcBits r.p (r.p + c)) r).err = .none
      then decodeLoop s m (decodeBits s (s.srcBits r.p (r.p + c)) r)
      else decodeBits s (s.srcBits r.p (r.p + c)) r := by
  induction c generalizing r with
  | zero => rw [Nat.add_zero, Nat.add_zero, State.srcBits_of_le le_rfl, decodeBits, if_pos hok]
  | succ c ih =>
    have hp := decodeBit_p s (s.srcBitAt r.p) r
    rw [State.srcBits_of_lt (by omega), decodeBits, ← Nat.add_assoc, decodeLoop,
      srcBit_of_reached hr hapart, srcBit_of_readable (by omega)]
    dsimp only
    by_cases hbit : (decodeBit s (s.srcBitAt r.p) r).err = .none
    · rw [if_pos hbit, if_pos hbit, ih (decodeBit_reached s _ r hr) hbit (by omega), hp,
        Nat.add_assoc, Nat.add_comm 1]
    · rw [if_neg hbit, if_neg hbit, if_neg hbit]

theorem decodeLoop_succ_of_unreadable {s : State} (hapart : ¬ s.regionsMeet) (n : Nat)
    {r : DecodeRun} (hr : r.eng.ReachedFrom s) (hp : 8 * s.srcReadable ≤ r.p)
    (hlen : r.p < 8 * s.srcLen.toNat) : decodeLoop s (n + 1) r = { r with err := .ioBounds } := by
  rw [decodeLoop, srcBit_of_reached hr hapart, srcBit, srcByte_engine_eq, if_neg (by omega),
    if_neg (by omega)]

/-! ### The command's end -/

/-- The end of DECODE's input bit stream (R181). -/
theorem decodeRun_eq (s : State) : decodeRun s =
    decodeLoop s (s.decodeLimit - s.inBitpos.toNat) (.between s.engine s.inBitpos.toNat 0) := rfl

section
variable {s : State} (hapart : ¬ s.regionsMeet)
include hapart

/-- DECODE's loop over the first `c` of its bits, as long as they can be read. -/
theorem decodeRun_add {c : Nat} (hc : c ≤ s.decodeLimit - s.inBitpos.toNat)
    (hread : c = 0 ∨ s.inBitpos.toNat + c ≤ 8 * s.srcReadable) {r : DecodeRun}
    (hbits : decodeBits s ((s.srcBits s.inBitpos.toNat s.decodeLimit).take c)
      (.between s.engine s.inBitpos.toNat 0) = r) :
    decodeRun s = if r.err = .none
      then decodeLoop s (s.decodeLimit - s.inBitpos.toNat - c) r else r := by
  rw [State.take_srcBits hc] at hbits
  have hloop := decodeLoop_add hapart (s.decodeLimit - s.inBitpos.toNat - c)
    (r := .between s.engine s.inBitpos.toNat 0) s.engine_reached rfl hread
  rw [Nat.sub_add_cancel hc, ← decodeRun_eq] at hloop
  subst hbits
  exact hloop

/-- An error in bits that can be read ends the loop. -/
theorem decodeRun_of_error {c : Nat} (hc : c ≤ s.decodeLimit - s.inBitpos.toNat)
    (hread : c = 0 ∨ s.inBitpos.toNat + c ≤ 8 * s.srcReadable) {r : DecodeRun}
    (hbits : decodeBits s ((s.srcBits s.inBitpos.toNat s.decodeLimit).take c)
      (.between s.engine s.inBitpos.toNat 0) = r) (herr : r.err ≠ .none) : decodeRun s = r := by
  rw [decodeRun_add hapart hc hread hbits, if_neg herr]

/-- Without an error the loop ends with its last bit, if all of them can be read. -/
theorem decodeRun_of_ok
    (hread : s.decodeLimit ≤ s.inBitpos.toNat ∨ s.decodeLimit ≤ 8 * s.srcReadable) {r : DecodeRun}
    (hbits : decodeBits s (s.srcBits s.inBitpos.toNat s.decodeLimit)
      (.between s.engine s.inBitpos.toNat 0) = r) (hok : r.err = .none) : decodeRun s = r := by
  rw [decodeRun_add hapart le_rfl (by omega) (r := r), if_pos hok, Nat.sub_self]
  · rfl
  · rwa [List.take_of_length_le (by simp)]

/-- Without an error before it, the first bit outside M ends the loop. -/
theorem decodeRun_of_unreadable {c : Nat} (hc : c < s.decodeLimit - s.inBitpos.toNat)
    (hread : c = 0 ∨ s.inBitpos.toNat + c ≤ 8 * s.srcReadable) {r : DecodeRun}
    (hbits : decodeBits s ((s.srcBits s.inBitpos.toNat s.decodeLimit).take c)
      (.between s.engine s.inBitpos.toNat 0) = r) (hok : r.err = .none)
    (hp : 8 * s.srcReadable ≤ r.p) (hlen : r.p < 8 * s.srcLen.toNat) :
    decodeRun s = { r with err := .ioBounds } := by
  obtain ⟨n, hn⟩ : ∃ n, s.decodeLimit - s.inBitpos.toNat - c = n + 1 :=
    Nat.exists_eq_add_one_of_ne_zero (by omega)
  have hreached := decodeBits_reached ((s.srcBits s.inBitpos.toNat s.decodeLimit).take c)
    (r := .between s.engine s.inBitpos.toNat 0) s.engine_reached
  rw [hbits] at hreached
  rw [decodeRun_add hapart hc.le hread hbits, if_pos hok, hn,
    decodeLoop_succ_of_unreadable hapart n hreached hp hlen]

end

section
variable {s : State} (hl : s.dictLoaded = true) (hapart : ¬ s.regionsMeet)
include hl hapart

/-- DECODE without an error in its loop (R182). -/
theorem exec_decode_of_ok {r : DecodeRun} (hrun : decodeRun s = r) (hok : r.err = .none) :
    exec .decode s = .next
      (({ s with mem := r.eng.mem, inBitpos := BitVec.ofNat 32 r.p } : State).ended
        0x07#8 .none r.k r.acc.len) := by
  simp [exec, execDecode, hl, State.overlap_eq_false hapart, hrun, hok, Instr.opcode,
    State.finish_eq_ended]

/-- DECODE with an error in its loop: IN_BITPOS is kept (R182). -/
theorem exec_decode_of_error {r : DecodeRun} (hrun : decodeRun s = r) (herr : r.err ≠ .none) :
    exec .decode s = .next (({ s with mem := r.eng.mem } : State).ended 0x07#8 r.err r.k r.p) := by
  simp [exec, execDecode, hl, State.overlap_eq_false hapart, hrun, herr, Instr.opcode,
    State.raise_eq_ended]

end

/-- The first `n` symbols of a list of bits, and then the bits after them. -/
theorem exists_decodeBits_of_symbols_append {s : State} {n : Nat} {bits : List Bool}
    {out : List Byte} {used : Nat} (h : takeSymbols s.dmap n bits = some (out, used)) (e : Engine)
    (p : Nat) (hfit : n ≤ s.dstWritable) : ∃ e', e.mem.storesBytes e'.mem s.dstAddr.toNat out ∧
      ∀ more, decodeBits s (bits.take used ++ more) (.between e p 0) =
        decodeBits s more (.between e' (p + used) n) := by
  obtain ⟨e', hbits, hstores⟩ := exists_decodeBits_of_symbols h e p (k := 0) (by omega)
  refine ⟨e', hstores, fun more => ?_⟩
  rw [decodeBits_append_of_ok (by rw [hbits]; rfl), hbits, Nat.zero_add]

/-- Settles O37: all the bits are decoded; those after the symbols stay in the accumulator. -/
theorem decodeOutputsTheSymbols : Obligations.DecodeOutputsTheSymbols := by
  unfold Obligations.DecodeOutputsTheSymbols
  intro s n used out hl hapart p limit bits hread htake hsym hshort hfit
  obtain ⟨-, hused⟩ := length_of_takeSymbols htake
  have hlen : bits.length = limit - p := s.length_srcBits p limit
  obtain ⟨e, hstores, hbits⟩ := exists_decodeBits_of_symbols_append htake s.engine p hfit
  have hall := hbits (bits.drop used)
  rw [List.take_append_drop, decodeBits_of_trailing _ _ _ hsym hshort] at hall
  have hexec := exec_decode_of_ok hl hapart (decodeRun_of_ok hapart hread hall rfl) rfl
  have hp : p + used + (bits.drop used).length = max p limit := by
    rw [List.length_drop]
    omega
  rw [codeOfPath_len, List.length_drop] at hexec
  rw [List.length_drop] at hp
  simp only [hp] at hexec
  exact ⟨_, hexec, rfl, hstores s.powerOn⟩

/-- Settles O38: the symbols are decoded, and then the eight bits after them. -/
theorem decodeStopsOverlong : Obligations.DecodeStopsOverlong := by
  unfold Obligations.DecodeStopsOverlong
  intro s n used out hl hapart p bits htake hsym hlong hread hfit
  have hlen : bits.length = s.decodeLimit - p := s.length_srcBits p _
  rw [List.length_drop] at hlong
  obtain ⟨e, hstores, hbits⟩ := exists_decodeBits_of_symbols_append htake s.engine p hfit
  have hall := hbits ((bits.drop used).take 8)
  rw [← List.take_add, decodeBits_of_overlong _ _ _ hsym (by rwa [List.length_drop])] at hall
  have hrun := decodeRun_of_error hapart (c := used + 8) (by show _ ≤ s.decodeLimit - p; omega)
    (.inr (by show p + _ ≤ _; omega)) hall (by simp)
  exact ⟨_, exec_decode_of_error hl hapart hrun (by simp), rfl, hstores s.powerOn⟩

section
variable {s : State} {n used : Nat} {out : List Byte} (hl : s.dictLoaded = true)
  (hapart : ¬ s.regionsMeet)
include hl hapart

/-- DECODE ends with IO_BOUNDS after the bits of a symbol whose byte does not fit (R182). -/
theorem exec_decode_of_full
    (htake : takeSymbols s.dmap (n + 1) (s.srcBits s.inBitpos.toNat s.decodeLimit) =
      some (out, used))
    (hread : s.inBitpos.toNat + used ≤ 8 * s.srcReadable) (hfull : n = s.dstWritable) :
    ∃ t, exec .decode s = .next t ∧
      t = ({ s with mem := t.mem } : State).ended 0x07#8 .ioBounds n (s.inBitpos.toNat + used) ∧
      s.storesBytes t s.dstAddr.toNat (out.take n) := by
  have hlen := s.length_srcBits s.inBitpos.toNat s.decodeLimit
  generalize hall : s.srcBits s.inBitpos.toNat s.decodeLimit = bits at htake hlen
  obtain ⟨-, hused⟩ := length_of_takeSymbols htake
  obtain ⟨vs, front, len, v, hfront, hsym, rfl, rfl⟩ := exists_last_of_takeSymbols htake
  obtain ⟨hvs, -⟩ := length_of_takeSymbols hfront
  obtain ⟨e, hstores, hbits⟩ :=
    exists_decodeBits_of_symbols_append hfront s.engine s.inBitpos.toNat hfull.le
  have hlast := hbits ((bits.drop front).take len)
  rw [← List.take_add, decodeBits_of_full _ _ _ hsym hfull.ge, ← hall] at hlast
  have hrun := decodeRun_of_error hapart (hlen ▸ hused) (.inr hread) hlast (by simp)
  have hexec := exec_decode_of_error hl hapart hrun (by simp)
  rw [Nat.add_assoc] at hexec
  refine ⟨_, hexec, rfl, ?_⟩
  rw [List.take_append_of_le_length hvs.ge, List.take_of_length_le hvs.le]
  exact hstores s.powerOn

/-- DECODE ends with IO_BOUNDS at the first bit outside M (R182). -/
theorem exec_decode_of_unreadable (hp : s.inBitpos.toNat < s.decodeLimit)
    (hshort : 8 * s.srcReadable < s.decodeLimit)
    (htake : takeSymbols s.dmap n (s.srcBits s.inBitpos.toNat (8 * s.srcReadable)) =
      some (out, used))
    (hsym : symbolAt s.dmap ((s.srcBits s.inBitpos.toNat (8 * s.srcReadable)).drop used) = none)
    (htrail : ((s.srcBits s.inBitpos.toNat (8 * s.srcReadable)).drop used).length < 8)
    (hfit : n ≤ s.dstWritable) :
    ∃ t, exec .decode s = .next t ∧
      t = ({ s with mem := t.mem } : State).ended 0x07#8 .ioBounds n
        (max s.inBitpos.toNat (8 * s.srcReadable)) ∧
      s.storesBytes t s.dstAddr.toNat out := by
  have hlimit : s.decodeLimit ≤ 8 * s.srcLen.toNat := Nat.min_le_right _ _
  have hlen := s.length_srcBits s.inBitpos.toNat (8 * s.srcReadable)
  have hall : (s.srcBits s.inBitpos.toNat s.decodeLimit).take
      (8 * s.srcReadable - s.inBitpos.toNat) = s.srcBits s.inBitpos.toNat (8 * s.srcReadable) := by
    rw [State.take_srcBits (by omega), ← State.take_srcBits le_rfl,
      List.take_of_length_le hlen.le]
  generalize s.srcBits s.inBitpos.toNat (8 * s.srcReadable) = bits at htake hsym htrail hlen hall
  obtain ⟨-, hused⟩ := length_of_takeSymbols htake
  obtain ⟨e, hstores, hbits⟩ :=
    exists_decodeBits_of_symbols_append htake s.engine s.inBitpos.toNat hfit
  have hfront := hbits (bits.drop used)
  have hend : s.inBitpos.toNat + used + (bits.drop used).length =
      max s.inBitpos.toNat (8 * s.srcReadable) := by
    rw [List.length_drop]
    omega
  rw [List.take_append_drop, decodeBits_of_trailing _ _ _ hsym htrail, hend, ← hall] at hfront
  have hrun := decodeRun_of_unreadable hapart (by omega) (by omega) hfront rfl
    (by simp only; omega) (by simp only; omega)
  exact ⟨_, exec_decode_of_error hl hapart hrun (by simp), rfl, hstores s.powerOn⟩

end

/-- Settles O39: an output byte or a source bit is out of bounds. -/
theorem decodeStopsAtTheBounds : Obligations.DecodeStopsAtTheBounds := by
  unfold Obligations.DecodeStopsAtTheBounds
  intro s n used out hl hapart
  exact ⟨exec_decode_of_full hl hapart, exec_decode_of_unreadable hl hapart⟩

end Sys2Proof.Machine

/-! PROOF. The round trip (43_stream_codec.md R186): Codes of which none begins another
are read back symbol by symbol, what a successful ENCODE has stored, and the blob that DICT_READ and
DECODE read. -/

namespace Sys2Proof.Machine

/-! ### Codes and paths -/

/-- A Code whose data fits its length is given by its bits. -/
theorem Code.eq_of_bits_eq {c d : Code} (hc : c.data.toNat < 2 ^ c.len)
    (hd : d.data.toNat < 2 ^ d.len) (h : c.bits = d.bits) : c = d := by
  have hlen : c.len = d.len := by
    have := congrArg List.length h
    rwa [Code.length_bits, Code.length_bits] at this
  have hdata : c.data = d.data := BitVec.eq_of_getLsbD_eq fun j hj => by
    by_cases hin : j < c.len
    · rw [Code.bits, Code.bits, ← hlen] at h
      exact List.map_inj_left.1 h j (List.mem_range.2 hin)
    · have htop {k : Code} (hk : k.data.toNat < 2 ^ k.len) (hle : k.len ≤ j) :
          k.data.getLsbD j = false :=
        Nat.testBit_lt_two_pow (hk.trans_le (Nat.pow_le_pow_right (by omega) hle))
      rw [htop hc (by omega), htop hd (by omega)]
  cases c
  cases d
  exact congrArg₂ Code.mk hlen hdata

theorem codeOfPath_bits {k : Code} (h : k.matchable = true) : codeOfPath k.bits = k := by
  obtain ⟨-, h8, hdata⟩ := (Code.matchable_iff k).1 h
  have hlen := k.length_bits
  exact Code.eq_of_bits_eq (codeOfPath_data_lt k.bits) hdata (bits_codeOfPath (by omega))

/-! ### Codes of which none begins another -/

/-- No byte value's Code begins another's (41_code_assigner.md R155). -/
def prefixFree (c : Table (Option Code)) : Prop :=
  ∀ b b' k k', c.read b = some k → c.read b' = some k' → k.bits <+: k'.bits → b = b'

theorem prefixFree_fill : prefixFree (Table.fill none) := by
  intro b b' k k' hk
  cases (Table.read_fill none b).symm.trans hk

theorem prefixFree_of_codesOfTree {t : CodeTree} {c : Table (Option Code)}
    (hnodup : (t.leaves.map Prod.fst).Nodup) (h : codesOfTree t = .ok c) : prefixFree c := by
  cases t with
  | leaf a w =>
    cases h
    have honly : ∀ b k, (trivialCodes a).read b = some k → b = a := by
      intro b k hk
      by_contra hne
      rw [read_trivialCodes, if_neg hne] at hk
      cases hk
    exact fun b b' k k' hk hk' _ => (honly b k hk).trans (honly b' k' hk').symm
  | node l r =>
    obtain hdeep | hshallow := Nat.lt_or_ge 8 (CodeTree.node l r).depth
    · obtain ⟨b, herr, -⟩ := codesOfTree_node_of_deep hnodup hdeep
      cases herr.symm.trans h
    · obtain ⟨c', hok, hread⟩ := codesOfTree_node_of_shallow hshallow
      cases hok.symm.trans h
      rintro b b' k k' hk hk' ⟨more, hmore⟩
      rw [hread] at hk hk'
      obtain ⟨-, hleads⟩ := CodeTree.data_lt_and_leadsTo_of_codeAt hnodup hshallow hk
      obtain ⟨-, hleads'⟩ := CodeTree.data_lt_and_leadsTo_of_codeAt hnodup hshallow hk'
      exact CodeTree.eq_of_leadsTo_append hleads (hmore ▸ hleads')

/-- An ASSIGN without error, on a tree whose leaves are distinct, gives matchable Codes of which
none begins another (41_code_assigner.md R155). -/
theorem prefixFree_of_assign {s t : State} (htree : ∀ tr, s.tree = .built tr → tr.wellFormed)
    (h : exec .assign s = .next t) (hok : t.error = .none) :
    allMatchable t.code ∧ prefixFree t.code := by
  rcases execAssign_cases s with ⟨_, hx⟩ | ⟨_, hx⟩ | ⟨tr, c, hbuilt, hc, hx⟩ | ⟨_, _, _, _, hx⟩ <;>
    obtain rfl := Host.Outcome.next.inj (hx.symm.trans h)
  · cases hok
  · exact ⟨allMatchable_fill, prefixFree_fill⟩
  · exact ⟨allMatchable_codesOfTree hc, prefixFree_of_codesOfTree (htree tr hbuilt).1 hc⟩
  · cases hok

section
variable {d : DecodeMap} {c : Table (Option Code)}
  (hinverse : ∀ k b, d.read k = some b ↔ c.read b = some k) (hmatchable : allMatchable c)
  (hprefix : prefixFree c)
include hinverse hmatchable hprefix

/-- A Code's own bits are the shortest match before any others (R183). -/
theorem symbolAt_bits_append {b : Byte} {k : Code} (hk : c.read b = some k) (rest : List Bool) :
    symbolAt d (k.bits ++ rest) = some (k.len, b) := by
  obtain ⟨-, h8, -⟩ := (Code.matchable_iff k).1 (hmatchable b k hk)
  have hlen := k.length_bits
  refine symbolAt_eq_some_iff.2 ⟨by simp, ?_, fun j hj => ?_⟩
  · rw [List.take_left' hlen, codeOfPath_bits (hmatchable b k hk), hinverse]
    exact hk
  · rw [List.take_append_of_le_length (by omega)]
    refine Option.eq_none_iff_forall_ne_some.2 fun b' hb' => ?_
    rw [hinverse] at hb'
    have hbits : (codeOfPath (k.bits.take j)).bits = k.bits.take j :=
      bits_codeOfPath (by rw [List.length_take_of_le (by omega)]; omega)
    obtain rfl := hprefix b' b _ k hb' hk (hbits.symm ▸ List.take_prefix j k.bits)
    have hsame := congrArg Code.len (Option.some.inj (hb'.symm.trans hk))
    rw [codeOfPath_len, List.length_take_of_le (by omega)] at hsame
    omega

/-- The payload of coded bytes is split into those bytes. -/
theorem takeSymbols_payload {bs : List Byte} (hcoded : allCoded c bs = true) :
    takeSymbols d bs.length (payload c bs) = some (bs, (payload c bs).length) := by
  induction bs with
  | nil => rfl
  | cons b bs ih =>
    obtain ⟨⟨k, hk⟩, hcoded⟩ := (allCoded_cons c b bs).1 hcoded
    rw [payload_cons hk]
    refine takeSymbols_succ_eq_some_iff.2 ⟨k.len, b, bs, (payload c bs).length,
      symbolAt_bits_append hinverse hmatchable hprefix hk _, ?_, rfl, by simp⟩
    rw [List.drop_left' k.length_bits]
    exact ih hcoded

end

/-! ### What a successful ENCODE has found -/

/-- A successful ENCODE passed its two checks (R177). -/
theorem checks_of_encode_ok {s e : State} (h : exec .encode s = .next e)
    (hok : e.error = .none) : s.codesValid = true ∧ ¬ s.regionsMeet := by
  rw [← overlapIsASharedAddress s, Bool.not_eq_true]
  rcases execEncode_cases s with ⟨_, hx⟩ | ⟨_, _, hx⟩ | ⟨hv, ho, _⟩ | ⟨hv, ho, _⟩
  · obtain rfl := Host.Outcome.next.inj (hx.symm.trans h)
    cases hok
  · obtain rfl := Host.Outcome.next.inj (hx.symm.trans h)
    cases hok
  · exact ⟨hv, ho⟩
  · exact ⟨hv, ho⟩

section
variable {s e : State} (h : exec .encode s = .next e) (hok : e.error = .none)
include h hok

/-- A command that ends with an error has not ended without one. -/
theorem false_of_encode_error {x : ErrCode} {r0 r1 : Nat} {P : State → Prop} (hx : x ≠ .none)
    (herr : ∃ t, exec .encode s = .next t ∧
      t = ({ s with mem := t.mem } : State).ended 0x06#8 x r0 r1 ∧ P t) : False := by
  obtain ⟨t, ht, hend, -⟩ := herr
  obtain rfl := Host.Outcome.next.inj (ht.symm.trans h)
  exact hx ((congrArg State.error hend).symm.trans hok)

/-- The readable source bytes had Codes and their bits fitted, however many of them are taken: else
ENCODE would have stopped at the last one. -/
theorem firstBytes_of_encode_ok {i : Nat} (hi : i ≤ s.srcReadable) :
    allCoded s.code (s.sourceBytes.take i) = true ∧
      (payload s.code (s.sourceBytes.take i)).length ≤
        8 * s.dstWritable - s.outBitpos.toNat := by
  obtain ⟨hv, hapart⟩ := checks_of_encode_ok h hok
  induction i with
  | zero => exact ⟨rfl, Nat.zero_le _⟩
  | succ i ih =>
    obtain ⟨hcoded, hfit⟩ := ih (by omega)
    cases hc : s.code.read (s.srcAt i) with
    | none =>
      have hroom : payload s.code (s.sourceBytes.take i) = [] ∨ s.outBitpos.toNat +
          (payload s.code (s.sourceBytes.take i)).length ≤ 8 * s.dstWritable := by
        rw [← List.length_eq_zero_iff]
        omega
      exact (false_of_encode_error h hok (by simp)
        (encodeStopsAtAnUncodedByte s i hv hapart hi hcoded hc hroom)).elim
    | some k =>
      have hcoded' : allCoded s.code (s.sourceBytes.take (i + 1)) = true := by
        rw [State.take_succ_sourceBytes hi, allCoded_append, allCoded_cons]
        exact ⟨hcoded, ⟨k, hc⟩, rfl⟩
      refine ⟨hcoded', Nat.le_of_not_lt fun hover => ?_⟩
      exact false_of_encode_error h hok (by simp)
        (exec_encode_of_overflow hv hapart hi hcoded' hfit hover)

/-- A successful ENCODE could read and encode its whole source, and had room for it (R177). -/
theorem source_of_encode_ok : s.srcReadable = s.srcLen.toNat ∧
    allCoded s.code s.sourceBytes = true ∧
    (8 * ((s.outBitpos.toNat + (payload s.code s.sourceBytes).length + 7) / 8) = s.outBitpos.toNat ∨
      8 * ((s.outBitpos.toNat + (payload s.code s.sourceBytes).length + 7) / 8) ≤
        8 * s.dstWritable) := by
  obtain ⟨hv, hapart⟩ := checks_of_encode_ok h hok
  obtain ⟨hcoded, hfit⟩ := firstBytes_of_encode_ok h hok le_rfl
  have hread : s.srcReadable = s.srcLen.toNat := by
    refine le_antisymm (Nat.min_le_left _ _) (Nat.le_of_not_lt fun hshort => ?_)
    exact false_of_encode_error h hok (by simp)
      (exec_encode_of_unreadable hv hapart hshort hcoded hfit)
  rw [hread, List.take_of_length_le (by simp)] at hcoded hfit
  refine ⟨hread, hcoded, ?_⟩
  by_contra hstop
  have hnil : payload s.code s.sourceBytes = [] := by
    rw [← List.length_eq_zero_iff]
    omega
  rw [hnil, List.length_nil] at hstop
  have hexec := exec_encode_of_pad_overflow hv hapart hread hcoded hnil (by omega) (by omega)
  obtain rfl := Host.Outcome.next.inj (hexec.symm.trans h)
  cases hok

end

/-! ### The regions that a command leaves -/

section
variable {i : Instr} {s t : State} (h : exec i s = .next t)
include h

theorem regionsMeet_of_exec : t.regionsMeet ↔ s.regionsMeet := by
  obtain ⟨-, hsrc, hlen, hdst, hcap, -⟩ := commandsKeepTheHostsRegisters i s t h
  rw [State.regionsMeet, State.regionsMeet, hsrc, hlen, hdst, hcap]

/-- A command leaves a source region that is apart from its destination. -/
theorem sourceBytes_of_exec (hapart : ¬ s.regionsMeet) : t.sourceBytes = s.sourceBytes := by
  obtain ⟨-, hsrc, hlen, -⟩ := commandsKeepTheHostsRegisters i s t h
  rw [State.sourceBytes, State.sourceBytes, hlen]
  refine List.map_congr_left fun j hj => ?_
  rw [List.mem_range] at hj
  rw [State.srcAt, State.srcAt, hsrc]
  by_contra hne
  obtain ⟨-, hlow, hhigh, -⟩ := storesStayInTheDestination i s t _ h hne
  exact hapart ⟨_, ⟨by omega, by omega⟩, hlow, hhigh⟩

end

/-! ### The blob -/

/-- The source region is a blob: the bytes of a header, the bits of a payload, and padding up to a
byte boundary; all of it in M (30_encoding.md R112 to R114). -/
structure State.HoldsBlob (s : State) (header : List Byte) (bits : List Bool) : Prop where
  headerBytes : s.sourceHolds 0 header
  payloadBits : s.srcBits (8 * header.length) (8 * header.length + bits.length) = bits
  srcLen : s.srcLen.toNat = (8 * header.length + bits.length + 7) / 8
  readable : s.srcReadable = s.srcLen.toNat

/-- Bits stored from a byte boundary on leave the bytes before it. -/
theorem byteAt_of_storesBits {s t : State} {a0 n : Nat} {bs : List Bool}
    (h : s.storesBits t a0 (8 * n) bs) {a : Nat} (ha : a < a0 + n) : t.byteAt a = s.byteAt a := by
  refine BitVec.eq_of_getLsbD_eq fun j hj => ?_
  have hbit := h a (7 - j) (by omega)
  rwa [if_neg (by omega), show 7 - (7 - j) = j by omega] at hbit

/-- Bits that a command has stored at the source address stand in the source region. -/
theorem srcBits_of_storesBits {s t g : State} {q : Nat} {bs cs : List Bool}
    (hbyte : ∀ a, g.byteAt a = t.byteAt a) (h : s.storesBits t g.srcAddr.toNat q (bs ++ cs)) :
    g.srcBits q (q + bs.length) = bs := by
  refine List.ext_getElem (by simp) fun j _ hj => ?_
  have hbit := h (g.srcAddr.toNat + (q + j) / 8) ((q + j) % 8) (by omega)
  have hindex : 8 * (g.srcAddr.toNat + (q + j) / 8 - g.srcAddr.toNat) + (q + j) % 8 - q = j := by
    omega
  rw [List.length_append, if_pos (by omega), hindex, List.getD_append _ _ _ _ hj,
    List.getD_eq_getElem _ _ hj] at hbit
  simpa [State.srcBits, State.srcBitAt, State.srcAt, hbyte] using hbit

section
variable {f : SizeForm} {c d : State} (h : exec (.dictWrite f) c = .next d) (hok : d.error = .none)
include h hok

/-- A successful DICT_WRITE leaves OUT_BITPOS after its header, whose length it reports (R162,
R163). -/
theorem outBitpos_of_dictWrite_ok (hlegal : c.cfg.legal) :
    (headerOf f c.code).length ≤ c.dstWritable ∧
    d.outBitpos.toNat = 8 * (headerOf f c.code).length ∧
    d.result0.toNat = (headerOf f c.code).length ∧ d.code = c.code := by
  obtain ⟨hfits, m, -, rfl⟩ := dictWrite_eq_of_ok h hok
  have hwritable : c.dstWritable ≤ c.cfg.memBytes - c.dstAddr.toNat := Nat.min_le_right _ _
  obtain ⟨-, hmax⟩ := hlegal
  exact ⟨hfits, (BitVec.toNat_ofNat ..).trans (Nat.mod_eq_of_lt (by omega)),
    (BitVec.toNat_ofNat ..).trans (Nat.mod_eq_of_lt (by omega)), rfl⟩

theorem byteAt_of_dictWrite_ok {i : Nat} (hi : i < (headerOf f c.code).length) :
    d.byteAt (d.dstAddr.toNat + i) = (headerOf f c.code)[i] := by
  obtain ⟨-, m, hstores, rfl⟩ := dictWrite_eq_of_ok h hok
  have hbyte := hstores c.powerOn (c.dstAddr.toNat + i)
  rwa [if_pos (by omega), Nat.add_sub_cancel_left, List.getD_eq_getElem _ _ hi] at hbyte

end

/-- What a successful ENCODE from a byte boundary on leaves: its results, and its payload and
padding in the destination region (R177, R179). -/
theorem results_of_encode_ok {s e : State} (hlegal : s.cfg.legal) (h : exec .encode s = .next e)
    (hok : e.error = .none) {n : Nat} (hq : s.outBitpos.toNat = 8 * n) (hn : n ≤ s.dstWritable)
    {bits : List Bool} (hbits : payload s.code s.sourceBytes = bits) :
    8 * n + bits.length < 2 ^ 32 ∧ e.result0.toNat = bits.length ∧
    e.result1.toNat = (8 * n + bits.length + 7) / 8 ∧ e.result1.toNat ≤ s.dstWritable ∧
    ∃ pad, s.storesBits e s.dstAddr.toNat (8 * n) (bits ++ pad) := by
  obtain ⟨hv, hapart⟩ := checks_of_encode_ok h hok
  obtain ⟨hread, hcoded, hroom⟩ := source_of_encode_ok h hok
  obtain ⟨hstop, t, ht, hend, hstores⟩ :=
    encodeWritesThePayload s hlegal hv hapart hread hcoded hroom
  obtain rfl := Host.Outcome.next.inj (ht.symm.trans h)
  have hr0 := congrArg (fun u => u.result0.toNat) hend
  have hr1 := congrArg (fun u => u.result1.toNat) hend
  simp only [State.ended, BitVec.toNat_ofNat, hbits, hq] at hr0 hr1
  rw [hbits, hq] at hroom hstop hstores
  exact ⟨by omega, by omega, by omega, by omega, _, hstores⟩

/-- The state in which the host points the source region at what ENCODE left in the destination
region of `e`, up to its last byte (R186). -/
def State.toBlob (e : State) (dst cap bitEnd : Word) : State :=
  { e with
    srcAddr := e.dstAddr, srcLen := e.result1, dstAddr := dst, dstCap := cap, bitEnd := bitEnd }

/-- DICT_WRITE and ENCODE leave a blob of the header and the payload in their destination region. -/
theorem holdsBlob_of_encode_ok {f : SizeForm} {c d e : State} (hlegal : c.cfg.legal)
    (hwrite : exec (.dictWrite f) c = .next d) (hd : d.error = .none)
    (hencode : exec .encode d = .next e) (he : e.error = .none) (dst cap bitEnd : Word) :
    (e.toBlob dst cap bitEnd).HoldsBlob (headerOf f c.code) (payload c.code c.sourceBytes) ∧
    8 * (headerOf f c.code).length + (payload c.code c.sourceBytes).length < 2 ^ 32 ∧
    e.result0.toNat = (payload c.code c.sourceBytes).length ∧
    allCoded c.code c.sourceBytes = true := by
  obtain ⟨-, hapart⟩ := checks_of_encode_ok hencode he
  obtain ⟨hfits, hq, -, hcode⟩ := outBitpos_of_dictWrite_ok hwrite hd hlegal
  obtain ⟨-, hcoded, -⟩ := source_of_encode_ok hencode he
  have hsource := sourceBytes_of_exec hwrite (mt (regionsMeet_of_exec hwrite).2 hapart)
  obtain ⟨-, -, -, hdst, hcap, -, -, -, hcfg, -⟩ := commandsKeepTheHostsRegisters _ _ _ hwrite
  obtain ⟨-, -, -, hdst', -, -, -, -, hcfg', -⟩ := commandsKeepTheHostsRegisters _ _ _ hencode
  have hwritable : d.dstWritable = c.dstWritable := by
    rw [State.dstWritable, State.dstWritable, hdst, hcap, hcfg]
  have hmem : d.dstWritable ≤ e.cfg.memBytes - e.dstAddr.toNat := by
    rw [hcfg', hdst']
    exact Nat.min_le_right _ _
  obtain ⟨hlt, hr0, hr1, hle, pad, hstores⟩ := results_of_encode_ok (hcfg ▸ hlegal) hencode he hq
    (hwritable ▸ hfits) (by rw [hcode, hsource])
  rw [hcode, hsource] at hcoded
  rw [← hdst'] at hstores
  have hreadable : (e.toBlob dst cap bitEnd).srcReadable = e.result1.toNat :=
    Nat.min_eq_left (hle.trans hmem)
  refine ⟨⟨⟨by omega, ?_⟩, ?_, hr1, hreadable⟩, hlt, hr0, hcoded⟩
  · refine List.ext_getElem (by simp) fun i _ hi => ?_
    have hbyte := byteAt_of_storesBits hstores (Nat.add_lt_add_left hi _)
    rw [hdst', byteAt_of_dictWrite_ok hwrite hd hi, ← hdst'] at hbyte
    rw [List.getElem_map, List.getElem_range', Nat.zero_add, Nat.one_mul]
    exact hbyte
  · exact srcBits_of_storesBits (g := e.toBlob dst cap bitEnd) (fun _ => rfl) hstores

/-! ### The blob, decoded -/

/-- DICT_READ reads the header of a blob whole, and stands at the payload (R165 to R168). -/
theorem exec_dictRead_of_holdsBlob {f : SizeForm} {g : State} {c : Table (Option Code)}
    {bits : List Bool} (hblob : g.HoldsBlob (headerOf f c) bits)
    (hempty : f = .oneByte → headerEntries c = [] → g.srcLen = 0#32) : exec (.dictRead f) g = .next
      ((g.commitDictionary (headerEntries c) (headerOf f c).length).ended 0x05#8 .none
        (headerEntries c).length (headerOf f c).length) := by
  have hcap : (headerEntries c).length ≤ formCapacity f := by
    have := codeCount_le c
    rw [length_headerEntries]
    cases f <;> simp only [formCapacity] <;> omega
  have hholds := hblob.headerBytes
  rw [← rawHeader_headerEntries] at hholds ⊢
  exact exec_dictRead_of_ok (readHeader_of_sourceHolds hcap hempty hholds)

/-- DECODE gives back the coded bytes of a payload that the source region holds (R182, R183). -/
theorem exists_exec_decode_of_payload {s : State} {c : Table (Option Code)} {bs : List Byte}
    (hinverse : ∀ k b, s.dmap.read k = some b ↔ c.read b = some k) (hmatchable : allMatchable c)
    (hprefix : prefixFree c) (hcoded : allCoded c bs = true) (hl : s.dictLoaded = true)
    (hapart : ¬ s.regionsMeet) (hread : s.decodeLimit ≤ 8 * s.srcReadable)
    (hbits : s.srcBits s.inBitpos.toNat s.decodeLimit = payload c bs)
    (hfit : bs.length ≤ s.dstWritable) :
    ∃ t, exec .decode s = .next t ∧ t.error = .none ∧ t.result0 = BitVec.ofNat 32 bs.length ∧
      t.result1 = 0#32 ∧ s.storesBytes t s.dstAddr.toNat bs := by
  have hnone : symbolAt s.dmap [] = none := symbolAt_eq_none_iff.2 fun n hn => by
    rw [List.take_nil]
    exact read_codeOfPath_of_unmatchable _ (.inl rfl)
  obtain ⟨t, ht, hend, hstores⟩ := decodeOutputsTheSymbols s bs.length (payload c bs).length bs hl
    hapart (.inr hread) (hbits ▸ takeSymbols_payload hinverse hmatchable hprefix hcoded)
    (by rw [← State.decodeLimit, hbits, List.drop_length]; exact hnone)
    (by rw [← State.decodeLimit, hbits, List.drop_length]; exact Nat.zero_lt_succ _) hfit
  refine ⟨t, ht, congrArg State.error hend, congrArg State.result0 hend, ?_, hstores⟩
  refine (congrArg State.result1 hend).trans ?_
  show BitVec.ofNat 32 ((s.srcBits s.inBitpos.toNat s.decodeLimit).length - _) = _
  rw [hbits, Nat.sub_self]

/-- The empty dictionary codes no byte, so its blob is empty (R170). -/
theorem srcLen_of_empty_blob {g : State} {c : Table (Option Code)} {bs : List Byte}
    (hblob : g.HoldsBlob (headerOf .oneByte c) (payload c bs)) (hcoded : allCoded c bs = true)
    (hempty : headerEntries c = []) : g.srcLen = 0#32 := by
  have hnil : bs = [] := by
    cases bs with
    | nil => rfl
    | cons b bs =>
      obtain ⟨⟨k, hk⟩, -⟩ := (allCoded_cons c b bs).1 hcoded
      have hmem := mem_codeEntries.2 hk
      rw [List.map_eq_nil_iff.1 hempty] at hmem
      cases hmem
  have hlen := hblob.srcLen
  rw [← rawHeader_headerEntries, hempty, hnil] at hlen
  refine BitVec.eq_of_toNat_eq (hlen.trans ?_)
  simp [rawHeader, payload]

/-- DICT_READ and DECODE give back the bytes of a blob, with BIT_END at the end of its payload
(R186). -/
theorem decompress_of_holdsBlob {g : State} {c : Table (Option Code)} {bs : List Byte}
    (hmatchable : allMatchable c) (hprefix : prefixFree c) (hcoded : allCoded c bs = true)
    (hblob : g.HoldsBlob (headerOf .oneByte c) (payload c bs))
    (hend : g.bitEnd.toNat = 8 * (headerOf .oneByte c).length + (payload c bs).length)
    (hapart : ¬ g.regionsMeet) (hfit : bs.length ≤ g.dstWritable) :
    ∃ u v, exec (.dictRead .oneByte) g = .next u ∧ u.error = .none ∧ exec .decode u = .next v ∧
      v.error = .none ∧ v.result0 = BitVec.ofNat 32 bs.length ∧ v.result1 = 0#32 ∧
      u.storesBytes v g.dstAddr.toNat bs := by
  have hinverse := read_commitEntries_headerEntries_dmap hmatchable
    fun b b' k hb hb' => hprefix b b' k k hb hb' List.prefix_rfl
  have hread := exec_dictRead_of_holdsBlob hblob fun _ => srcLen_of_empty_blob hblob hcoded
  have hpos : (BitVec.ofNat 32 (8 * (headerOf .oneByte c).length)).toNat =
      8 * (headerOf .oneByte c).length := by
    have := g.bitEnd.isLt
    rw [BitVec.toNat_ofNat]
    omega
  have hlimit : g.decodeLimit = 8 * (headerOf .oneByte c).length + (payload c bs).length := by
    rw [State.decodeLimit, hend, hblob.srcLen]
    omega
  obtain ⟨v, hv⟩ := exists_exec_decode_of_payload hinverse hmatchable hprefix hcoded
    (s := (g.commitDictionary (headerEntries c) (headerOf .oneByte c).length).ended 0x05#8 .none
      (headerEntries c).length (headerOf .oneByte c).length) rfl hapart
    (by
      show g.decodeLimit ≤ 8 * g.srcReadable
      rw [hlimit, hblob.readable, hblob.srcLen]
      omega)
    (by
      show g.srcBits (BitVec.ofNat 32 (8 * (headerOf .oneByte c).length)).toNat g.decodeLimit = _
      rw [hpos, hlimit, hblob.payloadBits])
    hfit
  exact ⟨_, v, hread, rfl, hv⟩

/-! ### The round trip -/

/-- What the commands before DICT_WRITE leave of the source and of MEM_BYTES. -/
theorem source_of_codes {s a b c : State} (hcount : exec .count s = .next a)
    (hbuild : exec .build a = .next b) (hassign : exec .assign b = .next c)
    (hapart : ¬ c.regionsMeet) : c.sourceBytes = s.sourceBytes ∧ c.cfg = s.cfg := by
  have hb := mt (regionsMeet_of_exec hassign).2 hapart
  have ha := mt (regionsMeet_of_exec hbuild).2 hb
  have hs := mt (regionsMeet_of_exec hcount).2 ha
  have hcfg {i : Instr} {s t : State} (h : exec i s = .next t) : t.cfg = s.cfg := by
    obtain ⟨-, -, -, -, -, -, -, -, hcfg, -⟩ := commandsKeepTheHostsRegisters i s t h
    exact hcfg
  rw [sourceBytes_of_exec hassign hb, sourceBytes_of_exec hbuild ha, sourceBytes_of_exec hcount hs,
    hcfg hassign, hcfg hbuild, hcfg hcount]
  exact ⟨rfl, rfl⟩

/-- Settles O43: ENCODE leaves a blob; its header loads the inverse of CODE, and its payload is
split into the source bytes because no Code begins another. -/
theorem decompressGivesBackTheInput : Obligations.DecompressGivesBackTheInput := by
  unfold Obligations.DecompressGivesBackTheInput
  intro s a b c d e dst cap hlegal hcount ha hbuild hassign hc hwrite hd hencode he g hapart hroom
  obtain ⟨hmatchable, hprefix⟩ := prefixFree_of_assign (s := b) (by
    rw [execBuild_eq] at hbuild
    obtain rfl := Host.Outcome.next.inj hbuild
    exact fun tr htr => wellFormed_of_buildTree htr) hassign hc
  obtain ⟨-, hdapart⟩ := checks_of_encode_ok hencode he
  obtain ⟨hsource, hcfg⟩ :=
    source_of_codes hcount hbuild hassign (mt (regionsMeet_of_exec hwrite).2 hdapart)
  obtain ⟨-, -, hheader, -⟩ := outBitpos_of_dictWrite_ok hwrite hd (hcfg ▸ hlegal)
  obtain ⟨hblob, hlt, hbits, hcoded⟩ := holdsBlob_of_encode_ok (hcfg ▸ hlegal) hwrite hd hencode he
    dst cap (BitVec.ofNat 32 (8 * d.result0.toNat + e.result0.toNat))
  rw [hsource] at hblob hlt hbits hcoded
  have hlen := s.length_sourceBytes
  have hend : (BitVec.ofNat 32 (8 * d.result0.toNat + e.result0.toNat)).toNat =
      8 * (headerOf .oneByte c.code).length + (payload c.code s.sourceBytes).length := by
    rw [hheader, hbits, BitVec.toNat_ofNat, Nat.mod_eq_of_lt hlt]
  obtain ⟨u, v, hu, hue, hv, hve, hr0, hr1, hstores⟩ := decompress_of_holdsBlob hmatchable hprefix
    hcoded hblob hend hapart (hlen.trans_le hroom)
  refine ⟨u, v, hu, hue, hv, hve, ?_, hr1, fun i hi => ?_⟩
  · rw [hr0, hlen, BitVec.ofNat_toNat, BitVec.setWidth_eq]
  · have hbyte := hstores (dst.toNat + i)
    rw [show State.dstAddr (e.toBlob dst cap _) = dst from rfl, if_pos (by omega),
      Nat.add_sub_cancel_left] at hbyte
    rw [hbyte, List.getD_eq_getElem?_getD, State.getElem?_sourceBytes hi, Option.getD_some]

end Sys2Proof.Machine

/-! PROOF. RA_DECODE (44_random_access.md R191 to R196): its loop decodes bits as DECODE's does, up to
the last symbol asked for, and reads a window of whole codes as DECODE reads them. -/

namespace Sys2Proof.Machine

/-! ### The bytes output so far -/

/-- A symbol takes 1 to 8 of the bits (43_stream_codec.md R183). -/
theorem length_of_symbolAt {d : DecodeMap} {bits : List Bool} {len : Nat} {v : Byte}
    (h : symbolAt d bits = some (len, v)) : 1 ≤ len ∧ len ≤ 8 ∧ len ≤ bits.length := by
  obtain ⟨hle, hread, -⟩ := symbolAt_eq_some_iff.1 h
  obtain ⟨hpos, h8, -⟩ := (Code.matchable_iff _).1 (DecodeMap.matchable_of_read hread)
  rw [codeOfPath_len, List.length_take_of_le hle] at hpos h8
  exact ⟨hpos, h8, hle⟩

theorem le_k_decodeBit (s : State) (b : Bool) (r : DecodeRun) : r.k ≤ (decodeBit s b r).k := by
  unfold decodeBit
  dsimp only
  split
  · split
    · exact le_rfl
    · exact Nat.le_succ _
  · split <;> exact le_rfl

theorem le_k_decodeBits (s : State) (bs : List Bool) (r : DecodeRun) :
    r.k ≤ (decodeBits s bs r).k := by
  induction bs generalizing r with
  | nil => exact le_rfl
  | cons b bs ih =>
    rw [decodeBits]
    split
    · exact (le_k_decodeBit s b r).trans (ih _)
    · exact le_k_decodeBit s b r

/-- More bits do not make fewer bytes. -/
theorem k_decodeBits_take_mono (s : State) (bs : List Bool) (r : DecodeRun) :
    Monotone fun c => (decodeBits s (bs.take c) r).k := by
  induction bs generalizing r with
  | nil =>
    intro c d _
    simp
  | cons b bs ih =>
    rintro (_ | c) (_ | d) h
    · exact le_rfl
    · exact le_k_decodeBits s _ r
    · cases h
    · dsimp only
      rw [List.take_succ_cons, List.take_succ_cons, decodeBits, decodeBits]
      split
      · exact ih _ (Nat.le_of_succ_le_succ h)
      · exact le_rfl

/-- The last of `n` symbols is output at its last bit and not before. -/
theorem k_lt_of_takeSymbols {s : State} {n : Nat} {bits : List Bool} {out : List Byte} {used : Nat}
    (h : takeSymbols s.dmap n bits = some (out, used)) (e : Engine) (p : Nat) {k : Nat}
    (hfit : k + n ≤ s.dstWritable) {c : Nat} (hc : c < used) :
    (decodeBits s (bits.take c) (.between e p k)).k < k + n := by
  induction n generalizing bits out used e p k c with
  | zero =>
    cases h
    cases hc
  | succ n ih =>
    obtain ⟨len, v, vs, rest, hsym, hrest, rfl, rfl⟩ := takeSymbols_succ_eq_some_iff.1 h
    obtain hshort | hlong := Nat.lt_or_ge c len
    · obtain ⟨-, -, hshorter⟩ := symbolAt_eq_some_iff.1 hsym
      obtain ⟨-, h8, hle⟩ := length_of_symbolAt hsym
      have hlen : (bits.take c).length = c := List.length_take_of_le (by omega)
      have hnone : symbolAt s.dmap (bits.take c) = none := symbolAt_eq_none_iff.2 fun j hj => by
        rw [List.take_take, Nat.min_eq_left (by omega)]
        exact hshorter j (by omega)
      rw [decodeBits_of_trailing e p k hnone (by omega)]
      exact Nat.lt_add_of_pos_right n.succ_pos
    · obtain ⟨e', -, hfirst⟩ := exists_decodeBits_of_symbol e p k hsym (by omega)
      obtain ⟨c, rfl⟩ := Nat.exists_eq_add_of_le hlong
      have hmore := ih hrest e' (p + len) (k := k + 1) (by omega) (c := c) (by omega)
      rw [List.take_add, decodeBits_append_of_ok (by rw [hfirst]; rfl), hfirst]
      omega

/-! ### RA_DECODE's loop -/

section
variable {s : State} {n : Nat} {r : DecodeRun}

/-- With the symbols asked for decoded the loop ends (R191). -/
theorem raLoop_of_done (h : n ≤ r.k) (fuel : Nat) : raLoop s n fuel r = r := by
  cases fuel <;> rw [raLoop, if_neg (Nat.not_lt.2 h)]

/-- At the end of the source region the loop ends with RA_TRUNCATED (R194). -/
theorem raLoop_of_end (hk : r.k < n) (hend : 8 * s.srcLen.toNat ≤ r.p) (fuel : Nat) :
    raLoop s n fuel r = { r with err := .raTruncated } := by
  cases fuel with
  | zero => rw [raLoop, if_pos hk]
  | succ fuel => rw [raLoop, if_pos hk, if_pos hend]

theorem raLoop_succ_of_unreadable (hapart : ¬ s.regionsMeet) (hr : r.eng.ReachedFrom s)
    (hk : r.k < n) (hp : 8 * s.srcReadable ≤ r.p) (hlen : r.p < 8 * s.srcLen.toNat) (fuel : Nat) :
    raLoop s n (fuel + 1) r = { r with err := .ioBounds } := by
  rw [raLoop, if_pos hk, if_neg (by omega), srcBit_of_reached hr hapart, srcBit, srcByte_engine_eq,
    if_neg (by omega), if_neg (by omega)]

/-- While its bits can be read and symbols are missing, the loop decodes the bits one after another,
up to an error. -/
theorem raLoop_add (hapart : ¬ s.regionsMeet) (hr : r.eng.ReachedFrom s) (hok : r.err = .none)
    {c : Nat} (hread : c = 0 ∨ r.p + c ≤ 8 * s.srcReadable)
    (hk : ∀ i < c, (decodeBits s ((s.srcBits r.p (r.p + c)).take i) r).k < n) (fuel : Nat) :
    raLoop s n (fuel + c) r =
      if (decodeBits s (s.srcBits r.p (r.p + c)) r).err = .none
      then raLoop s n fuel (decodeBits s (s.srcBits r.p (r.p + c)) r)
      else decodeBits s (s.srcBits r.p (r.p + c)) r := by
  induction c generalizing r with
  | zero => rw [Nat.add_zero, Nat.add_zero, State.srcBits_of_le le_rfl, decodeBits, if_pos hok]
  | succ c ih =>
    have hp := decodeBit_p s (s.srcBitAt r.p) r
    have hreadable : s.srcReadable ≤ s.srcLen.toNat := Nat.min_le_left _ _
    have hfirst : r.k < n := hk 0 c.succ_pos
    rw [State.srcBits_of_lt (by omega)] at hk ⊢
    rw [decodeBits, ← Nat.add_assoc, raLoop, if_pos hfirst, if_neg (by omega),
      srcBit_of_reached hr hapart, srcBit_of_readable (by omega)]
    dsimp only
    by_cases hbit : (decodeBit s (s.srcBitAt r.p) r).err = .none
    · have hend : r.p + (c + 1) = (decodeBit s (s.srcBitAt r.p) r).p + c := by omega
      rw [← hp, hend] at hk ⊢
      rw [if_pos hbit, if_pos hbit, ih (decodeBit_reached s _ r hr) hbit (by omega)]
      intro i hi
      have hmore := hk (i + 1) (Nat.succ_lt_succ hi)
      rwa [List.take_succ_cons, decodeBits, if_pos hbit] at hmore
    · rw [if_neg hbit, if_neg hbit, if_neg hbit]

end

/-! ### The bits of the window -/

/-- The bits from RA_OFFSET on that lie both in the source region and in M (R192). -/
def State.windowBits (s : State) : List Bool := s.srcBits s.raOffset.toNat (8 * s.srcReadable)

theorem State.length_windowBits (s : State) :
    s.windowBits.length = 8 * s.srcReadable - s.raOffset.toNat := s.length_srcBits _ _

/-- RA_DECODE's run before its first bit: at RA_OFFSET (R192). -/
def State.windowStart (s : State) : DecodeRun := .between s.engine s.raOffset.toNat 0

theorem raRun_eq (s : State) : raRun s = raLoop s (s.raLength.toNat / 8)
    (8 * s.srcLen.toNat - s.raOffset.toNat + 1) s.windowStart := rfl

section
variable {s : State} (hapart : ¬ s.regionsMeet) {c : Nat} {r : DecodeRun}
  (hc : c ≤ s.windowBits.length)
  (hbits : decodeBits s (s.windowBits.take c) s.windowStart = r)
include hapart hc hbits

/-- RA_DECODE's loop over the first `c` bits of the window; rounds of the loop are left after them. -/
theorem exists_raRun_add
    (hk : ∀ i < c, (decodeBits s (s.windowBits.take i) s.windowStart).k < s.raLength.toNat / 8) :
    ∃ fuel, raRun s =
      if r.err = .none then raLoop s (s.raLength.toNat / 8) (fuel + 1) r else r := by
  have hlen := s.length_windowBits
  have hreadable : s.srcReadable ≤ s.srcLen.toNat := Nat.min_le_left _ _
  have hwindow : s.windowBits.take c = s.srcBits s.raOffset.toNat (s.raOffset.toNat + c) :=
    State.take_srcBits (by omega)
  have hloop := raLoop_add (r := s.windowStart) (n := s.raLength.toNat / 8) hapart s.engine_reached
    rfl (c := c) (show c = 0 ∨ s.raOffset.toNat + c ≤ _ by omega) (fun _ hi => ?_)
    (8 * s.srcLen.toNat - s.raOffset.toNat - c + 1)
  · rw [show s.windowStart.p = s.raOffset.toNat from rfl, ← hwindow, hbits,
      show 8 * s.srcLen.toNat - s.raOffset.toNat - c + 1 + c =
        8 * s.srcLen.toNat - s.raOffset.toNat + 1 by omega, ← raRun_eq] at hloop
    exact ⟨_, hloop⟩
  · rw [show s.windowStart.p = s.raOffset.toNat from rfl, ← hwindow, List.take_take,
      Nat.min_eq_left hi.le]
    exact hk _ hi

/-- Bits after which symbols are still missing do not end the loop; an error in them does. -/
theorem exists_raRun_of_missing (hk : r.k < s.raLength.toNat / 8) : ∃ fuel, raRun s =
    if r.err = .none then raLoop s (s.raLength.toNat / 8) (fuel + 1) r else r :=
  exists_raRun_add hapart hc hbits fun _ hi =>
    (k_decodeBits_take_mono s s.windowBits s.windowStart hi.le).trans_lt
      ((congrArg DecodeRun.k hbits).trans_lt hk)

/-- An error in the bits of the window ends the loop. -/
theorem raRun_of_error (hk : r.k < s.raLength.toNat / 8) (herr : r.err ≠ .none) : raRun s = r := by
  obtain ⟨fuel, hrun⟩ := exists_raRun_of_missing hapart hc hbits hk
  rw [hrun, if_neg herr]

/-- Without an error and short of symbols, the loop ends with RA_TRUNCATED at the end of the source
region (R194). -/
theorem raRun_of_end (hk : r.k < s.raLength.toNat / 8) (hok : r.err = .none)
    (hend : 8 * s.srcLen.toNat ≤ r.p) : raRun s = { r with err := .raTruncated } := by
  obtain ⟨fuel, hrun⟩ := exists_raRun_of_missing hapart hc hbits hk
  rw [hrun, if_pos hok, raLoop_of_end hk hend]

/-- Without an error and short of symbols, the loop ends with IO_BOUNDS at the first bit outside M. -/
theorem raRun_of_unreadable (hk : r.k < s.raLength.toNat / 8) (hok : r.err = .none)
    (hp : 8 * s.srcReadable ≤ r.p) (hlen : r.p < 8 * s.srcLen.toNat) :
    raRun s = { r with err := .ioBounds } := by
  obtain ⟨fuel, hrun⟩ := exists_raRun_of_missing hapart hc hbits hk
  have hreached := decodeBits_reached (s.windowBits.take c) (r := s.windowStart) s.engine_reached
  rw [hbits] at hreached
  rw [hrun, if_pos hok, raLoop_succ_of_unreadable hapart hreached hk hp hlen]

/-- The last bit of the last symbol asked for ends the loop (R191). -/
theorem raRun_of_done (hdone : s.raLength.toNat / 8 ≤ r.k) (hok : r.err = .none)
    (hk : ∀ i < c, (decodeBits s (s.windowBits.take i) s.windowStart).k < s.raLength.toNat / 8) :
    raRun s = r := by
  obtain ⟨fuel, hrun⟩ := exists_raRun_add hapart hc hbits hk
  rw [hrun, if_pos hok, raLoop_of_done hdone]

end

/-! ### RA_DECODE's end -/

/-- RA_DECODE ends with the error code `e`, RA_CURSOR at `p` and `n` bytes reported; it stores `out` in
the destination region, and changes nothing else (R191). -/
def State.raDecodeEnds (s : State) (e : ErrCode) (p n : Nat) (out : List Byte) : Prop :=
  ∃ t, exec .raDecode s = .next t ∧
    t = ({ s with mem := t.mem, raCursor := BitVec.ofNat 32 p } : State).ended
      0x08#8 e n (8 * n) ∧
    s.storesBytes t s.dstAddr.toNat out

section
variable {s : State} (hl : s.dictLoaded = true)
include hl

/-- RA_LENGTH 0 decodes nothing, wherever the regions stand (R191). -/
theorem exec_raDecode_of_zero_length (hlen : s.raLength = 0#32) :
    exec .raDecode s = .next (s.ended 0x08#8 .none 0 0) := by
  simp [exec, execRaDecode, hl, hlen, Instr.opcode, State.finish_eq_ended]

/-- RA_DECODE reports where its loop ended, with or without an error (R191). -/
theorem raDecodeEnds_of_run (hapart : ¬ s.regionsMeet) (hne : s.raLength ≠ 0#32) {r : DecodeRun}
    (hrun : raRun s = r) {out : List Byte}
    (hstores : s.mem.storesBytes r.eng.mem s.dstAddr.toNat out) :
    s.raDecodeEnds r.err r.p r.k out := by
  refine ⟨({ s with mem := r.eng.mem, raCursor := BitVec.ofNat 32 r.p } : State).ended
    0x08#8 r.err r.k (8 * r.k), ?_, rfl, hstores s.powerOn⟩
  by_cases hok : r.err = .none <;>
    simp [exec, execRaDecode, hl, hne, State.overlap_eq_false hapart, hrun, hok, Instr.opcode,
      State.finish_eq_ended, State.raise_eq_ended]

end

/-- A length of one symbol or more is not 0. -/
theorem raLength_ne_zero {s : State} {n : Nat} (h : n < s.raLength.toNat / 8) :
    s.raLength ≠ 0#32 := by
  intro hzero
  rw [hzero] at h
  cases h

/-- Settles O40: the last bit of the last symbol ends the loop. -/
theorem raDecodeOutputsTheWindow : Obligations.RaDecodeOutputsTheWindow := by
  unfold Obligations.RaDecodeOutputsTheWindow
  intro s used out hlegal hl hne hapart n p htake hfit
  obtain ⟨-, hmax⟩ := hlegal
  obtain ⟨-, hused⟩ := length_of_takeSymbols htake
  have hreadable : s.srcReadable ≤ s.cfg.memBytes - s.srcAddr.toNat := Nat.min_le_right _ _
  have hoffset : p < 2 ^ 32 := s.raOffset.isLt
  have hroom : used ≤ 8 * s.srcReadable - p := hused.trans s.length_windowBits.le
  have hfit' : 0 + n ≤ s.dstWritable := by rwa [Nat.zero_add]
  have hlast := fun i => k_lt_of_takeSymbols htake s.engine p hfit' (c := i)
  obtain ⟨e, hbits, hstores⟩ := exists_decodeBits_of_symbols htake s.engine p hfit'
  rw [Nat.zero_add] at hbits hlast
  exact ⟨by omega, raDecodeEnds_of_run hl hapart hne
    (raRun_of_done hapart hused hbits le_rfl rfl hlast) hstores⟩

section
variable {s : State} {n used : Nat} {out : List Byte}
  (htake : takeSymbols s.dmap n s.windowBits = some (out, used))
  (hsym : symbolAt s.dmap (s.windowBits.drop used) = none) (hfit : n ≤ s.dstWritable)
  (hshort : (s.windowBits.drop used).length < 8)
include htake hsym hfit hshort

/-- All the bits of the window, where fewer than eight are left after the symbols. -/
theorem exists_decodeBits_windowBits : ∃ e acc, s.mem.storesBytes e.mem s.dstAddr.toNat out ∧
    decodeBits s (s.windowBits.take s.windowBits.length) s.windowStart =
      { eng := e, p := max s.raOffset.toNat (8 * s.srcReadable), k := n, acc := acc
        err := .none } := by
  obtain ⟨-, hused⟩ := length_of_takeSymbols htake
  obtain ⟨e, hstores, hbits⟩ :=
    exists_decodeBits_of_symbols_append htake s.engine s.raOffset.toNat hfit
  have hall := hbits (s.windowBits.drop used)
  have hend : s.raOffset.toNat + used + (s.windowBits.drop used).length =
      max s.raOffset.toNat (8 * s.srcReadable) := by
    rw [s.length_windowBits] at hused
    rw [List.length_drop, s.length_windowBits]
    omega
  rw [List.take_append_drop, decodeBits_of_trailing _ _ _ hsym hshort, hend] at hall
  exact ⟨e, _, hstores, by rw [List.take_length]; exact hall⟩

variable (hl : s.dictLoaded = true) (hapart : ¬ s.regionsMeet) (hn : n < s.raLength.toNat / 8)
include hl hapart hn

/-- RA_DECODE ends with RA_TRUNCATED where the source region ends before the last symbol (R194). -/
theorem raDecodeEnds_of_end
    (hend : 8 * s.srcLen.toNat ≤ max s.raOffset.toNat (8 * s.srcReadable)) :
    s.raDecodeEnds .raTruncated (max s.raOffset.toNat (8 * s.srcReadable)) n out := by
  obtain ⟨e, acc, hstores, hall⟩ := exists_decodeBits_windowBits htake hsym hfit hshort
  exact raDecodeEnds_of_run hl hapart (raLength_ne_zero hn)
    (raRun_of_end hapart le_rfl hall hn rfl hend) hstores

/-- RA_DECODE ends with IO_BOUNDS at the first bit outside M (R191). -/
theorem raDecodeEnds_of_unreadable
    (hlen : max s.raOffset.toNat (8 * s.srcReadable) < 8 * s.srcLen.toNat) :
    s.raDecodeEnds .ioBounds (max s.raOffset.toNat (8 * s.srcReadable)) n out := by
  obtain ⟨e, acc, hstores, hall⟩ := exists_decodeBits_windowBits htake hsym hfit hshort
  exact raDecodeEnds_of_run hl hapart (raLength_ne_zero hn)
    (raRun_of_unreadable hapart le_rfl hall hn rfl (le_max_right _ _) hlen) hstores

end

section
variable {s : State} {n used : Nat} {out : List Byte} (hl : s.dictLoaded = true)
  (hapart : ¬ s.regionsMeet) (hn : n < s.raLength.toNat / 8)
include hl hapart hn

/-- RA_DECODE ends with DECODE_OVERLONG after eight bits that match nothing (R191). -/
theorem raDecodeEnds_of_overlong (htake : takeSymbols s.dmap n s.windowBits = some (out, used))
    (hsym : symbolAt s.dmap (s.windowBits.drop used) = none)
    (hlong : 8 ≤ (s.windowBits.drop used).length) (hfit : n ≤ s.dstWritable) :
    s.raDecodeEnds .decodeOverlong (s.raOffset.toNat + used + 8) n out := by
  obtain ⟨e, hstores, hbits⟩ :=
    exists_decodeBits_of_symbols_append htake s.engine s.raOffset.toNat hfit
  have hall := hbits ((s.windowBits.drop used).take 8)
  rw [← List.take_add, decodeBits_of_overlong _ _ _ hsym hlong] at hall
  rw [List.length_drop] at hlong
  exact raDecodeEnds_of_run hl hapart (raLength_ne_zero hn)
    (raRun_of_error hapart (by omega) hall hn (by simp)) hstores

/-- RA_DECODE ends with IO_BOUNDS after the bits of a symbol whose byte does not fit (R191). -/
theorem raDecodeEnds_of_full
    (htake : takeSymbols s.dmap (n + 1) s.windowBits = some (out, used))
    (hfull : n = s.dstWritable) :
    s.raDecodeEnds .ioBounds (s.raOffset.toNat + used) n (out.take n) := by
  obtain ⟨-, hused⟩ := length_of_takeSymbols htake
  obtain ⟨vs, front, len, v, hfront, hsym, rfl, rfl⟩ := exists_last_of_takeSymbols htake
  obtain ⟨hvs, -⟩ := length_of_takeSymbols hfront
  obtain ⟨e, hstores, hbits⟩ :=
    exists_decodeBits_of_symbols_append hfront s.engine s.raOffset.toNat hfull.le
  have hlast := hbits ((s.windowBits.drop front).take len)
  rw [← List.take_add, decodeBits_of_full _ _ _ hsym hfull.ge, Nat.add_assoc] at hlast
  rw [List.take_left' hvs]
  exact raDecodeEnds_of_run hl hapart (raLength_ne_zero hn)
    (raRun_of_error hapart hused hlast hn (by simp)) hstores

end

/-- Settles O41: the bits up to the end of the source region are those of the window. -/
theorem raDecodeReportsTruncation : Obligations.RaDecodeReportsTruncation := by
  unfold Obligations.RaDecodeReportsTruncation
  intro s n used out hl hapart p stop bits hn hread htake hsym hshort hfit
  have hle : s.srcReadable ≤ s.srcLen.toNat := Nat.min_le_left _ _
  have hbits : bits = s.windowBits := by
    rcases hread with hread | hstop
    · rw [State.windowBits, hread]
    · rw [State.windowBits, State.srcBits_of_le (by omega)]
      exact State.srcBits_of_le hstop
  have hcursor : max p stop = max s.raOffset.toNat (8 * s.srcReadable) := by omega
  rw [hbits] at htake hsym hshort
  rw [hcursor]
  exact raDecodeEnds_of_end htake hsym hfit hshort hl hapart hn (by omega)

/-- Settles O42: eight bits match nothing, an output byte does not fit, or a bit lies outside M. -/
theorem raDecodeStopsAsDecodeDoes : Obligations.RaDecodeStopsAsDecodeDoes := by
  unfold Obligations.RaDecodeStopsAsDecodeDoes
  intro s n used out hl hapart hn p bits
  refine ⟨fun htake hsym hlong hfit => ?_, fun htake hfull => ?_,
    fun hread hlen htake hsym hshort hfit => ?_⟩
  · exact raDecodeEnds_of_overlong hl hapart hn htake hsym hlong hfit
  · exact raDecodeEnds_of_full hl hapart hn htake hfull
  · exact raDecodeEnds_of_unreadable htake hsym hfit hshort hl hapart hn (by omega)

end Sys2Proof.Machine

/-! PROOF. Random-access equivalence (44_random_access.md R196): what a successful DECODE has found, and
the symbols of a window of it. -/

namespace Sys2Proof.Machine

/-! ### Symbols of a part of the bits -/

/-- `n + m` symbols are the first `n` and then `m` more. -/
theorem takeSymbols_add {d : DecodeMap} {n m : Nat} {bits : List Bool} {out : List Byte} {used : Nat}
    (h : takeSymbols d (n + m) bits = some (out, used)) : ∃ vs front ws back,
      takeSymbols d n bits = some (vs, front) ∧
      takeSymbols d m (bits.drop front) = some (ws, back) ∧ out = vs ++ ws := by
  induction n generalizing bits out used with
  | zero =>
    rw [Nat.zero_add] at h
    exact ⟨[], 0, out, used, rfl, h, rfl⟩
  | succ n ih =>
    rw [Nat.add_right_comm] at h
    obtain ⟨len, v, us, rest, hsym, hrest, rfl, rfl⟩ := takeSymbols_succ_eq_some_iff.1 h
    obtain ⟨vs, front, ws, back, hfront, hback, rfl⟩ := ih hrest
    rw [List.drop_drop] at hback
    exact ⟨v :: vs, len + front, ws, back,
      takeSymbols_succ_eq_some_iff.2 ⟨len, v, vs, front, hsym, hfront, rfl, rfl⟩, hback, rfl⟩

/-- A symbol takes at least one bit. -/
theorem le_used_of_takeSymbols {d : DecodeMap} {n : Nat} {bits : List Bool} {out : List Byte}
    {used : Nat} (h : takeSymbols d n bits = some (out, used)) : n ≤ used := by
  induction n generalizing bits out used with
  | zero => exact Nat.zero_le _
  | succ n ih =>
    obtain ⟨len, v, vs, rest, hsym, hrest, rfl, rfl⟩ := takeSymbols_succ_eq_some_iff.1 h
    obtain ⟨hpos, -, -⟩ := length_of_symbolAt hsym
    have := ih hrest
    omega

/-- A symbol of the first bits is the symbol of them all. -/
theorem symbolAt_of_take {d : DecodeMap} {bits : List Bool} {c n : Nat} {v : Byte}
    (h : symbolAt d (bits.take c) = some (n, v)) : symbolAt d bits = some (n, v) := by
  obtain ⟨hle, hread, hshorter⟩ := symbolAt_eq_some_iff.1 h
  rw [List.length_take] at hle
  rw [List.take_take, Nat.min_eq_left (by omega)] at hread
  refine symbolAt_eq_some_iff.2 ⟨by omega, hread, fun j hj => ?_⟩
  have hnone := hshorter j hj
  rwa [List.take_take, Nat.min_eq_left (by omega)] at hnone

/-- The symbols of the first bits are the first symbols of them all. -/
theorem takeSymbols_of_take {d : DecodeMap} {n : Nat} {bits : List Bool} {c : Nat} {out : List Byte}
    {used : Nat} (h : takeSymbols d n (bits.take c) = some (out, used)) :
    takeSymbols d n bits = some (out, used) := by
  induction n generalizing bits c out used with
  | zero => exact h
  | succ n ih =>
    obtain ⟨len, v, vs, rest, hsym, hrest, rfl, rfl⟩ := takeSymbols_succ_eq_some_iff.1 h
    rw [List.drop_take] at hrest
    exact takeSymbols_succ_eq_some_iff.2
      ⟨len, v, vs, rest, symbolAt_of_take hsym, ih hrest, rfl, rfl⟩

theorem State.drop_srcBits (s : State) (p stop n : Nat) :
    (s.srcBits p stop).drop n = s.srcBits (p + n) stop := by
  refine List.ext_getElem (by simp; omega) fun j _ _ => ?_
  simp [State.srcBits, Nat.add_assoc]

/-! ### What a run without an error has found -/

section
variable {s : State}

theorem ok_of_decodeBits_append {bs cs : List Bool} {r : DecodeRun} (hr : r.err = .none)
    (h : (decodeBits s (bs ++ cs) r).err = .none) : (decodeBits s bs r).err = .none := by
  induction bs generalizing r with
  | nil => exact hr
  | cons b bs ih =>
    rw [List.cons_append, decodeBits] at h
    rw [decodeBits]
    split at h
    · next hbit =>
      rw [if_pos hbit]
      exact ih hbit h
    · next hbit => exact absurd h hbit

/-- A run without an error has read all of its bits. -/
theorem decodeBits_p_of_ok {bs : List Bool} {r : DecodeRun}
    (h : (decodeBits s bs r).err = .none) : (decodeBits s bs r).p = r.p + bs.length := by
  induction bs generalizing r with
  | nil => rfl
  | cons b bs ih =>
    rw [decodeBits] at h ⊢
    split at h
    · next hbit =>
      rw [if_pos hbit, ih h, decodeBit_p, List.length_cons]
      omega
    · next hbit => exact absurd h hbit

/-- Bits without an error are symbols whose bytes fit, and fewer than eight bits that match
nothing. -/
theorem exists_takeSymbols_of_ok {bits : List Bool} {e : Engine} {p k : Nat}
    (hok : (decodeBits s bits (.between e p k)).err = .none) (hk : k ≤ s.dstWritable) :
    ∃ n out used, takeSymbols s.dmap n bits = some (out, used) ∧
      symbolAt s.dmap (bits.drop used) = none ∧ (bits.drop used).length < 8 ∧
      k + n ≤ s.dstWritable := by
  induction hlen : bits.length using Nat.strong_induction_on generalizing bits e p k with
  | _ len ih =>
    have hfront (c : Nat) : (decodeBits s (bits.take c) (.between e p k)).err = .none :=
      ok_of_decodeBits_append (cs := bits.drop c) rfl (by rwa [List.take_append_drop])
    cases hsym : symbolAt s.dmap bits with
    | none =>
      refine ⟨0, [], 0, rfl, hsym, Nat.lt_of_not_le fun hlong => ?_, hk⟩
      have h8 := hfront 8
      rw [decodeBits_of_overlong e p k hsym hlong] at h8
      cases h8
    | some symbol =>
      obtain ⟨n, v⟩ := symbol
      have hroom : k < s.dstWritable := Nat.lt_of_not_le fun hfull => by
        have hn := hfront n
        rw [decodeBits_of_full e p k hsym hfull] at hn
        cases hn
      obtain ⟨e', -, hfirst⟩ := exists_decodeBits_of_symbol e p k hsym hroom
      obtain ⟨hpos, -, hle⟩ := length_of_symbolAt hsym
      rw [← List.take_append_drop n bits, decodeBits_append_of_ok (hfront _), hfirst] at hok
      obtain ⟨m, out, used, htake, hnone, hshort, hfit⟩ :=
        ih _ (by rw [List.length_drop]; omega) hok hroom rfl
      rw [List.drop_drop] at hnone hshort
      exact ⟨m + 1, v :: out, n + used,
        takeSymbols_succ_eq_some_iff.2 ⟨n, v, out, used, hsym, htake, rfl, rfl⟩, hnone, hshort,
        by omega⟩

/-- A DECODE loop without an error could read all of its bits, and decoded them. -/
theorem readable_of_decodeRun_ok (hapart : ¬ s.regionsMeet) (hok : (decodeRun s).err = .none) :
    (s.decodeLimit ≤ s.inBitpos.toNat ∨ s.decodeLimit ≤ 8 * s.srcReadable) ∧
    (decodeBits s (s.srcBits s.inBitpos.toNat s.decodeLimit)
      (.between s.engine s.inBitpos.toNat 0)).err = .none := by
  have hread : s.decodeLimit ≤ s.inBitpos.toNat ∨ s.decodeLimit ≤ 8 * s.srcReadable := by
    by_contra hout
    have hlimit : s.decodeLimit ≤ 8 * s.srcLen.toNat := Nat.min_le_right _ _
    have hc : 8 * s.srcReadable - s.inBitpos.toNat < s.decodeLimit - s.inBitpos.toNat := by omega
    have hlen := s.length_srcBits s.inBitpos.toNat s.decodeLimit
    generalize hrun : decodeBits s ((s.srcBits s.inBitpos.toNat s.decodeLimit).take
      (8 * s.srcReadable - s.inBitpos.toNat)) (.between s.engine s.inBitpos.toNat 0) = r
    by_cases hr : r.err = .none
    · have hp := decodeBits_p_of_ok (hrun ▸ hr)
      rw [hrun, List.length_take_of_le (by omega), DecodeRun.between] at hp
      dsimp only at hp
      rw [decodeRun_of_unreadable hapart hc (by omega) hrun hr (by omega) (by omega)] at hok
      cases hok
    · rw [decodeRun_of_error hapart hc.le (by omega) hrun hr] at hok
      exact hr hok
  refine ⟨hread, ?_⟩
  by_contra herr
  rw [decodeRun_of_error hapart le_rfl (by omega) (by rw [List.take_of_length_le (by simp)]) herr]
    at hok
  exact herr hok

end

/-- A successful DECODE passed its two checks, and its loop had no error (R182). -/
theorem checks_of_decode_ok {s t : State} (h : exec .decode s = .next t) (hok : t.error = .none) :
    s.dictLoaded = true ∧ ¬ s.regionsMeet ∧ (decodeRun s).err = .none := by
  rw [← overlapIsASharedAddress s, Bool.not_eq_true]
  rcases execDecode_cases s with ⟨_, hx⟩ | ⟨_, _, hx⟩ | ⟨hl, ho, hrun, _⟩ | ⟨_, _, hrun, hx⟩
  · obtain rfl := Host.Outcome.next.inj (hx.symm.trans h)
    cases hok
  · obtain rfl := Host.Outcome.next.inj (hx.symm.trans h)
    cases hok
  · exact ⟨hl, ho, hrun⟩
  · obtain rfl := Host.Outcome.next.inj (hx.symm.trans h)
    exact absurd hok hrun

/-- What a successful DECODE outputs: the symbols of its bits, all of which it could read (R182). -/
theorem symbols_of_decode_ok {s t : State} (h : exec .decode s = .next t) (hok : t.error = .none) :
    ∃ n out used,
      takeSymbols s.dmap n (s.srcBits s.inBitpos.toNat s.decodeLimit) = some (out, used) ∧
      (s.decodeLimit ≤ s.inBitpos.toNat ∨ s.decodeLimit ≤ 8 * s.srcReadable) ∧
      n ≤ s.dstWritable ∧ t.result0 = BitVec.ofNat 32 n ∧ s.storesBytes t s.dstAddr.toNat out := by
  obtain ⟨hl, hapart, hrun⟩ := checks_of_decode_ok h hok
  obtain ⟨hread, hbits⟩ := readable_of_decodeRun_ok hapart hrun
  obtain ⟨n, out, used, htake, hsym, hshort, hfit⟩ := exists_takeSymbols_of_ok hbits (Nat.zero_le _)
  rw [Nat.zero_add] at hfit
  obtain ⟨t', ht, hend, hstores⟩ :=
    decodeOutputsTheSymbols s n used out hl hapart hread htake hsym hshort hfit
  obtain rfl := Host.Outcome.next.inj (ht.symm.trans h)
  exact ⟨n, out, used, htake, hread, hfit, congrArg State.result0 hend, hstores⟩

/-! ### The window -/

/-- The state in which the host asks for `m` symbols from bit position `p` on (R192, R193). -/
def State.toWindow (s : State) (p m : Nat) : State :=
  { s with raOffset := BitVec.ofNat 32 p, raLength := BitVec.ofNat 32 (8 * m) }

section
variable {s : State} {p m : Nat}

theorem State.raLength_toWindow (hm : 8 * m < 2 ^ 32) :
    (s.toWindow p m).raLength.toNat = 8 * m :=
  (BitVec.toNat_ofNat ..).trans (Nat.mod_eq_of_lt hm)

theorem State.raOffset_toWindow (hp : p < 2 ^ 32) : (s.toWindow p m).raOffset.toNat = p :=
  (BitVec.toNat_ofNat ..).trans (Nat.mod_eq_of_lt hp)

/-- RA_DECODE outputs the `m` symbols of the bits from `p` on (R191, R193). -/
theorem exists_exec_raDecode_toWindow {used : Nat} {out : List Byte} (hlegal : s.cfg.legal)
    (hl : s.dictLoaded = true) (hapart : ¬ s.regionsMeet) (hp : p < 2 ^ 32) (hm : m ≠ 0)
    (hfit : m ≤ s.dstWritable)
    (htake : takeSymbols s.dmap m (s.srcBits p (8 * s.srcReadable)) = some (out, used)) :
    ∃ v, exec .raDecode (s.toWindow p m) = .next v ∧ v.error = .none ∧ v.result0.toNat = m ∧
      s.storesBytes v s.dstAddr.toNat out := by
  have hwritable : s.dstWritable ≤ s.cfg.memBytes - s.dstAddr.toNat := Nat.min_le_right _ _
  have hmax := hlegal.2
  have hlen : (s.toWindow p m).raLength.toNat = 8 * m := State.raLength_toWindow (by omega)
  have hne : (s.toWindow p m).raLength ≠ 0#32 := by
    intro hzero
    rw [hzero, BitVec.toNat_ofNat] at hlen
    omega
  have hn : (s.toWindow p m).raLength.toNat / 8 = m := by omega
  have houtput := raDecodeOutputsTheWindow (s.toWindow p m) used out hlegal hl hne hapart
  rw [hn, State.raOffset_toWindow hp] at houtput
  obtain ⟨-, v, hv, hend, hstores⟩ := houtput htake hfit
  refine ⟨v, hv, congrArg State.error hend, ?_, hstores⟩
  rw [hend]
  exact (BitVec.toNat_ofNat ..).trans (Nat.mod_eq_of_lt (by omega))

end

/-- Settles O44: the symbols of DECODE after the first `j` are those of its bits after the first `o`,
and the window's bits begin with these. -/
theorem randomAccessEqualsTheSlice : Obligations.RandomAccessEqualsTheSlice := by
  unfold Obligations.RandomAccessEqualsTheSlice
  intro s t j m o out hlegal hdecode hok hfront hcount
  obtain ⟨hl, hapart, -⟩ := checks_of_decode_ok hdecode hok
  obtain ⟨n, all, used, hall, hread, hfit, hr0, hstores⟩ := symbols_of_decode_ok hdecode hok
  by_cases hm : m = 0
  · subst hm
    exact ⟨_, exec_raDecode_of_zero_length (s := s.toWindow _ 0) hl rfl, rfl, rfl, nofun⟩
  rw [hr0, BitVec.toNat_ofNat] at hcount
  have hn : j + m ≤ n := hcount.trans (Nat.mod_le _ _)
  obtain ⟨rest, rfl⟩ := Nat.exists_eq_add_of_le hn
  rw [Nat.add_assoc] at hall
  obtain ⟨vs, front, ws, back, hvs, hws, rfl⟩ := takeSymbols_add hall
  obtain ⟨rfl, rfl⟩ := Prod.mk.inj (Option.some.inj (hvs.symm.trans hfront))
  obtain ⟨window, len, more, _, hwindow, -, rfl⟩ := takeSymbols_add hws
  obtain ⟨hj, -⟩ := length_of_takeSymbols hvs
  obtain ⟨hlen, hused⟩ := length_of_takeSymbols hwindow
  have hmused := le_used_of_takeSymbols hwindow
  have hlimit : s.decodeLimit < 2 ^ 32 := (Nat.min_le_left _ _).trans_lt s.bitEnd.isLt
  rw [State.drop_srcBits] at hwindow hused
  rw [State.length_srcBits] at hused
  have hpart : s.srcBits (s.inBitpos.toNat + front) s.decodeLimit =
      (s.srcBits (s.inBitpos.toNat + front) (8 * s.srcReadable)).take
        (s.decodeLimit - (s.inBitpos.toNat + front)) := by
    rw [State.take_srcBits (by omega), Nat.add_sub_cancel' (by omega)]
  rw [hpart] at hwindow
  obtain ⟨v, hv, hverr, hvr0, hvstores⟩ := exists_exec_raDecode_toWindow hlegal hl hapart
    (by omega) hm (by omega) (takeSymbols_of_take hwindow)
  refine ⟨v, hv, hverr, hvr0, fun i hi => ?_⟩
  rw [hvstores, hstores, if_pos (by omega), if_pos (by simp; omega), Nat.add_sub_cancel_left,
    Nat.add_sub_cancel_left, List.getD_append_right _ _ _ _ (by omega), hj, Nat.add_sub_cancel_left,
    List.getD_append _ _ _ _ (by omega)]

end Sys2Proof.Machine

/-! PROOF. Session control (45_control.md R200, R201): which commands write the tables and the tree, and what
CLEAR discards. -/

namespace Sys2Proof.Machine

section
variable {s u : State} {i : Instr} {e : ErrCode}

theorem CommandEffect.codes (hu : CommandEffect s i e u) :
    (u.code = s.code ∧ u.codesValid = s.codesValid) ∨
      i = .assign ∨ i = .build ∨ i = .clear ∨ ∃ f, i = .dictRead f := by
  cases hu with
  | assign | codeTooLong => exact .inr (.inl rfl)
  | build => exact .inr (.inr (.inl rfl))
  | clear => exact .inr (.inr (.inr (.inl rfl)))
  | dictRead f => exact .inr (.inr (.inr (.inr ⟨f, rfl⟩)))
  | _ => exact .inl ⟨rfl, rfl⟩

theorem CommandEffect.decodeMap (hu : CommandEffect s i e u) :
    (u.dmap = s.dmap ∧ u.dictLoaded = s.dictLoaded) ∨ i = .clear ∨ ∃ f, i = .dictRead f := by
  cases hu with
  | clear => exact .inr (.inl rfl)
  | dictRead f => exact .inr (.inr ⟨f, rfl⟩)
  | _ => exact .inl ⟨rfl, rfl⟩

theorem CommandEffect.treeRegisters (hu : CommandEffect s i e u) :
    (u.tree = s.tree ∧ u.nleaves = s.nleaves ∧ u.rootWeight = s.rootWeight) ∨
      i = .build ∨ i = .clear := by
  cases hu with
  | build => exact .inr (.inl rfl)
  | clear => exact .inr (.inr rfl)
  | _ => exact .inl ⟨rfl, rfl, rfl⟩

theorem CommandEffect.freq (hu : CommandEffect s i e u) :
    u.freq = s.freq ∨ i = .count ∨ i = .clear := by
  cases hu with
  | count => exact .inr (.inl rfl)
  | clear => exact .inr (.inr rfl)
  | _ => exact .inl rfl

theorem CommandEffect.maxlen (hu : CommandEffect s i e u) :
    u.maxlen = s.maxlen ∨ i = .assign ∨ i = .clear ∨ ∃ f, i = .dictRead f := by
  cases hu with
  | assign | codeTooLong => exact .inr (.inl rfl)
  | clear => exact .inr (.inr (.inl rfl))
  | dictRead f => exact .inr (.inr (.inr ⟨f, rfl⟩))
  | _ => exact .inl rfl

end

/-- Settles O16: each table is in the effect of its writers only, and a command's end writes none. -/
theorem tablesHaveTheirWriters : Obligations.TablesHaveTheirWriters := by
  unfold Obligations.TablesHaveTheirWriters
  intro i s t h
  obtain ⟨u, e, r0, r1, hu, rfl⟩ := exec_endsAt h
  simp only [ne_eq, ← not_and_or]
  exact ⟨hu.codes.resolve_left, hu.decodeMap.resolve_left, hu.treeRegisters.resolve_left,
    hu.freq.resolve_left, hu.maxlen.resolve_left⟩

/-- Settles O46: CLEAR checks nothing, so it always makes these writes and then ends without error. -/
theorem clearDiscardsTheSession : Obligations.ClearDiscardsTheSession := by
  unfold Obligations.ClearDiscardsTheSession
  intro s
  exact congrArg Host.Outcome.next (State.finish_eq_ended _ (Instr.opcode .clear) 0 0)

end Sys2Proof.Machine

/-! PROOF. The end of every command, the errors and what they keep, and the idle block (60_exceptions.md R211
to R216, R228). -/

namespace Sys2Proof.Machine

/-! ### The idle block -/

theorem State.engineStep_of_idle {s : State} (h : s.running = none) : s.engineStep = .next s := by
  simp [State.engineStep, h]

/-- Settles O7: both steps are the engine's, which has nothing to run. -/
theorem idleBlockHoldsItsState : Obligations.IdleBlockHoldsItsState := by
  unfold Obligations.IdleBlockHoldsItsState
  refine fun s hidle => ⟨fun hnil => ?_, fun rest hwait => ?_⟩
  · rw [step_of_nil hnil, State.engineStep_of_idle hidle]
  · rw [step_of_cons hwait]
    exact State.engineStep_of_idle (s := s.takeAction rest) hidle

/-! ### The end of every command -/

theorem exists_exec_eq_next (i : Instr) (s : State) : ∃ t, exec i s = .next t := by
  have h := exec_isNext i s
  cases hexec : exec i s with
  | next t => exact ⟨t, rfl⟩
  | fault _ | refused _ =>
    rw [hexec] at h
    cases h

/-- The OP field of a word that decodes to a command is the command's operation code (R102). -/
theorem opcode_eq_of_command {w : Word} {i : Instr} (h : decodeWord w = .command i) :
    i.opcode = w.extractLsb' 0 8 :=
  ((commandWordSelectsItsRow.1 w i).1 h).1.symm

/-- What the end of every command word writes, and the mask that it leaves (R215). -/
theorem State.exists_runCommand_eq_next (s : State) (w : Word) : ∃ t, s.runCommand w = .next t ∧
    t.running = none ∧ t.done = true ∧ t.lastOp = w.extractLsb' 0 8 ∧ t.irqEn = s.irqEn := by
  cases hdec : decodeWord w with
  | command i =>
    obtain ⟨t, hexec⟩ := exists_exec_eq_next i s
    have hirq := (commandsKeepTheHostsRegisters i s t hexec).1
    obtain ⟨u, e, r0, r1, -, rfl⟩ := exec_endsAt hexec
    exact ⟨_, (State.runCommand_of_command hdec s).trans hexec, rfl, rfl,
      opcode_eq_of_command hdec, hirq⟩
  | illegal why =>
    exact ⟨_, State.runCommand_of_illegal hdec s, rfl, rfl, rfl, rfl⟩

/-- Settles O13: the word's end writes BUSY, DONE and LAST_OP, and STATUS shows the fields of the state
that it leaves. -/
theorem everyCommandEnds : Obligations.EveryCommandEnds := by
  unfold Obligations.EveryCommandEnds
  intro s w
  obtain ⟨t, hrun, hidle, hdone, hop, hirq⟩ := s.exists_runCommand_eq_next w
  obtain ⟨-, hbusyBit, hdoneBit, herrBit, hdict, hcodes, htree, -, hcode, hlast, -⟩ :=
    statusWordHasItsFields.2.2 t
  refine ⟨t, hrun, hidle, ?_, hdoneBit.trans hdone, herrBit.trans t.err_eq.symm, hdict, hcodes,
    htree, hcode, hlast.trans hop, hirq⟩
  rw [hbusyBit, hidle]
  rfl

/-! ### The precondition errors -/

theorem State.overlap_eq_true {s : State} (h : s.regionsMeet) : s.overlap = true :=
  (overlapIsASharedAddress s).2 h

section
variable {s : State}

theorem exec_encode_of_noCodes (h : s.codesValid = false) :
    exec .encode s = .next (s.ended 0x06#8 .noCodes 0 0) := by
  simp [exec, execEncode, h, Instr.opcode, State.raise_eq_ended]

theorem exec_decode_of_notLoaded (h : s.dictLoaded = false) :
    exec .decode s = .next (s.ended 0x07#8 .notLoaded 0 0) := by
  simp [exec, execDecode, h, Instr.opcode, State.raise_eq_ended]

theorem exec_raDecode_of_notLoaded (h : s.dictLoaded = false) :
    exec .raDecode s = .next (s.ended 0x08#8 .notLoaded 0 0) := by
  simp [exec, execRaDecode, h, Instr.opcode, State.raise_eq_ended]

theorem exec_encode_of_overlap (hmeet : s.regionsMeet) (h : s.codesValid = true) :
    exec .encode s = .next (s.ended 0x06#8 .regionOverlap 0 0) := by
  simp [exec, execEncode, h, State.overlap_eq_true hmeet, Instr.opcode, State.raise_eq_ended]

theorem exec_decode_of_overlap (hmeet : s.regionsMeet) (h : s.dictLoaded = true) :
    exec .decode s = .next (s.ended 0x07#8 .regionOverlap 0 0) := by
  simp [exec, execDecode, h, State.overlap_eq_true hmeet, Instr.opcode, State.raise_eq_ended]

theorem exec_raDecode_of_overlap (hmeet : s.regionsMeet) (h : s.dictLoaded = true)
    (hlen : s.raLength ≠ 0#32) :
    exec .raDecode s = .next (s.ended 0x08#8 .regionOverlap 0 0) := by
  simp [exec, execRaDecode, h, hlen, State.overlap_eq_true hmeet, Instr.opcode,
    State.raise_eq_ended]

end

/-- Settles O19: each command makes its checks in this order, before it reads or writes anything. -/
theorem preconditionErrorsComeInOrder : Obligations.PreconditionErrorsComeInOrder := by
  unfold Obligations.PreconditionErrorsComeInOrder
  exact fun s f => ⟨exec_assign_of_noTree,
    fun h => ⟨exec_dictWrite_of_noCodes h, exec_encode_of_noCodes h⟩,
    fun h => ⟨exec_decode_of_notLoaded h, exec_raDecode_of_notLoaded h⟩,
    exec_raDecode_of_zero_length,
    fun hmeet => ⟨exec_encode_of_overlap hmeet, exec_decode_of_overlap hmeet,
      exec_raDecode_of_overlap hmeet⟩⟩

/-! ### The errors of the stream commands -/

section
variable {s : State} {e : Engine} {x : ErrCode}

theorem srcByte_error {i : Nat} (h : srcByte s e i = .error x) : x = .ioBounds := by
  rcases srcByte_cases s e i with ⟨_, hr⟩ | ⟨_, _, hr⟩ | ⟨_, _, hr⟩ <;> cases hr.symm.trans h
  rfl

theorem srcBit_error {p : Nat} (h : srcBit s e p = .error x) : x = .ioBounds := by
  rcases srcBit_cases s e p with ⟨_, hr⟩ | ⟨_, _, hr⟩ | ⟨_, _, hr⟩ <;> cases hr.symm.trans h
  rfl

theorem dstByte_error {k : Nat} {v : Byte} (h : dstByte s e k v = .error x) : x = .ioBounds := by
  rcases dstByte_cases s e k v with ⟨_, hr⟩ | ⟨_, _, hr⟩ <;> cases hr.symm.trans h
  rfl

theorem dstBit_error {q : Nat} {b : Bool} (h : dstBit s e q b = .error x) : x = .ioBounds := by
  rcases dstBit_cases s e q b with ⟨_, hr⟩ | ⟨_, _, hr⟩ <;> cases hr.symm.trans h
  rfl

end

/-- The codes that ENCODE's loops can end with (43_stream_codec.md R177, R178). -/
def encodeCodes : List ErrCode := [.none, .ioBounds, .symbolUncoded]

/-- The codes that the loops of DECODE and RA_DECODE can end with (43_stream_codec.md R182, R185,
44_random_access.md R194). -/
def decodeCodes : List ErrCode := [.none, .ioBounds, .decodeOverlong, .raTruncated]

theorem putBits_err_mem (s : State) (bs : List Bool) {r : EncodeRun} (h : r.err ∈ encodeCodes) :
    (putBits s bs r).err ∈ encodeCodes := by
  induction bs generalizing r with
  | nil => exact h
  | cons b bs ih =>
    unfold putBits
    split
    · next hx => simp [encodeCodes, dstBit_error hx]
    · exact ih h

theorem encodeLoop_err_mem (s : State) (n : Nat) {r : EncodeRun} (h : r.err ∈ encodeCodes) :
    (encodeLoop s n r).err ∈ encodeCodes := by
  induction n generalizing r with
  | zero => exact h
  | succ n ih =>
    unfold encodeLoop
    split
    · next hx => simp [encodeCodes, srcByte_error hx]
    · exact h
    · split
      · simp [encodeCodes]
      · next k _ =>
        have hput := putBits_err_mem s k.bits h
        dsimp only
        split
        · exact ih hput
        · exact hput

theorem padLoop_err_mem (s : State) (n : Nat) {r : EncodeRun} (h : r.err ∈ encodeCodes) :
    (padLoop s n r).err ∈ encodeCodes := by
  induction n generalizing r with
  | zero => exact h
  | succ n ih =>
    unfold padLoop
    split
    · exact h
    · split
      · next hx => simp [encodeCodes, dstBit_error hx]
      · exact ih h

theorem encodeRun_err_mem (s : State) : (encodeRun s).err ∈ encodeCodes := by
  have hloop := encodeLoop_err_mem s s.srcLen.toNat (r := s.encodeStart)
    (by simp [encodeCodes, State.encodeStart])
  unfold encodeRun
  dsimp only
  split
  · exact padLoop_err_mem s 7 hloop
  · exact hloop

theorem decodeBit_err_mem (s : State) (b : Bool) {r : DecodeRun} (h : r.err ∈ decodeCodes) :
    (decodeBit s b r).err ∈ decodeCodes := by
  unfold decodeBit
  dsimp only
  split
  · split
    · next hx => simp [decodeCodes, dstByte_error hx]
    · exact h
  · split
    · simp [decodeCodes]
    · exact h

theorem decodeLoop_err_mem (s : State) (n : Nat) {r : DecodeRun} (h : r.err ∈ decodeCodes) :
    (decodeLoop s n r).err ∈ decodeCodes := by
  induction n generalizing r with
  | zero => exact h
  | succ n ih =>
    unfold decodeLoop
    split
    · next hx => simp [decodeCodes, srcBit_error hx]
    · exact h
    · next b _ =>
      have hbit := decodeBit_err_mem s b h
      dsimp only
      split
      · exact ih hbit
      · exact hbit

theorem raLoop_err_mem (s : State) (n fuel : Nat) {r : DecodeRun} (h : r.err ∈ decodeCodes) :
    (raLoop s n fuel r).err ∈ decodeCodes := by
  induction fuel generalizing r with
  | zero =>
    unfold raLoop
    split
    · simp [decodeCodes]
    · exact h
  | succ fuel ih =>
    unfold raLoop
    split
    · split
      · simp [decodeCodes]
      · split
        · next hx => simp [decodeCodes, srcBit_error hx]
        · simp [decodeCodes]
        · next b _ =>
          have hbit := decodeBit_err_mem s b h
          dsimp only
          split
          · exact ih hbit
          · exact hbit
    · exact h

theorem decodeRun_err_mem (s : State) : (decodeRun s).err ∈ decodeCodes :=
  decodeLoop_err_mem s _ (by simp [decodeCodes])

theorem raRun_err_mem (s : State) : (raRun s).err ∈ decodeCodes :=
  raLoop_err_mem s _ _ (by simp [decodeCodes])

theorem err_dictWriteRun (f : SizeForm) (s : State) :
    (dictWriteRun f s).err = .none ∨ (dictWriteRun f s).err = .ioBounds := by
  obtain ⟨e, hrun, -⟩ := exists_dictWriteRun_eq f s
  rw [hrun]
  exact ite_eq_or_eq ..

/-! ### What an error keeps -/

/-- CODE_TOO_LONG is ASSIGN's alone, and comes with the codes invalidated (R211, R216). -/
theorem exec_eq_of_codeTooLong {i : Instr} {s t : State} (h : exec i s = .next t)
    (herr : t.error = .codeTooLong) : i = .assign ∧ ∃ b : Byte,
      t = ({ s with code := Table.fill none, codesValid := false, maxlen := 0#4 } : State).raise
        0x03#8 .codeTooLong b.toNat 9 := by
  cases i with
  | count =>
    by_cases hread : s.srcReadable = s.srcLen.toNat
    · cases (exec_count_of_readable hread).symm.trans h
      cases herr
    · cases (exec_count_of_unreadable hread).symm.trans h
      cases herr
  | build | clear =>
    cases h
    cases herr
  | assign =>
    rcases execAssign_cases s with ⟨_, hx⟩ | ⟨_, hx⟩ | ⟨_, c, _, _, hx⟩ | ⟨_, b, _, _, hx⟩ <;>
      cases hx.symm.trans h
    · cases herr
    · cases herr
    · cases herr
    · exact ⟨rfl, b, rfl⟩
  | dictWrite f =>
    rcases execDictWrite_cases f s with ⟨_, hx⟩ | ⟨_, _, hx⟩ | ⟨_, _, hx⟩ <;>
      cases hx.symm.trans h
    · cases herr
    · cases herr
    · rcases err_dictWriteRun f s with hrun | hrun <;> cases hrun.symm.trans herr
  | dictRead f =>
    rcases readHeader_cases f s with ⟨es, pos, hread⟩ | ⟨count, hread⟩
    · cases (exec_dictRead_of_ok hread).symm.trans h
      cases herr
    · cases (exec_dictRead_of_error hread).symm.trans h
      rcases s.headerEnd_cases with hend | hend <;> cases hend.symm.trans herr
  | encode =>
    rcases execEncode_cases s with ⟨_, hx⟩ | ⟨_, _, hx⟩ | ⟨_, _, _, hx⟩ | ⟨_, _, _, hx⟩ <;>
      cases hx.symm.trans h
    · cases herr
    · cases herr
    · cases herr
    · exact absurd herr (ne_of_mem_of_not_mem (encodeRun_err_mem s) (by decide))
  | decode =>
    rcases execDecode_cases s with ⟨_, hx⟩ | ⟨_, _, hx⟩ | ⟨_, _, _, hx⟩ | ⟨_, _, _, hx⟩ <;>
      cases hx.symm.trans h
    · cases herr
    · cases herr
    · cases herr
    · exact absurd herr (ne_of_mem_of_not_mem (decodeRun_err_mem s) (by decide))
  | raDecode =>
    rcases execRaDecode_cases s with ⟨_, hx⟩ | ⟨_, _, hx⟩ | ⟨_, _, _, hx⟩ | ⟨_, _, _, _, hx⟩ |
      ⟨_, _, _, _, hx⟩ <;> cases hx.symm.trans h
    · cases herr
    · cases herr
    · cases herr
    · cases herr
    · exact absurd herr (ne_of_mem_of_not_mem (raRun_err_mem s) (by decide))

section
variable {s u : State} {i : Instr} {e : ErrCode}

/-- An effect that ends with an error writes no table but CODE. -/
theorem CommandEffect.tables_of_error (hu : CommandEffect s i e u) (he : e ≠ .none) :
    u.freq = s.freq ∧ u.tree = s.tree ∧ u.nleaves = s.nleaves ∧ u.rootWeight = s.rootWeight ∧
      u.dmap = s.dmap ∧ u.dictLoaded = s.dictLoaded := by
  cases hu with
  | nothing | codeTooLong | dictWriteStop | encodeStop | decodeStop | raDecode =>
    exact ⟨rfl, rfl, rfl, rfl, rfl, rfl⟩
  | _ => exact absurd rfl he

/-- Of the errors only CODE_TOO_LONG comes with a write of the codes. -/
theorem CommandEffect.codes_of_error (hu : CommandEffect s i e u) (he : e ≠ .none)
    (hlong : e ≠ .codeTooLong) :
    u.code = s.code ∧ u.codesValid = s.codesValid ∧ u.maxlen = s.maxlen := by
  cases hu with
  | nothing | dictWriteStop | encodeStop | decodeStop | raDecode => exact ⟨rfl, rfl, rfl⟩
  | codeTooLong => exact absurd rfl hlong
  | _ => exact absurd rfl he

end

/-- Settles O18: an effect that ends with an error writes at most bytes of M and RA_CURSOR, but for that
of CODE_TOO_LONG. -/
theorem errorsKeepTheTables : Obligations.ErrorsKeepTheTables := by
  unfold Obligations.ErrorsKeepTheTables
  intro i s t h herr
  have hlong (hc : t.error = .codeTooLong) : i = .assign ∧ t.code = Vector.replicate 256 none ∧
      t.codesValid = false ∧ t.maxlen = 0#4 ∧ t.mem = s.mem := by
    obtain ⟨hi, b, rfl⟩ := exec_eq_of_codeTooLong h hc
    exact ⟨hi, rfl, rfl, rfl, rfl⟩
  obtain ⟨u, e, r0, r1, hu, rfl⟩ := exec_endsAt h
  obtain ⟨hfreq, htree, hleaves, hweight, hdmap, hloaded⟩ := hu.tables_of_error herr
  exact ⟨hfreq, htree, hleaves, hweight, hdmap, hloaded,
    hu.inBitpos.resolve_right fun hw => herr hw.1,
    hu.outBitpos.resolve_right fun hw => herr hw.1, hu.codes_of_error herr, hlong⟩

end Sys2Proof.Machine

/-! PROOF. Reset (70_reset_and_hazards.md R240 to R242): the values it leaves, and the memory after a
reset that ends a running command. -/

namespace Sys2Proof.Machine

/-! ### The reset state -/

/-- Settles O8: a plain register reads off the reset state, one that is put together from fields
reads as in `State.reset`, and the tables are the filled and the empty ones. -/
theorem resetLeavesTheTabledValues : Obligations.ResetLeavesTheTabledValues := by
  unfold Obligations.ResetLeavesTheTabledValues
  intro cfg seed m s
  have hfreq (b : Byte) : s.freq.read b = 0#32 := Table.read_fill 0#32 b
  have hcode (b : Byte) : s.code.read b = none := Table.read_fill none b
  have hstatus : s.readReg .status = 0#32 :=
    (rfl : _ = State.reset.readReg .status).trans (by decide)
  have hhigh : s.readReg .rootWeightHi = 0#32 :=
    (rfl : _ = State.reset.readReg .rootWeightHi).trans (by decide)
  refine ⟨rfl, rfl, rfl, hstatus, rfl, rfl, rfl, rfl, rfl, rfl, rfl, rfl, rfl, rfl, rfl, rfl, rfl,
    rfl, hhigh, rfl, fun b => ⟨hfreq b, ?_, hcode b⟩, rfl, rfl, DecodeMap.read_empty, rfl, rfl, rfl,
    fun _ => rfl⟩
  rw [State.readReg, hcode, codeWord]

theorem memoryPart_nil {cfg : Config} (h : cfg.legal) : MemoryPart cfg [] :=
  ⟨h, List.Pairwise.nil, by simp⟩

/-- Settles O11: reset leaves M empty of writes, the tables cleared and no tree. -/
theorem resetMeetsTheInvariant : Obligations.ResetMeetsTheInvariant := by
  unfold Obligations.ResetMeetsTheInvariant
  exact ⟨fun _ _ hlegal => inv_resetOf (memoryPart_nil hlegal),
    inv_resetOf (memoryPart_nil (by decide))⟩

/-! ### The reset input -/

/-- Of byte writes that may land or not, each byte keeps its value or takes one of those written to
it (R242). -/
theorem Memory.byte_landWrites (n : Nat) (m : Memory) (ws : List Host.Cell) (seed a : Nat) :
    (landWrites n m ws).byte seed a = m.byte seed a ∨
      (a, (landWrites n m ws).byte seed a) ∈ ws := by
  induction ws with
  | nil => exact .inl rfl
  | cons c ws ih =>
    have hkept := ih.imp_right (List.mem_cons_of_mem c)
    rw [landWrites]
    split
    · rw [Memory.byte_store]
      split
      · next ha => exact .inr (ha ▸ List.mem_cons_self)
      · exact hkept
    · exact hkept

theorem State.trail_of_idle {s : State} (h : s.running = none) : s.trail = [] := by
  rw [State.trail, h]

/-- Settles O9: the step is the reset input, whose memory is the old one but for those writes of the
running command that have landed. -/
theorem resetEndsARunningCommand : Obligations.ResetEndsARunningCommand := by
  unfold Obligations.ResetEndsARunningCommand
  intro s rest hhost
  refine ⟨landWrites s.free s.mem (s.takeAction rest).trail, s.free + 1, step_of_cons hhost,
    Memory.byte_landWrites _ _ _ _, fun c hc => ?_, fun hidle => ?_⟩
  · obtain ⟨hlow, hhigh, -⟩ := (s.takeAction rest).trail_region c hc
    exact ⟨hlow, hhigh⟩
  · rw [State.trail_of_idle (s := s.takeAction rest) hidle, landWrites]

end Sys2Proof.Machine

/-! PROOF. How large a destination has to be (70_reset_and_hazards.md R252): the sizes of a header and
of a payload, and the bytes that a bit of DECODE can output. -/

namespace Sys2Proof.Machine

/-! ### Sizes of what DICT_WRITE and ENCODE store -/

/-- A header is two bytes of size field and three for each of 256 entries at most (R252). -/
theorem length_headerOf_le (f : SizeForm) (c : Table (Option Code)) :
    (headerOf f c).length ≤ 770 := by
  have hcount := codeCount_le c
  have hsize : (sizeField f (codeCount c)).length ≤ 2 := by
    cases f with
    | oneByte =>
      rw [sizeField]
      split <;> simp
    | twoByte => simp [sizeField]
  rw [← rawHeader_headerEntries, rawHeader_eq, List.length_append, length_flatMap_bytes,
    length_headerEntries]
  omega

/-- A matchable Code has at most eight bits, so a payload has at most a byte for each byte coded. -/
theorem length_payload_le {c : Table (Option Code)} (hc : allMatchable c) (bs : List Byte) :
    (payload c bs).length ≤ 8 * bs.length := by
  rw [length_payload, Nat.mul_comm, ← List.length_map (f := fun b => (c.read b).elim 0 Code.len)]
  refine List.sum_le_card_nsmul _ 8 fun n hn => ?_
  obtain ⟨b, -, rfl⟩ := List.mem_map.1 hn
  cases hb : c.read b with
  | none => exact Nat.zero_le 8
  | some k => exact ((Code.matchable_iff k).1 (hc b k hb)).2.1

/-- Commands leave the sizes of the two regions, and how much of them lies in M. -/
theorem sizes_of_exec {i : Instr} {s t : State} (h : exec i s = .next t) :
    t.srcLen = s.srcLen ∧ t.srcReadable = s.srcReadable ∧ t.dstWritable = s.dstWritable := by
  obtain ⟨-, hsrc, hlen, hdst, hcap, -, -, -, hcfg, -⟩ := commandsKeepTheHostsRegisters i s t h
  simp only [State.srcReadable, State.dstWritable, hsrc, hlen, hdst, hcap, hcfg, and_self]

/-- After its header of `n` bytes, a destination with a byte more for each source byte has room for
the payload and its padding. -/
theorem exists_exec_encode_of_room {s : State} {n : Nat} (hs : Inv s) (hv : s.codesValid = true)
    (hapart : ¬ s.regionsMeet) (hread : s.srcReadable = s.srcLen.toNat)
    (hcoded : allCoded s.code s.sourceBytes = true) (hq : s.outBitpos.toNat = 8 * n)
    (hroom : n + s.srcLen.toNat ≤ s.dstWritable) :
    ∃ t, exec .encode s = .next t ∧ t.error = .none := by
  have hbits := length_payload_le hs.codeMatchable s.sourceBytes
  rw [State.length_sourceBytes] at hbits
  obtain ⟨-, t, hexec, hend, -⟩ := encodeWritesThePayload s hs.cfgLegal hv hapart hread hcoded
    (.inr (by omega))
  exact ⟨t, hexec, congrArg State.error hend⟩

/-! ### The bytes that DECODE outputs -/

theorem decodeBit_k_le (s : State) (b : Bool) (r : DecodeRun) :
    (decodeBit s b r).k ≤ r.k + 1 := by
  unfold decodeBit
  dsimp only
  split
  · split
    · exact Nat.le_succ _
    · exact le_rfl
  · split <;> exact Nat.le_succ _

theorem decodeLoop_k_le (s : State) (n : Nat) (r : DecodeRun) :
    (decodeLoop s n r).k ≤ r.k + n := by
  induction n generalizing r with
  | zero => exact le_rfl
  | succ n ih =>
    unfold decodeLoop
    split
    · exact Nat.le_add_right _ _
    · exact Nat.le_add_right _ _
    · next b _ =>
      have hbit := decodeBit_k_le s b r
      dsimp only
      split
      · have hrest := ih (decodeBit s b r)
        omega
      · omega

theorem decodeRun_k_le (s : State) : (decodeRun s).k ≤ s.decodeLimit - s.inBitpos.toNat := by
  rw [decodeRun_eq]
  exact (decodeLoop_k_le s _ _).trans_eq (Nat.zero_add _)

/-- What DECODE reports as output is 0, or the bytes of its run. -/
theorem result0_of_decode {s t : State} (h : exec .decode s = .next t) :
    t.result0 = 0#32 ∨ t.result0 = BitVec.ofNat 32 (decodeRun s).k := by
  rcases execDecode_cases s with ⟨-, hx⟩ | ⟨-, -, hx⟩ | ⟨-, -, -, hx⟩ | ⟨-, -, -, hx⟩ <;>
    obtain rfl := Host.Outcome.next.inj (hx.symm.trans h)
  · exact .inl rfl
  · exact .inl rfl
  · exact .inr rfl
  · exact .inr rfl

/-- Settles O45: the header takes at most 770 bytes and the payload at most one for each source
byte, and a decoded bit outputs at most one byte. -/
theorem destinationOfThatSizeIsEnough : Obligations.DestinationOfThatSizeIsEnough := by
  unfold Obligations.DestinationOfThatSizeIsEnough
  constructor
  · intro s f hs hv hapart hread hcoded hroom
    have hheader := length_headerOf_le f s.code
    obtain ⟨m, -, hwrite⟩ := exec_dictWrite_of_fits (f := f) hv (by omega)
    obtain ⟨-, hq, -, hcode⟩ := outBitpos_of_dictWrite_ok hwrite rfl hs.cfgLegal
    obtain ⟨hlen, hreadable, hwritable⟩ := sizes_of_exec hwrite
    obtain ⟨e, hencode, he⟩ := exists_exec_encode_of_room (hs.exec hwrite) hv
      (mt (regionsMeet_of_exec hwrite).1 hapart) (by rw [hreadable, hlen, hread])
      (by rw [sourceBytes_of_exec hwrite hapart, hcode, hcoded]) hq (by rw [hlen, hwritable]; omega)
    exact ⟨_, e, hwrite, rfl, hencode, he⟩
  · intro s t h
    have hk : (decodeRun s).k ≤ min s.bitEnd.toNat (8 * s.srcLen.toNat) - s.inBitpos.toNat :=
      decodeRun_k_le s
    rcases result0_of_decode h with hr | hr <;> rw [hr]
    · exact Nat.zero_le _
    · exact (Nat.mod_le _ _).trans hk

end Sys2Proof.Machine
